-- ==== Sys2Proof/Word.lean ====
section
/-! DEFINITION. The two word types of the block: the 32-bit word of the host port and of every
register and buffer element (20_memory.md R61, 10_state.md section 5), and the byte that a word is
made of where a host sees it byte by byte (20_memory.md R64). -/

namespace Sys2Proof

/-- A 32-bit word: a register, a buffer element, a command word (R61, R90). -/
abbrev Word := BitVec 32

/-- One byte of a buffer element as the little-endian port shows it (R64). -/
abbrev Byte := BitVec 8

end Sys2Proof
end

