-- ==== Sys2Proof/Config.lean ====
section
/-! DEFINITION. The build-time configuration of the block (00_scope.md R6, R7) and the values the
spec leaves to the implementation (40_stft.md R119, 93_implementation_defined.md I1), the
latter as constants with no body. -/

namespace Sys2Proof

/-- `FFT_IMPL` (R7, R119): the reference transform, or any other algorithm. -/
inductive FftImpl where
  | ref
  | impl
  deriving DecidableEq, Repr

/-- `SB_RANGE_MODE` (R7, R204): the explicit range check, or the literal always-true comparison. -/
inductive SbRangeMode where
  | explicitRange
  | allBins
  deriving DecidableEq, Repr

/-- The build-time parameters of R7 that are not fixed for every block.
They are no state: no command and no register changes them (R6, R222, R253). -/
structure Config where
  /-- `N`, the transform length. -/
  n : Nat
  /-- `R`, the hop length. -/
  r : Nat
  fftImpl : FftImpl
  sbRangeMode : SbRangeMode
  deriving DecidableEq, Repr

namespace Config

/-- `K = N/2 + 1`, the number of bins (R7). -/
def k (c : Config) : Nat := c.n / 2 + 1

/-- The constraints R7 puts on a configuration: `N` even, `2 ≤ N ≤ 1024`, `1 ≤ R ≤ N`.
Nothing else is asked: `N mod R ≠ 0` and `N < 2R` are legal (R7, R138). -/
abbrev wf (c : Config) : Prop :=
  c.n % 2 = 0 ∧ 2 ≤ c.n ∧ c.n ≤ 1024 ∧ 1 ≤ c.r ∧ c.r ≤ c.n

/-- The default configuration of R7. -/
def default : Config := { n := 256, r := 128, fftImpl := .ref, sbRangeMode := .explicitRange }

/-- FREE VALUE (R119, I1; log entry 3): bin `k` of the forward transform of a frame when
`FFT_IMPL = IMPL`. The properties (a) and (b) of R119 are imposed where it is used. -/
opaque implForward : Config → List Word → Nat → Word × Word

/-- FREE VALUE (R130, I1; log entry 3): sample `n` of the inverse transform of the full Hermitian
spectrum when `FFT_IMPL = IMPL`. Property (a) of R119 is imposed where it is used. -/
opaque implInverse : Config → List (Word × Word) → Nat → Word

end Config

end Sys2Proof
end

