-- ==== Sys2Proof/Syntax.lean ====
section
/-! DEFINITION. The commands of the block: one constructor per row of spec/opcode_table.json
(30_encoding.md R94), with the operands of the assembler syntax of R99. -/

namespace Sys2Proof

/-- The gain vector STFT_MASK reads (R127): `SEL = 0` GAIN_STATE, `SEL = 1` GAIN_IN. -/
inductive MaskSource where
  | gainState
  | gainIn
  deriving DecidableEq, Repr

/-- A command. `sh` is the shift amount SH and `w` the saturation width W = WM1 + 1 (R92); their
ranges are checked in WellFormed (R99: a value out of range is an assembly error). -/
inductive Instr where
  | nop
  | stftInit
  | stftAnalyze
  | stftMag
  | stftLogmag
  | stftMask (sel : MaskSource)
  | stftSynth
  | qClr
  | qMul (sh : Nat)
  | qMac (sh : Nat)
  | qAddsh (sh : Nat)
  | qSat (w : Nat)
  | qShrsat (sh w : Nat)
  | qAddsat (w : Nat)
  | qInterp
  | qTanh
  | qSigmoid
  | qRelu
  | fTanh
  | fSigmoid
  | fRelu
  | ppInit
  | ppRun
  deriving DecidableEq, Repr

end Sys2Proof
end

