-- ==== Sys2Proof/WellFormed.lean ====
section
/-! DEFINITION. Which commands the assembler accepts (30_encoding.md R92, R99). -/

namespace Sys2Proof

/-- A shift amount the field SH can hold: 0..63 (R92). -/
abbrev shiftOk (sh : Nat) : Prop := sh ≤ 63

/-- A saturation width the field WM1 can hold: 1..64, so never 0 (R92). -/
abbrev widthOk (w : Nat) : Prop := 1 ≤ w ∧ w ≤ 64

/-- The command's operands are in range (R99). -/
def Instr.wf : Instr → Bool
  | .qMul sh => decide (shiftOk sh)
  | .qMac sh => decide (shiftOk sh)
  | .qAddsh sh => decide (shiftOk sh)
  | .qSat w => decide (widthOk w)
  | .qShrsat sh w => decide (shiftOk sh) && decide (widthOk w)
  | .qAddsat w => decide (widthOk w)
  | .nop => true
  | .stftInit => true
  | .stftAnalyze => true
  | .stftMag => true
  | .stftLogmag => true
  | .stftMask _ => true
  | .stftSynth => true
  | .qClr => true
  | .qInterp => true
  | .qTanh => true
  | .qSigmoid => true
  | .qRelu => true
  | .fTanh => true
  | .fSigmoid => true
  | .fRelu => true
  | .ppInit => true
  | .ppRun => true

end Sys2Proof
end

