-- ==== Sys2Proof/Decode.lean ====
section
/-! DEFINITION. The decoder of command words (30_encoding.md R90 to R98) and, after it, the encoder
(R91, R94, R99). -/

namespace Sys2Proof

/-- The formats of R91: which fields a command uses. -/
inductive Format where
  | N
  | S
  | W
  | SW
  | E
  deriving DecidableEq, Repr

/-- Why a command word is rejected (R93, R95). -/
inductive DecodeError where
  /-- OP is not in R94: ERRCODE 1. -/
  | illegalOp
  /-- OP is defined and a reserved bit of its format is set: ERRCODE 2. -/
  | reservedBits
  deriving DecidableEq, Repr

/-- The fixed-bits mask of a format: OP and the reserved bits (R91). -/
def Format.fixedMask : Format → Word
  | .N => 0xFFFFFFFF#32
  | .S => 0xFFC0FFFF#32
  | .W => 0xFFFFC0FF#32
  | .SW => 0xFFC0C0FF#32
  | .E => 0xFFFFFFFE#32

/-- OP = `c[31:24]` (R90). -/
def opField (c : Word) : Nat := c.toNat / 2 ^ 24

/-- SH = `c[21:16]`, unsigned (R92). -/
def shField (c : Word) : Nat := c.toNat / 2 ^ 16 % 64

/-- W = `c[13:8] + 1` (R92). -/
def widthField (c : Word) : Nat := c.toNat / 2 ^ 8 % 64 + 1

/-- SEL = `c[0]` (R92, R127). -/
def selField (c : Word) : MaskSource := if c.toNat % 2 = 0 then .gainState else .gainIn

/-- The opcode map of R94: the format and the command OP selects in the word `c`, none where OP is
undefined (R95). -/
def opcodeMap (c : Word) : Option (Format × Instr) :=
  match opField c with
  | 0x00 => some (.N, .nop)
  | 0x10 => some (.N, .stftInit)
  | 0x11 => some (.N, .stftAnalyze)
  | 0x12 => some (.N, .stftMag)
  | 0x13 => some (.N, .stftLogmag)
  | 0x14 => some (.E, .stftMask (selField c))
  | 0x15 => some (.N, .stftSynth)
  | 0x20 => some (.N, .qClr)
  | 0x21 => some (.S, .qMul (shField c))
  | 0x22 => some (.S, .qMac (shField c))
  | 0x23 => some (.S, .qAddsh (shField c))
  | 0x24 => some (.W, .qSat (widthField c))
  | 0x25 => some (.SW, .qShrsat (shField c) (widthField c))
  | 0x26 => some (.W, .qAddsat (widthField c))
  | 0x27 => some (.N, .qInterp)
  | 0x28 => some (.N, .qTanh)
  | 0x29 => some (.N, .qSigmoid)
  | 0x2A => some (.N, .qRelu)
  | 0x30 => some (.N, .fTanh)
  | 0x31 => some (.N, .fSigmoid)
  | 0x32 => some (.N, .fRelu)
  | 0x40 => some (.N, .ppInit)
  | 0x41 => some (.N, .ppRun)
  | _ => none

/-- The reserved-bit test of R93: `(c AND mask(format(OP)) AND 0x00FFFFFF) ≠ 0`. -/
def reservedBitSet (f : Format) (c : Word) : Bool :=
  c &&& f.fixedMask &&& 0x00FFFFFF#32 != 0#32

/-- The decoder, total on words: OP first, then the reserved bits (R96). -/
def decode (c : Word) : Except DecodeError Instr :=
  match opcodeMap c with
  | none => .error .illegalOp
  | some (f, i) => if reservedBitSet f c then .error .reservedBits else .ok i

/-- The little-endian word of four bytes, the lowest address first (R64). -/
def wordOfBytes (b0 b1 b2 b3 : Byte) : Word := b3 ++ b2 ++ b1 ++ b0

/-- What the decoder reads from an instruction whose bits are `w`, as spec/opcode_table.json numbers
them: one 32-bit word, bit 0 its least significant (R90, R98). Bits above `nbits` are 0. -/
def decodeTableWord (nbits w : Nat) : Option Instr :=
  match decode (BitVec.ofNat 32 (w % 2 ^ nbits)) with
  | .ok i => some i
  | .error _ => none

/-- OP of a command (R94). -/
def Instr.opcode : Instr → Nat
  | .nop => 0x00
  | .stftInit => 0x10
  | .stftAnalyze => 0x11
  | .stftMag => 0x12
  | .stftLogmag => 0x13
  | .stftMask _ => 0x14
  | .stftSynth => 0x15
  | .qClr => 0x20
  | .qMul _ => 0x21
  | .qMac _ => 0x22
  | .qAddsh _ => 0x23
  | .qSat _ => 0x24
  | .qShrsat _ _ => 0x25
  | .qAddsat _ => 0x26
  | .qInterp => 0x27
  | .qTanh => 0x28
  | .qSigmoid => 0x29
  | .qRelu => 0x2A
  | .fTanh => 0x30
  | .fSigmoid => 0x31
  | .fRelu => 0x32
  | .ppInit => 0x40
  | .ppRun => 0x41

/-- The format of a command (R94). -/
def Instr.format : Instr → Format
  | .stftMask _ => .E
  | .qMul _ => .S
  | .qMac _ => .S
  | .qAddsh _ => .S
  | .qSat _ => .W
  | .qShrsat _ _ => .SW
  | .qAddsat _ => .W
  | .nop => .N
  | .stftInit => .N
  | .stftAnalyze => .N
  | .stftMag => .N
  | .stftLogmag => .N
  | .stftSynth => .N
  | .qClr => .N
  | .qInterp => .N
  | .qTanh => .N
  | .qSigmoid => .N
  | .qRelu => .N
  | .fTanh => .N
  | .fSigmoid => .N
  | .fRelu => .N
  | .ppInit => .N
  | .ppRun => .N

/-- The operand bits of a command: `sh << 16 | (w - 1) << 8 | sel` (R99). -/
def Instr.operandBits : Instr → Nat
  | .stftMask .gainState => 0
  | .stftMask .gainIn => 1
  | .qMul sh => sh * 2 ^ 16
  | .qMac sh => sh * 2 ^ 16
  | .qAddsh sh => sh * 2 ^ 16
  | .qSat w => (w - 1) * 2 ^ 8
  | .qShrsat sh w => sh * 2 ^ 16 + (w - 1) * 2 ^ 8
  | .qAddsat w => (w - 1) * 2 ^ 8
  | .nop => 0
  | .stftInit => 0
  | .stftAnalyze => 0
  | .stftMag => 0
  | .stftLogmag => 0
  | .stftSynth => 0
  | .qClr => 0
  | .qInterp => 0
  | .qTanh => 0
  | .qSigmoid => 0
  | .qRelu => 0
  | .fTanh => 0
  | .fSigmoid => 0
  | .fRelu => 0
  | .ppInit => 0
  | .ppRun => 0

/-- The word of a command (R99): OP in bits 31..24, the operands in their fields. -/
def encode (i : Instr) : Word := BitVec.ofNat 32 (i.opcode * 2 ^ 24 + i.operandBits)

/-- The assembler spelling of a command (R99). -/
def Instr.asm : Instr → String
  | .nop => "nop"
  | .stftInit => "stft.init"
  | .stftAnalyze => "stft.analyze"
  | .stftMag => "stft.mag"
  | .stftLogmag => "stft.logmag"
  | .stftMask .gainState => "stft.mask 0"
  | .stftMask .gainIn => "stft.mask 1"
  | .stftSynth => "stft.synth"
  | .qClr => "q.clr"
  | .qMul sh => "q.mul " ++ toString sh
  | .qMac sh => "q.mac " ++ toString sh
  | .qAddsh sh => "q.addsh " ++ toString sh
  | .qSat w => "q.sat " ++ toString w
  | .qShrsat sh w => "q.shrsat " ++ toString sh ++ ", " ++ toString w
  | .qAddsat w => "q.addsat " ++ toString w
  | .qInterp => "q.interp"
  | .qTanh => "q.tanh"
  | .qSigmoid => "q.sigmoid"
  | .qRelu => "q.relu"
  | .fTanh => "f.tanh"
  | .fSigmoid => "f.sigmoid"
  | .fRelu => "f.relu"
  | .ppInit => "pp.init"
  | .ppRun => "pp.run"

end Sys2Proof
end

