-- ==== Sys2Proof/Machine/State.lean ====
section
/-! DEFINITION. The state of the block as plain data (10_state.md R20 to R46), the host's pending
transactions beside it, and the state after reset (70_reset_and_hazards.md R250 to R253). -/

namespace Sys2Proof.Machine

/-- Buffer contents as bytes at their bus addresses (20_memory.md R64, R66), one canonical form:
addresses strictly rising, no byte equal to 0, what an unlisted address reads as (R251). -/
abbrev Memory := List Host.Cell

/-- How much of a word a bus access transfers. Only `word` is admitted (R61, R65). -/
inductive AccessSize where
  | byte
  | half
  | word
  deriving DecidableEq, Repr

/-- What the outside does to the block: the host's bus transactions (R62, R63, R100), the platform's
reset (R250), and an access by a second bus master, which lies outside the spec (R60). -/
inductive Event where
  | read (addr : BitVec 16) (size : AccessSize)
  | write (addr : BitVec 16) (size : AccessSize) (v : Word)
  | reset
  | foreignAccess
  deriving DecidableEq, Repr

/-- The read/write buffers of R34 to R43. WIN (R38) is a constant of the configuration, not here. -/
inductive Buf where
  | inBuf
  | outBuf
  | anaBuf
  | synAcc
  | specRe
  | specIm
  | mag
  | logmag
  | gainIn
  | gainState
  deriving DecidableEq, Repr

/-- The state: every register of R25 to R33, the buffers of R34 to R43 in `mem`, and the model's own
three fields (log entries 1 and 2): the configuration, the host's transactions not yet served, and
the data its reads returned. ID, CFG_N, CFG_R, CFG_K and WIN are functions of the configuration. -/
structure State where
  /-- The build-time configuration (R6, R7): held here so that one machine covers every
  configuration; no step changes it. -/
  cfg : Config
  /-- STATUS.ERR (R25). -/
  err : Bool
  /-- STATUS.ERRCODE (R25, R231). -/
  errCode : BitVec 3
  /-- ERRINFO (R26). -/
  errInfo : Word
  /-- OPA, OPB, OPC (R27). -/
  opa : Word
  opb : Word
  opc : Word
  /-- ACC, the 64-bit accumulator (R28). -/
  acc : BitVec 64
  /-- F_OPA and F_RES (R29). -/
  fOpa : Word
  fRes : Word
  /-- LM_SCALE (R31). -/
  lmScale : Word
  /-- PP_CTRL.SB_EN (R32). -/
  sbEn : Bool
  /-- The post-processor tunables (R33). -/
  ppAlphaReverb : Word
  ppAlphaLowLevel : Word
  ppMinGain : Word
  ppGainBoost : Word
  ppSbFactor : Word
  ppSbStart : Word
  ppSbEnd : Word
  /-- The ten read/write buffers (R34 to R37, R39 to R43), byte by byte at their bus addresses. -/
  mem : Memory
  /-- The model's own: transactions the host has issued and the block has not served, oldest first
  (R21, R100). -/
  pending : List Event
  /-- The model's own: the data the host's reads returned, newest first (the host variables of R100). -/
  hostData : List Word
  deriving DecidableEq, Repr

/-- Nothing in the spec stops the block: a rejected command or access is recorded in STATUS and
ERRINFO and the block goes on (60_exceptions.md R230, R235, R238). So there is no fault. -/
inductive Fault : Type
  deriving DecidableEq, Repr

/-- Why a step has no meaning. -/
inductive Refusal where
  /-- Raised only by an arm of `exec` whose command has no meaning yet (safe); no arm raises it now. -/
  | notModelled (mnemonic : String)
  /-- Raised by the step that meets a second bus master's access (safe): "a platform with two masters
  on one block is outside this spec (a model must refuse it, not interleave it)" (R60, I7). -/
  | secondMaster
  deriving DecidableEq, Repr

/-- The state right after reset of a block built for the configuration `c` (R251), with no
transaction pending and nothing read. -/
def State.resetWith (c : Config) : State where
  cfg := c
  err := false
  errCode := 0#3
  errInfo := 0#32
  opa := 0#32
  opb := 0#32
  opc := 0#32
  acc := 0#64
  fOpa := 0#32
  fRes := 0#32
  lmScale := 0x3F800000#32
  sbEn := false
  ppAlphaReverb := 0#32
  ppAlphaLowLevel := 0#32
  ppMinGain := 0#32
  ppGainBoost := 0x3F800000#32
  ppSbFactor := 0x3F800000#32
  ppSbStart := 0#32
  ppSbEnd := 0#32
  mem := []
  pending := []
  hostData := []

/-- The state right after reset, in the default configuration of R7. -/
def State.reset : State := State.resetWith Config.default

end Sys2Proof.Machine
end

