-- ==== Sys2Proof/Machine/Flags.lean ====
section
/-! DEFINITION. The only flag bits the block has (10_state.md R30): STATUS.ERR and its cause ERRCODE
(R25), and the enable bit of PP_CTRL (R32). No arithmetic result sets any of them. -/

namespace Sys2Proof.Machine.State

/-- STATUS as a word (R25): ERR in bit 0, ERRCODE in bits 3..1, the rest 0. -/
def statusWord (s : State) : Word :=
  BitVec.ofNat 32 (s.errCode.toNat * 2 + if s.err then 1 else 0)

/-- A host write to STATUS (R25): bit 0 set clears ERR, ERRCODE and ERRINFO; every other bit is
ignored. -/
def writeStatus (s : State) (v : Word) : State :=
  if v.getLsbD 0 then { s with err := false, errCode := 0#3, errInfo := 0#32 } else s

/-- PP_CTRL as a word (R32): SB_EN in bit 0, the rest 0. -/
def ppCtrlWord (s : State) : Word := if s.sbEn then 1#32 else 0#32

/-- A host write to PP_CTRL (R32): bit 0 is stored, every other bit is ignored. -/
def writePpCtrl (s : State) (v : Word) : State := { s with sbEn := v.getLsbD 0 }

end Sys2Proof.Machine.State
end

