-- ==== Sys2Proof/Machine/Integer.lean ====
section
/-! DEFINITION. The integer primitives of 00_scope.md R10 and R11, on exact integers. -/

namespace Sys2Proof.Machine

/-- `a >>a s`, the arithmetic right shift: `floor(a / 2^s)` (R10). -/
def asr (a : Int) (s : Nat) : Int := a / 2 ^ s

/-- `sat(v, w)`: the clamp to the signed range of `w` bits, `1 ≤ w ≤ 64` (R11). -/
def sat (v : Int) (w : Nat) : Int := min (max v (-2 ^ (w - 1))) (2 ^ (w - 1) - 1)

/-- The int64 congruent to `v` modulo 2^64: `wrap_64` (R10), and the narrowing of a result that fits. -/
def int64 (v : Int) : BitVec 64 := BitVec.ofInt 64 v

end Sys2Proof.Machine
end

