-- ==== Sys2Proof/Machine/Ops.lean ====
section
/-! DEFINITION. The shared operations: reading and writing buffer memory, and recording an error, the
only exception the block has (60_exceptions.md R230, R238). -/

namespace Sys2Proof.Machine

namespace Memory

/-- The canonical form: addresses strictly rising, no byte equal to 0, what an unlisted address reads
as (R251: every buffer resets to +0.0). -/
abbrev wf (m : Memory) : Prop := m.Pairwise (fun a b => a.1 < b.1) ∧ ∀ c ∈ m, c.2 ≠ 0#8

/-- One byte; an unlisted address reads as 0 (R251). -/
def readByte : Memory → Nat → Byte
  | [], _ => 0#8
  | (a, b) :: m, x => if x = a then b else readByte m x

/-- The little-endian word at `addr` (R64). -/
def readWord (m : Memory) (addr : Nat) : Word :=
  wordOfBytes (readByte m addr) (readByte m (addr + 1)) (readByte m (addr + 2)) (readByte m (addr + 3))

/-- The bytes of a word, the lowest address first (R64). -/
def bytesOfWord (w : Word) : List Byte :=
  [w.extractLsb' 0 8, w.extractLsb' 8 8, w.extractLsb' 16 8, w.extractLsb' 24 8]

/-- The cells of consecutive bytes from `addr`, a 0 byte unlisted. -/
def cells : Nat → List Byte → Memory
  | _, [] => []
  | addr, b :: bs => if b = 0#8 then cells (addr + 1) bs else (addr, b) :: cells (addr + 1) bs

/-- Consecutive words written from `addr` on, in the canonical form. -/
def writeWords (m : Memory) (addr : Nat) (ws : List Word) : Memory :=
  m.filter (fun c => decide (c.1 < addr)) ++ cells addr (ws.flatMap bytesOfWord) ++
    m.filter (fun c => decide (addr + 4 * ws.length ≤ c.1))

end Memory

namespace State

/-- `raise CmdError(code, info)`, for every rejected command and access (R238): the first error since
ERR was last cleared is kept, a later one is dropped (R237), and nothing else changes (R235). -/
def raiseCmdError (s : State) (code : BitVec 3) (info : Word) : State :=
  if s.err then s else { s with err := true, errCode := code, errInfo := info }

/-- ERRCODE 1, ILLEGAL_OP (R95, R231). -/
def illegalOp (s : State) (c : Word) : State := s.raiseCmdError 1#3 c

/-- ERRCODE 2, RESERVED_BITS (R93, R231). -/
def reservedBits (s : State) (c : Word) : State := s.raiseCmdError 2#3 c

/-- ERRCODE 3, BAD_ACCESS: ERRINFO is the byte address, zero-extended (R65, R231). -/
def badAccess (s : State) (addr : BitVec 16) : State := s.raiseCmdError 3#3 (addr.zeroExtend 32)

/-- The reset event (R250, R251): every register and buffer takes its reset value, whatever it held.
The configuration does not change (R253); the host's own transactions and data are not the block's. -/
def resetBlock (s : State) : State :=
  { State.resetWith s.cfg with pending := s.pending, hostData := s.hostData }

end State

end Sys2Proof.Machine
end

