-- ==== Sys2Proof/Machine/Operands.lean ====
section
/-! DEFINITION. The operands of the commands: buffers and their elements (20_memory.md R66, R67), the
integer operands of the kernels (41_q15_kernels.md R150), the gain source of STFT_MASK (40_stft.md
R127) and the speech-band test (43_gain_postproc.md R204). -/

namespace Sys2Proof.Machine

/-- The base address of a buffer's window (R66). -/
def Buf.base : Buf → Nat
  | .inBuf => 0x1000
  | .outBuf => 0x2000
  | .anaBuf => 0x3000
  | .synAcc => 0x4000
  | .specRe => 0x6000
  | .specIm => 0x7000
  | .mag => 0x8000
  | .logmag => 0x9000
  | .gainIn => 0xA000
  | .gainState => 0xB000

/-- The number of elements of a buffer (R8, R34 to R43). -/
def Buf.len (c : Config) : Buf → Nat
  | .inBuf => c.r
  | .outBuf => c.r
  | .anaBuf => c.n
  | .synAcc => c.n
  | .specRe => c.k
  | .specIm => c.k
  | .mag => c.k
  | .logmag => c.k
  | .gainIn => c.k
  | .gainState => c.k

/-- Every buffer. -/
def Buf.all : List Buf :=
  [.inBuf, .outBuf, .anaBuf, .synAcc, .specRe, .specIm, .mag, .logmag, .gainIn, .gainState]

/-- The byte address of element `i` (R67). -/
def Buf.addr (b : Buf) (i : Nat) : Nat := b.base + 4 * i

namespace State

/-- `BUF[i]` (R16). -/
def elem (s : State) (b : Buf) (i : Nat) : Word := Memory.readWord s.mem (b.addr i)

/-- `for i in 0..len−1: BUF[i] <- f(i)` (R16). -/
def fillBuf (s : State) (b : Buf) (f : Nat → Word) : State :=
  { s with mem := Memory.writeWords s.mem b.base ((List.range (b.len s.cfg)).map f) }

/-- `BUF[i] <- v` (R16). -/
def setElem (s : State) (b : Buf) (i : Nat) (v : Word) : State :=
  { s with mem := Memory.writeWords s.mem (b.addr i) [v] }

/-- One byte of buffer memory. -/
def readByte (s : State) (addr : Nat) : Byte := Memory.readByte s.mem addr

/-- OPA as int32, sign-extended (R27, R150). -/
def opaInt (s : State) : Int := s.opa.toInt
/-- OPB as int32, sign-extended. -/
def opbInt (s : State) : Int := s.opb.toInt
/-- OPC as int32, sign-extended. -/
def opcInt (s : State) : Int := s.opc.toInt
/-- ACC as int64. -/
def accInt (s : State) : Int := s.acc.toInt

/-- `ACC <- v`, narrowed to 64 bits (R28, R150). -/
def setAcc (s : State) (v : Int) : State := { s with acc := int64 v }

/-- `F_RES <- v` (R29, R180). -/
def setFRes (s : State) (v : Word) : State := { s with fRes := v }

/-- The spectrum held in SPEC_RE and SPEC_IM (R39, R110). -/
def spectrum (s : State) (k : Nat) : Word × Word := (s.elem .specRe k, s.elem .specIm k)

/-- The gain of bin `k` that STFT_MASK applies (R127). -/
def maskGain (s : State) (sel : MaskSource) (k : Nat) : Word :=
  match sel with
  | .gainState => s.elem .gainState k
  | .gainIn => s.elem .gainIn k

/-- `InBand(k)` (R204): the bounds are inclusive and compared as unsigned integers. -/
def inBand (s : State) (k : Nat) : Bool :=
  match s.cfg.sbRangeMode with
  | .explicitRange => decide (s.ppSbStart.toNat ≤ k) && decide (k ≤ s.ppSbEnd.toNat)
  | .allBins => true

end State

end Sys2Proof.Machine
end

