-- ==== Sys2Proof/Machine/Binary32.lean ====
section
/-! DEFINITION. IEEE 754 binary32 on bit patterns (00_scope.md R13, R14; 43_gain_postproc.md R205):
operands are turned into exact integers, the result is computed exactly and rounded once, to nearest,
ties to even, with subnormals kept.

The unit of every magnitude is 2^-149, the smallest subnormal, of which every finite binary32 value is
an integer multiple. -/

namespace Sys2Proof.Machine.F32

/-- The canonical NaN (R14). -/
def qNaN : Word := 0x7FC00000#32
def posZero : Word := 0x00000000#32
def negZero : Word := 0x80000000#32
def half : Word := 0x3F000000#32
def one : Word := 0x3F800000#32
def two : Word := 0x40000000#32
def negInf : Word := 0xFF800000#32

/-- The pattern of +Inf as a number, and the least pattern above every finite magnitude. -/
def infBits : Nat := 0x7F800000

/-- The sign bit, bit 31. -/
def sign (a : Word) : Bool := decide (2 ^ 31 ≤ a.toNat)

/-- Bits 30..0. -/
def magBits (a : Word) : Nat := a.toNat % 2 ^ 31

def isNaN (a : Word) : Bool := decide (infBits < magBits a)
def isInf (a : Word) : Bool := decide (magBits a = infBits)
def isZero (a : Word) : Bool := decide (magBits a = 0)

/-- The magnitude in units of 2^-149: the fraction of a subnormal, the significand shifted by the
exponent otherwise. On an infinity it is the first magnitude beyond the finite ones. -/
def units (a : Word) : Nat :=
  let e := magBits a / 2 ^ 23
  let f := magBits a % 2 ^ 23
  if e = 0 then f else (2 ^ 23 + f) * 2 ^ (e - 1)

/-- The signed value in units of 2^-149. -/
def value (a : Word) : Int := if sign a then -(units a : Int) else (units a : Int)

/-- A pattern from a sign and bits 30..0. -/
def pack (neg : Bool) (m : Nat) : Word := BitVec.ofNat 32 (if neg then 2 ^ 31 + m else m)

/-- Sign bit flipped. -/
def neg (a : Word) : Word := a ^^^ 0x80000000#32

/-- Sign bit cleared. -/
def abs (a : Word) : Word := a &&& 0x7FFFFFFF#32

/-- `n / d` to the nearest integer, ties to even. -/
def divNearest (n d : Nat) : Nat :=
  let q := n / d
  let r := n % d
  if 2 * r < d then q else if d < 2 * r then q + 1 else if q % 2 = 0 then q else q + 1

/-- RN32 of the non-negative rational `n/d`, in units of 2^-149: bits 30..0 of the nearest binary32
value, ties to even, +Inf where it rounds beyond the finite ones. The spacing is `2^s` units where
`2^(23+s)` is the binade of the quotient; the pattern of `m · 2^s` is `s · 2^23 + m`, a significand
`m` that rounds up to 2^24 included. -/
def roundMag (n d : Nat) : Nat :=
  let s := Nat.log2 (n / d) - 23
  min (s * 2 ^ 23 + divNearest n (d * 2 ^ s)) infBits

/-- RN32 of a signed number of units that is not zero. -/
def roundInt (v : Int) : Word := pack (decide (v < 0)) (roundMag v.natAbs 1)

/-- `⊕`. A sum that is exactly zero is −0.0 only when both operands are. -/
def add (a b : Word) : Word :=
  if isNaN a || isNaN b then qNaN
  else if isInf a then (if isInf b && (sign a != sign b) then qNaN else a)
  else if isInf b then b
  else if value a + value b = 0 then (if sign a && sign b then negZero else posZero)
  else roundInt (value a + value b)

/-- `⊖`. -/
def sub (a b : Word) : Word := add a (neg b)

/-- `⊗`. The exact product has the unit 2^-298. -/
def mul (a b : Word) : Word :=
  if isNaN a || isNaN b then qNaN
  else if isInf a || isInf b then
    (if isZero a || isZero b then qNaN else pack (sign a != sign b) infBits)
  else pack (sign a != sign b) (roundMag (units a * units b) (2 ^ 149))

/-- `⊘`. No command divides (60_exceptions.md R234); R111's INVN is a quotient of constants. -/
def div (a b : Word) : Word :=
  if isNaN a || isNaN b then qNaN
  else if isInf a then (if isInf b then qNaN else pack (sign a != sign b) infBits)
  else if isInf b then pack (sign a != sign b) 0
  else if isZero b then (if isZero a then qNaN else pack (sign a != sign b) infBits)
  else pack (sign a != sign b) (roundMag (units a * 2 ^ 149) (units b))

/-- The IEEE comparison `a < b`: false on a NaN, and the two zeros are equal. -/
def lt (a b : Word) : Bool := !isNaN a && !isNaN b && decide (value a < value b)

/-- `fmax(a, b) = (b > a) ? b : a` (R205). -/
def fmax (a b : Word) : Word := if lt a b then b else a

/-- `fmin(a, b) = (b < a) ? b : a` (R205). -/
def fmin (a b : Word) : Word := if lt b a then b else a

/-- The binary32 value nearest a natural number. -/
def ofNat (n : Nat) : Word := pack false (roundMag (n * 2 ^ 149) 1)

/-- `floor` of a non-negative finite value. -/
def floorNat (a : Word) : Nat := units a / 2 ^ 149

end Sys2Proof.Machine.F32
end

