-- ==== Sys2Proof/Laws/Binary32.lean ====
section
/-! SUPPORT. Patterns and magnitudes of binary32: taking a pattern apart and packing it again, the order
of magnitudes, and that rounding stays in range and fixes what is representable. -/

namespace Sys2Proof.Machine.F32

theorem magBits_lt (a : Word) : magBits a < 2 ^ 31 := Nat.mod_lt _ (by decide)

theorem toNat_eq (a : Word) : a.toNat = (if sign a then 2 ^ 31 else 0) + magBits a := by
  have := a.isLt
  simp only [sign, magBits, decide_eq_true_eq]
  split <;> omega

theorem sign_pack (n : Bool) {m : Nat} (h : m < 2 ^ 31) : sign (pack n m) = n := by
  cases n
  · simp [sign, pack]; omega
  · simp [sign, pack]; omega

theorem magBits_pack (n : Bool) {m : Nat} (h : m < 2 ^ 31) : magBits (pack n m) = m := by
  cases n
  · simp [magBits, pack]; omega
  · simp [magBits, pack]; omega

theorem pack_sign_magBits (a : Word) : pack (sign a) (magBits a) = a := by
  apply BitVec.eq_of_toNat_eq
  have h := toNat_eq a
  have hl := a.isLt
  simp only [pack, BitVec.toNat_ofNat]
  split <;> simp_all

theorem roundMag_le (n d : Nat) : roundMag n d ≤ infBits := Nat.min_le_right _ _

theorem infBits_lt : infBits < 2 ^ 31 := by decide

theorem roundMag_lt (n d : Nat) : roundMag n d < 2 ^ 31 :=
  Nat.lt_of_le_of_lt (roundMag_le n d) infBits_lt

@[simp] theorem sign_pack_roundMag (s : Bool) (n d : Nat) : sign (pack s (roundMag n d)) = s :=
  sign_pack s (roundMag_lt n d)

@[simp] theorem magBits_pack_roundMag (s : Bool) (n d : Nat) :
    magBits (pack s (roundMag n d)) = roundMag n d := magBits_pack s (roundMag_lt n d)

/-- A rounded result is no NaN. -/
@[simp] theorem isNaN_pack_roundMag (s : Bool) (n d : Nat) : isNaN (pack s (roundMag n d)) = false := by
  simp [isNaN, roundMag_le]

theorem sign_neg (a : Word) : sign (neg a) = !sign a := by
  have e : ∀ x : Word, sign x = x.msb := fun x => by
    rw [sign, BitVec.msb_eq_decide]
  rw [e, e, neg, BitVec.msb_xor, show (0x80000000#32 : Word).msb = true by decide, Bool.xor_true]

theorem magBits_eq_and (a : Word) : magBits a = (a &&& 0x7FFFFFFF#32).toNat := by
  rw [magBits, BitVec.toNat_and]
  exact (Nat.and_two_pow_sub_one_eq_mod a.toNat 31).symm

theorem magBits_neg (a : Word) : magBits (neg a) = magBits a := by
  rw [magBits_eq_and, magBits_eq_and, neg]
  congr 1
  apply BitVec.eq_of_getLsbD_eq
  intro i hi
  by_cases h : i = 31
  · subst h; simp
  · have : ∀ j < 32, j ≠ 31 → (0x80000000#32 : Word).getLsbD j = false := by decide
    simp [this i hi h]

@[simp] theorem isNaN_neg (a : Word) : isNaN (neg a) = isNaN a := by simp [isNaN, magBits_neg]
@[simp] theorem isInf_neg (a : Word) : isInf (neg a) = isInf a := by simp [isInf, magBits_neg]
@[simp] theorem isZero_neg (a : Word) : isZero (neg a) = isZero a := by simp [isZero, magBits_neg]
@[simp] theorem units_neg (a : Word) : units (neg a) = units a := by simp [units, magBits_neg]

theorem value_neg (a : Word) : value (neg a) = -value a := by
  simp only [value, sign_neg, units_neg]
  cases sign a <;> simp

/-- `units` on a normal pattern, as a power of two times a significand. -/
theorem units_normal {a : Word} (h : 2 ^ 23 ≤ magBits a) :
    units a = (2 ^ 23 + magBits a % 2 ^ 23) * 2 ^ (magBits a / 2 ^ 23 - 1) := by
  have : magBits a / 2 ^ 23 ≠ 0 := by
    have := Nat.div_pos h (by decide); omega
  simp only [units, if_neg this]

theorem units_subnormal {a : Word} (h : magBits a < 2 ^ 23) : units a = magBits a := by
  have h1 : magBits a / 2 ^ 23 = 0 := Nat.div_eq_of_lt h
  have h2 : magBits a % 2 ^ 23 = magBits a := Nat.mod_eq_of_lt h
  simp only [units, h1, h2, if_true]

/-- A normal magnitude with exponent step `e` lies in `[2^(23+e), 2^(24+e))`. -/
theorem units_bounds {a : Word} (h : 2 ^ 23 ≤ magBits a) :
    2 ^ 23 * 2 ^ (magBits a / 2 ^ 23 - 1) ≤ units a ∧
      units a < 2 ^ 24 * 2 ^ (magBits a / 2 ^ 23 - 1) := by
  rw [units_normal h]
  have h2 : 0 < 2 ^ (magBits a / 2 ^ 23 - 1) := by positivity
  constructor
  · exact Nat.mul_le_mul_right _ (by omega)
  · exact Nat.mul_lt_mul_of_pos_right (by omega) h2

/-- The order of patterns without their signs is the order of magnitudes. -/
theorem units_lt_units {a b : Word} (h : magBits a < magBits b) : units a < units b := by
  by_cases hb : magBits b < 2 ^ 23
  · rw [units_subnormal hb, units_subnormal (by omega)]; exact h
  · have hb' : 2 ^ 23 ≤ magBits b := by omega
    obtain ⟨lb, -⟩ := units_bounds hb'
    by_cases ha : magBits a < 2 ^ 23
    · rw [units_subnormal ha]
      calc magBits a < 2 ^ 23 * 1 := by omega
        _ ≤ 2 ^ 23 * 2 ^ (magBits b / 2 ^ 23 - 1) := Nat.mul_le_mul_left _ (Nat.one_le_two_pow)
        _ ≤ units b := lb
    · have ha' : 2 ^ 23 ≤ magBits a := by omega
      rcases Nat.lt_or_ge (magBits a / 2 ^ 23) (magBits b / 2 ^ 23) with he | he
      · obtain ⟨-, ua⟩ := units_bounds ha'
        have h1 : 0 < magBits a / 2 ^ 23 := Nat.div_pos ha' (by decide)
        calc units a < 2 ^ 24 * 2 ^ (magBits a / 2 ^ 23 - 1) := ua
          _ = 2 ^ 23 * 2 ^ (magBits a / 2 ^ 23 - 1 + 1) := by rw [pow_succ]; ring
          _ ≤ 2 ^ 23 * 2 ^ (magBits b / 2 ^ 23 - 1) :=
            Nat.mul_le_mul_left _ (Nat.pow_le_pow_right (by decide) (by omega))
          _ ≤ units b := lb
      · have ee : magBits a / 2 ^ 23 = magBits b / 2 ^ 23 := by
          have := Nat.div_le_div_right (c := 2 ^ 23) h.le
          omega
        rw [units_normal ha', units_normal hb', ee]
        have h2 : 0 < 2 ^ (magBits b / 2 ^ 23 - 1) := by positivity
        exact Nat.mul_lt_mul_of_pos_right (by omega) h2

theorem units_le_units {a b : Word} (h : magBits a ≤ magBits b) : units a ≤ units b := by
  rcases Nat.eq_or_lt_of_le h with h | h
  · simp [units, h]
  · exact (units_lt_units h).le

/-- `divNearest` is within half a unit, and even on a tie. -/
theorem divNearest_spec (n : Nat) {d : Nat} (hd : 0 < d) :
    2 * n ≤ (2 * divNearest n d + 1) * d ∧ 2 * divNearest n d * d ≤ 2 * n + d ∧
      (2 * n = (2 * divNearest n d + 1) * d ∨ 2 * divNearest n d * d = 2 * n + d →
        divNearest n d % 2 = 0) := by
  have hn : d * (n / d) + n % d = n := Nat.div_add_mod n d
  have hr : n % d < d := Nat.mod_lt n hd
  generalize hq : n / d = q at hn
  generalize hm : n % d = r at hn hr
  have e1 : (2 * q + 1) * d = 2 * (d * q) + d := by ring
  have e2 : 2 * q * d = 2 * (d * q) := by ring
  have e3 : (2 * (q + 1) + 1) * d = 2 * (d * q) + 3 * d := by ring
  have e4 : 2 * (q + 1) * d = 2 * (d * q) + 2 * d := by ring
  simp only [divNearest, hq, hm]
  split
  · rw [e1, e2]; omega
  · split
    · rw [e3, e4]; omega
    · split
      · rw [e1, e2]; omega
      · rw [e3, e4]; omega

theorem divNearest_mul (m : Nat) {d : Nat} (hd : 0 < d) : divNearest (m * d) d = m := by
  simp [divNearest, Nat.mul_div_cancel _ hd, hd]

/-- Rounding leaves a representable magnitude alone. -/
theorem roundMag_units {a : Word} (h : magBits a ≤ infBits) : roundMag (units a) 1 = magBits a := by
  by_cases hs : magBits a < 2 ^ 23
  · have hl : Nat.log2 (magBits a) - 23 = 0 := by
      have : Nat.log2 (magBits a) < 24 := by
        rcases Nat.eq_zero_or_pos (magBits a) with h0 | h0
        · rw [h0]; decide
        · exact (Nat.log2_lt (by omega)).2 (by omega)
      omega
    have hd : divNearest (magBits a) 1 = magBits a := by
      simpa using divNearest_mul (magBits a) (d := 1) (by decide)
    rw [units_subnormal hs, roundMag]
    simp only [Nat.div_one, hl, pow_zero, Nat.zero_mul, Nat.zero_add, Nat.mul_one, hd]
    exact Nat.min_eq_left h
  · have hs' : 2 ^ 23 ≤ magBits a := by omega
    obtain ⟨lo, hi⟩ := units_bounds hs'
    have hlog : Nat.log2 (units a) = 23 + (magBits a / 2 ^ 23 - 1) := by
      have hne : units a ≠ 0 := by
        have : 0 < 2 ^ 23 * 2 ^ (magBits a / 2 ^ 23 - 1) := by positivity
        omega
      rw [Nat.log2_eq_iff hne]
      rw [← pow_add] at lo hi
      exact ⟨lo, by rw [show 23 + (magBits a / 2 ^ 23 - 1) + 1 = 24 + (magBits a / 2 ^ 23 - 1) by omega]; exact hi⟩
    rw [roundMag]
    simp only [Nat.div_one, hlog, Nat.add_sub_cancel_left, Nat.one_mul]
    have h2 : 0 < 2 ^ (magBits a / 2 ^ 23 - 1) := by positivity
    have h1 : 0 < magBits a / 2 ^ 23 := Nat.div_pos hs' (by decide)
    rw [units_normal hs', divNearest_mul _ h2]
    have := Nat.div_add_mod (magBits a) (2 ^ 23)
    rw [Nat.min_eq_left (by omega)]
    omega

end Sys2Proof.Machine.F32
end

