-- ==== Sys2Proof/Laws/Irrational.lean ====
section
/-! SUPPORT. The sine and the cosine of a rational number other than 0 are irrational. So the sine of a
binary32 operand never lies on a rounding boundary, and the search that rounds it ends. -/

namespace Sys2Proof.Laws

open Polynomial

/-- `(ir)^k + (−ir)^k`, for `r = a/b` and times `b^m`, is an integer when `k ≤ m`. -/
theorem pow_add_neg_pow_integral (a : ℤ) (b : ℕ) (hb : b ≠ 0) {k m : ℕ} (hk : k ≤ m) :
    ∃ z : ℤ, ((Complex.I * (a / b)) ^ k + (-(Complex.I * (a / b))) ^ k) * (b : ℂ) ^ m = z := by
  have hb' : (b : ℂ) ≠ 0 := by exact_mod_cast hb
  rcases Nat.even_or_odd' k with ⟨j, rfl | rfl⟩
  · refine ⟨2 * (-1) ^ j * a ^ (2 * j) * b ^ (m - 2 * j), ?_⟩
    have e : (b : ℂ) ^ m = b ^ (2 * j) * b ^ (m - 2 * j) := by rw [← pow_add]; congr 1; omega
    rw [neg_pow _ (2 * j), pow_mul (-1 : ℂ), neg_one_sq, one_pow, one_mul, mul_pow, pow_mul Complex.I,
      Complex.I_sq, div_pow, e]
    push_cast
    field_simp
    ring
  · refine ⟨0, ?_⟩
    rw [neg_pow _ (2 * j + 1), pow_succ (-1 : ℂ), pow_mul (-1 : ℂ), neg_one_sq, one_pow]
    push_cast
    ring

/-- The cosine of a rational number other than 0 is irrational. -/
theorem irrational_cos {r : ℚ} (hr : r ≠ 0) : Irrational (Real.cos r) := by
  rintro ⟨q, hq⟩
  obtain ⟨a, b, hb, hab⟩ : ∃ (a : ℤ) (b : ℕ), b ≠ 0 ∧ r = a / b := ⟨r.num, r.den, r.den_nz, r.num_div_den.symm⟩
  obtain ⟨u, v, hv, huv⟩ : ∃ (u : ℤ) (v : ℕ), v ≠ 0 ∧ q = u / v := ⟨q.num, q.den, q.den_nz, q.num_div_den.symm⟩
  have ha : a ≠ 0 := by rintro rfl; simp at hab; exact hr hab
  have hbC : (b : ℂ) ≠ 0 := by exact_mod_cast hb
  have hvC : (v : ℂ) ≠ 0 := by exact_mod_cast hv
  set f : ℤ[X] := C ((b : ℤ) ^ 2) * X ^ 2 + C (a ^ 2) with hf
  have hf0 : f.eval 0 ≠ 0 := by simp [hf, ha]
  have hfd : f.natDegree ≤ 2 := by rw [hf]; compute_degree
  have hfne : f ≠ 0 := fun h => hf0 (by simp [h])
  have hroot : ∀ s : ℂ, s ^ 2 = -(a / b) ^ 2 → s ∈ f.aroots ℂ := by
    intro s hs
    rw [mem_aroots]
    refine ⟨hfne, ?_⟩
    simp only [hf, map_add, map_mul, aeval_C, map_pow, aeval_X, hs]
    simp
    field_simp
    ring
  obtain ⟨c, hc⟩ := LindemannWeierstrass.exp_polynomial_approx f hf0
  -- a prime beyond everything, at which the error is small
  have hlim : Filter.Tendsto (fun p : ℕ => 2 * v * (b ^ 2 * |c|) * ((b ^ 2 * |c|) ^ (p - 1) / (p - 1).factorial : ℝ))
      Filter.atTop (nhds (2 * v * (b ^ 2 * |c|) * 0)) :=
    ((FloorSemiring.tendsto_pow_div_factorial_atTop _).comp (Filter.tendsto_sub_atTop_nat 1)).const_mul _
  rw [mul_zero] at hlim
  obtain ⟨N, hN⟩ := Filter.eventually_atTop.mp (hlim.eventually_lt_const one_pos)
  obtain ⟨p, hpN, hp⟩ := Nat.exists_infinite_primes (N + (f.eval 0).natAbs + 2 + u.natAbs + b + 1)
  obtain ⟨n, hpn, g, hgd, hg⟩ := hc p (by omega) hp
  have hgd' : g.natDegree ≤ 2 * p := hgd.trans (by
    have := Nat.mul_le_mul_left p hfd
    omega)
  set s : ℂ := Complex.I * (a / b) with hs
  have hs2 : s ^ 2 = -(a / b) ^ 2 := by rw [hs, mul_pow, Complex.I_sq]; ring
  have h1 := hg (hroot s hs2)
  have h2 := hg (hroot (-s) (by rw [neg_sq, hs2]))
  -- twice the cosine
  have hcos : Complex.exp s + Complex.exp (-s) = 2 * (u / v) := by
    have : (Real.cos r : ℂ) = u / v := by rw [← hq, huv]; push_cast; rfl
    rw [← this, Complex.ofReal_cos, Complex.cos, hs, hab]
    push_cast
    ring_nf
  -- the even part of `g`
  obtain ⟨z, hz⟩ : ∃ z : ℤ, (aeval s g + aeval (-s) g) * (b : ℂ) ^ (2 * p) = z := by
    choose w hw using fun (k : Finset.range (2 * p + 1)) =>
      pow_add_neg_pow_integral a b hb (Nat.lt_succ_iff.mp (Finset.mem_range.mp k.2))
    refine ⟨∑ k : Finset.range (2 * p + 1), g.coeff k * w k, ?_⟩
    rw [aeval_eq_sum_range' (Nat.lt_succ_of_le hgd'), aeval_eq_sum_range' (Nat.lt_succ_of_le hgd'),
      ← Finset.sum_add_distrib, Finset.sum_mul, Int.cast_sum, ← Finset.sum_coe_sort (Finset.range (2 * p + 1))]
    refine Finset.sum_congr rfl fun k _ => ?_
    rw [Int.cast_mul, ← hw k, zsmul_eq_mul, zsmul_eq_mul]
    ring
  have hsmall : ‖(((2 * n * u * b ^ (2 * p) - p * v * z : ℤ)) : ℂ)‖ < 1 := by
    have e : (((2 * n * u * b ^ (2 * p) - p * v * z : ℤ)) : ℂ) =
        v * b ^ (2 * p) * ((n • Complex.exp s - p • aeval s g) + (n • Complex.exp (-s) - p • aeval (-s) g)) := by
      have : (n • Complex.exp s - p • aeval s g) + (n • Complex.exp (-s) - p • aeval (-s) g) =
          n * (Complex.exp s + Complex.exp (-s)) - p * (aeval s g + aeval (-s) g) := by
        simp only [zsmul_eq_mul, nsmul_eq_mul]; ring
      rw [this, hcos]
      push_cast
      rw [← hz]
      field_simp
    rw [e, norm_mul, norm_mul, norm_pow, Complex.norm_natCast, Complex.norm_natCast]
    have hb0 : (0 : ℝ) < v * b ^ (2 * p) := by positivity
    have hE : c ^ p / ((p - 1).factorial : ℝ) ≤ |c| ^ p / (p - 1).factorial :=
      div_le_div_of_nonneg_right (by rw [← abs_pow]; exact le_abs_self _) (by positivity)
    calc _ ≤ v * b ^ (2 * p) * (c ^ p / (p - 1).factorial + c ^ p / (p - 1).factorial) := by
          gcongr
          exact (norm_add_le _ _).trans (add_le_add h1 h2)
      _ ≤ v * b ^ (2 * p) * (|c| ^ p / (p - 1).factorial + |c| ^ p / (p - 1).factorial) := by gcongr
      _ = 2 * v * (b ^ 2 * |c|) * ((b ^ 2 * |c|) ^ (p - 1) / (p - 1).factorial) := by
          have hp1 : p = (p - 1) + 1 := by omega
          have : (b : ℝ) ^ (2 * p) * |c| ^ p = (b ^ 2 * |c|) * (b ^ 2 * |c|) ^ (p - 1) := by
            rw [← pow_succ', ← hp1, mul_pow, pow_mul]
          linear_combination (2 * v / (p - 1).factorial : ℝ) * this
      _ < 1 := hN p (by omega)
  have hzero : 2 * n * u * (b : ℤ) ^ (2 * p) - p * v * z = 0 := by
    rw [Complex.norm_intCast] at hsmall
    have : |(2 * n * u * (b : ℤ) ^ (2 * p) - p * v * z : ℤ)| < 1 := by exact_mod_cast hsmall
    exact Int.abs_lt_one_iff.mp this
  have hpi : Prime (p : ℤ) := Nat.prime_iff_prime_int.mp hp
  have hdvd : (p : ℤ) ∣ 2 * n * u * (b : ℤ) ^ (2 * p) := ⟨v * z, by linarith⟩
  have hpu : (p : ℤ) ∣ u := by
    rcases hpi.dvd_or_dvd hdvd with h | h
    · rcases hpi.dvd_or_dvd h with h | h
      · rcases hpi.dvd_or_dvd h with h | h
        · exact absurd (Int.le_of_dvd two_pos h) (by omega)
        · exact absurd h hpn
      · exact h
    · exact absurd (Nat.le_of_dvd (Nat.pos_of_ne_zero hb) (by exact_mod_cast hpi.dvd_of_dvd_pow h)) (by omega)
  have hu : u = 0 := Int.eq_zero_of_abs_lt_dvd hpu (by
    rw [Int.abs_eq_natAbs]
    omega)
  -- a zero of the cosine is no rational number
  have h0 : Real.cos r = 0 := by rw [← hq, huv, hu]; simp
  obtain ⟨k, hk⟩ := Real.cos_eq_zero_iff.mp h0
  have hk2 : (2 * (k : ℝ) + 1) ≠ 0 := by
    have : 2 * k + 1 ≠ 0 := by omega
    exact_mod_cast this
  apply irrational_pi
  refine ⟨2 * r / (2 * k + 1), ?_⟩
  push_cast
  rw [hk]
  field_simp

/-- The sine of a rational number other than 0 is irrational. -/
theorem irrational_sin {r : ℚ} (hr : r ≠ 0) : Irrational (Real.sin r) := by
  rintro ⟨q, hq⟩
  refine irrational_cos (r := 2 * r) (by simpa using hr) ⟨1 - 2 * q ^ 2, ?_⟩
  push_cast
  rw [hq, Real.cos_two_mul, Real.cos_sq']
  ring

end Sys2Proof.Laws
end

