-- ==== Sys2Proof/Machine/Exact.lean ====
section
/-! DEFINITION. RN32 of a sine and of a decimal logarithm with no bound on the precision (00_scope.md R15),
for the operands, if any, at which the fixed precision of Elementary.lean does not decide the rounding.
They are exact and slow: the sine by a search through ever better enclosures, the logarithm by comparing
integers. -/

namespace Sys2Proof.Machine.F32

open scoped Nat

/-- The boundary between the reals that round to the magnitude with bits `m` and those that round to the
next one: their midpoint, in units of 2^-150. -/
def boundary (m : Nat) : Nat := units (BitVec.ofNat 32 m) + units (BitVec.ofNat 32 (m + 1))

/-- The term of degree `k` of the power series of the sine. -/
def sinTerm (x : ℚ) (k : Nat) : ℚ :=
  (if k % 4 = 1 then 1 else if k % 4 = 3 then -1 else 0) * x ^ k / k !

/-- The power series of the sine below degree `n`. -/
def sinSum (x : ℚ) (n : Nat) : ℚ := ∑ k ∈ Finset.range n, sinTerm x k

/-- What the series below degree `n` leaves out, at most, once `2·|x| ≤ n + 1`. -/
def sinRest (x : ℚ) (n : Nat) : ℚ := 2 * |x| ^ n / n !

/-- `π` by `n` terms of Leibniz's series. -/
def piSum (n : Nat) : ℚ := 4 * ∑ k ∈ Finset.range n, (-1 : ℚ) ^ k / (2 * k + 1)

/-- The error of `piSum n`, at most. -/
def piRest (n : Nat) : ℚ := 4 / (2 * n + 1)

/-- Try number `k`, a pair of a precision `n` and a pattern: at that precision, the sine of an angle
within `r n` of `c n` has the pattern's sign and lies between the boundaries of its magnitude. -/
def sinRoundsTo (c r : Nat → ℚ) (k : Nat) : Bool :=
  let n := k.unpair.1
  let m := k.unpair.2 / 2
  let s := if k.unpair.2 % 2 = 1 then -sinSum (c n) n else sinSum (c n) n
  let e := sinRest (c n) n + r n
  decide (2 * |c n| ≤ n + 1) && decide (m < infBits) && decide (0 < s - e) &&
    (m == 0 || decide ((boundary (m - 1) : ℚ) < (s - e) * 2 ^ 150)) &&
    decide ((s + e) * 2 ^ 150 < boundary m)

/-- RN32 of the sine of the angle enclosed by `c` and `r`, where some try succeeds. -/
def searchSin (c r : Nat → ℚ) (h : ∃ k, sinRoundsTo c r k = true) : Word :=
  let k := (Nat.find h).unpair.2
  pack (decide (k % 2 = 1)) (k / 2)

/-- `|log10(u·2^-149)|`, in units of 2^-150, lies above the boundary below the magnitude with bits `m`, or
on it where `m` is even. With `b = 2^150` both sides are raised to the power `b`. -/
def logReaches (b u m : Nat) : Bool :=
  let ten := 10 ^ boundary (m - 1)
  let low := if 2 ^ 149 ≤ u then ten * 2 ^ (149 * b) else ten * u ^ b
  let high := if 2 ^ 149 ≤ u then u ^ b else 2 ^ (149 * b)
  m == 0 || decide (low < high) || (decide (low = high) && m % 2 == 0)

/-- Bits 30..0 of RN32 of `|log10(u·2^-149)|`, `u > 0`: the greatest magnitude it reaches. -/
def searchLog (u : Nat) : Nat := Nat.findGreatest (fun m => logReaches (2 ^ 150) u m = true) infBits

end Sys2Proof.Machine.F32
end

