-- ==== Sys2Proof/Laws/Exact.lean ====
section
/-! SUPPORT. The exact search for the rounding of a sine ends and finds it: its enclosures close in on the
sine, which lies on no rounding boundary. What the comparison of integers says of a logarithm. -/

namespace Sys2Proof.Machine.F32

open Filter Topology
open scoped Nat

/-! ## Boundaries -/

theorem magBits_ofNat {m : Nat} (h : m < 2 ^ 31) : magBits (BitVec.ofNat 32 m) = m := by
  rw [magBits, BitVec.toNat_ofNat]
  omega

theorem units_ofNat_lt {m m' : Nat} (h : m < m') (h' : m' < 2 ^ 31) :
    units (BitVec.ofNat 32 m) < units (BitVec.ofNat 32 m') :=
  units_lt_units (by rw [magBits_ofNat (h.trans h'), magBits_ofNat h']; exact h)

theorem boundary_lt_boundary {m m' : Nat} (h : m < m') (h' : m' < infBits) : boundary m < boundary m' := by
  have hi := infBits_lt
  have h1 := units_ofNat_lt h (by omega)
  have h2 := units_ofNat_lt (show m + 1 < m' + 1 by omega) (by omega)
  simp only [boundary]
  omega

/-- A representable magnitude is on no boundary. -/
theorem boundary_ne {m m' : Nat} (h : m < infBits) (h' : m' < 2 ^ 31) :
    boundary m ≠ 2 * units (BitVec.ofNat 32 m') := by
  have hi := infBits_lt
  have hs := units_ofNat_lt (show m < m + 1 by omega) (by omega)
  simp only [boundary]
  rcases Nat.lt_or_ge m m' with hm | hm
  · have : units (BitVec.ofNat 32 (m + 1)) ≤ units (BitVec.ofNat 32 m') := by
      rcases Nat.lt_or_ge (m + 1) m' with hm2 | hm2
      · exact (units_ofNat_lt hm2 h').le
      · rw [show m' = m + 1 by omega]
    omega
  · have : units (BitVec.ofNat 32 m') ≤ units (BitVec.ofNat 32 m) := by
      rcases Nat.lt_or_ge m' m with hm2 | hm2
      · exact (units_ofNat_lt hm2 (by omega)).le
      · rw [show m' = m by omega]
    omega

/-- Every real up to 1 that is on no boundary lies strictly between two neighbouring ones. -/
theorem exists_between_boundaries {x : ℝ} (h1 : x ≤ 2 ^ 150) (hb : ∀ m < infBits, x ≠ boundary m) :
    ∃ m < infBits, (m = 0 ∨ (boundary (m - 1) : ℝ) < x) ∧ x < boundary m := by
  have hex : ∃ m, m < infBits ∧ x < boundary m := by
    refine ⟨0x3F800000, by decide, h1.trans_lt ?_⟩
    have : (2 ^ 150 : Nat) < boundary 0x3F800000 := by decide +kernel
    exact_mod_cast this
  classical
  refine ⟨Nat.find hex, (Nat.find_spec hex).1, ?_, (Nat.find_spec hex).2⟩
  rcases Nat.eq_zero_or_pos (Nat.find hex) with h | h
  · exact .inl h
  · have hlt : Nat.find hex - 1 < infBits := by have := (Nat.find_spec hex).1; omega
    have hn := Nat.find_min hex (show Nat.find hex - 1 < Nat.find hex by omega)
    exact .inr (lt_of_le_of_ne (not_lt.mp fun hx => hn ⟨hlt, hx⟩) (hb _ hlt).symm)

/-! ## The series -/

theorem sinSum_error (x : ℚ) (n : Nat) (h : 2 * |x| ≤ n + 1) :
    |Real.sin x - sinSum x n| ≤ sinRest x n := by
  have hx : ‖(x : ℂ) * Complex.I‖ = |(x : ℝ)| := by
    rw [norm_mul, Complex.norm_I, mul_one, ← Complex.ofReal_ratCast, Complex.norm_real, Real.norm_eq_abs]
  have hn : ‖(x : ℂ) * Complex.I‖ / n.succ ≤ 1 / 2 := by
    rw [hx, div_le_iff₀ (by positivity)]
    have : (2 * |(x : ℝ)| : ℝ) ≤ n + 1 := by exact_mod_cast h
    push_cast
    linarith
  have hb := Complex.exp_bound' hn
  have him : (Complex.exp (x * Complex.I) - ∑ m ∈ Finset.range n, (x * Complex.I) ^ m / (m ! : ℂ)).im =
      Real.sin x - sinSum x n := by
    rw [Complex.sub_im, ← Complex.ofReal_ratCast, Complex.exp_ofReal_mul_I_im, Complex.im_sum, sinSum,
      Rat.cast_sum]
    congr 1
    refine Finset.sum_congr rfl fun k _ => ?_
    have hI : (Complex.I ^ k).im = if k % 4 = 1 then 1 else if k % 4 = 3 then -1 else 0 := by
      rw [Complex.I_pow_eq_pow_mod]
      have : k % 4 < 4 := Nat.mod_lt _ (by decide)
      interval_cases k % 4 <;> simp [pow_succ]
    rw [mul_pow, ← Complex.ofReal_natCast, mul_div_right_comm, ← Complex.ofReal_pow, ← Complex.ofReal_div,
      Complex.im_ofReal_mul, hI, sinTerm]
    push_cast
    split_ifs <;> ring
  rw [← him]
  refine (Complex.abs_im_le_norm _).trans (hb.trans (le_of_eq ?_))
  rw [hx, sinRest]
  push_cast
  ring

theorem piSum_error (n : Nat) : |Real.pi - piSum n| ≤ piRest n := by
  have hl := Real.tendsto_sum_pi_div_four
  let f : ℕ → ℝ := fun i => 1 / (2 * i + 1)
  have hf : Antitone f := fun i j hij => by
    have : (i : ℝ) ≤ j := by exact_mod_cast hij
    simp only [f]
    gcongr
  have hl' : Tendsto (fun n => ∑ i ∈ Finset.range n, (-1 : ℝ) ^ i * f i) atTop (𝓝 (Real.pi / 4)) := by
    refine hl.congr fun n => Finset.sum_congr rfl fun i _ => ?_
    simp only [f]
    ring
  have hs : (piSum n : ℝ) = 4 * ∑ i ∈ Finset.range n, (-1 : ℝ) ^ i * f i := by
    rw [piSum]
    push_cast
    congr 1
    refine Finset.sum_congr rfl fun i _ => ?_
    simp only [f]
    ring
  have hr : (piRest n : ℝ) = 4 * f n := by
    simp only [piRest, f]
    push_cast
    ring
  have h0 : 0 ≤ f n := by simp only [f]; positivity
  rw [hs, hr, abs_le]
  obtain ⟨k, rfl | rfl⟩ := Nat.even_or_odd' n
  · have lo := hf.alternating_series_le_tendsto hl' k
    have hi := hf.tendsto_le_alternating_series hl' k
    rw [Finset.sum_range_succ, pow_mul, neg_one_sq, one_pow, one_mul] at hi
    constructor <;> linarith
  · have hi := hf.tendsto_le_alternating_series hl' k
    have lo := hf.alternating_series_le_tendsto hl' (k + 1)
    rw [Nat.mul_succ, Finset.sum_range_succ, pow_succ, pow_mul, neg_one_sq, one_pow, one_mul] at lo
    constructor <;> linarith

theorem piRest_tendsto : Tendsto (fun n => (piRest n : ℝ)) atTop (𝓝 0) := by
  have h : Tendsto (fun n : ℕ => (2 * n + 1 : ℝ)) atTop atTop :=
    tendsto_atTop_add_const_right _ _ (tendsto_natCast_atTop_atTop.const_mul_atTop two_pos)
  have := h.const_div_atTop 4
  refine this.congr fun n => ?_
  simp only [piRest]
  push_cast
  rfl

/-! ## The search -/

/-- What a successful try says of the sine of the angle it encloses: its sign, and the boundaries it lies
strictly between. -/
theorem sinRoundsTo_spec {c r : ℕ → ℚ} {θ : ℝ} (hθ : ∀ n, |θ - c n| ≤ r n) {k : ℕ}
    (h : sinRoundsTo c r k = true) :
    let m := k.unpair.2 / 2
    m < infBits ∧ Real.sin θ ≠ 0 ∧ (k.unpair.2 % 2 = 1 ↔ Real.sin θ < 0) ∧
      (m = 0 ∨ (boundary (m - 1) : ℝ) < |Real.sin θ| * 2 ^ 150) ∧ |Real.sin θ| * 2 ^ 150 < boundary m := by
  simp only [sinRoundsTo, Bool.and_eq_true, Bool.or_eq_true, decide_eq_true_eq, beq_iff_eq] at h
  obtain ⟨⟨⟨⟨hn, hm⟩, hp⟩, hl⟩, hu⟩ := h
  set n := k.unpair.1
  set m := k.unpair.2 / 2
  have he : |Real.sin θ - sinSum (c n) n| ≤ sinRest (c n) n + r n := by
    have h1 := sinSum_error (c n) n hn
    have h2 := (Real.abs_sin_sub_sin_le θ (c n)).trans (hθ n)
    have h3 := abs_sub_le (Real.sin θ) (Real.sin (c n)) (sinSum (c n) n)
    linarith
  have key : ∀ s : ℝ, |Real.sin θ - s| ≤ sinRest (c n) n + r n → 0 < s - (sinRest (c n) n + r n) →
      0 < Real.sin θ ∧ s - (sinRest (c n) n + r n) ≤ Real.sin θ ∧ Real.sin θ ≤ s + (sinRest (c n) n + r n) := by
    intro s h1 h2
    rw [abs_le] at h1
    refine ⟨?_, ?_, ?_⟩ <;> linarith [h1.1, h1.2]
  by_cases hb : k.unpair.2 % 2 = 1
  · simp only [hb, if_true] at hp hl hu
    have hp' : (0 : ℝ) < -(sinSum (c n) n) - (sinRest (c n) n + r n) := by exact_mod_cast hp
    have hu' : (-(sinSum (c n) n : ℝ) + (sinRest (c n) n + r n)) * 2 ^ 150 < boundary m := by exact_mod_cast hu
    rw [abs_le] at he
    have hneg : Real.sin θ < 0 := by linarith [he.1, he.2]
    rw [abs_of_neg hneg]
    refine ⟨hm, hneg.ne, by simp [hb, hneg], hl.imp id fun hl => ?_, by nlinarith [he.1, he.2]⟩
    have hl' : (boundary (m - 1) : ℝ) < (-(sinSum (c n) n) - (sinRest (c n) n + r n)) * 2 ^ 150 := by
      exact_mod_cast hl
    nlinarith [he.1, he.2]
  · simp only [hb, if_false] at hp hl hu
    have hp' : (0 : ℝ) < sinSum (c n) n - (sinRest (c n) n + r n) := by exact_mod_cast hp
    have hu' : ((sinSum (c n) n : ℝ) + (sinRest (c n) n + r n)) * 2 ^ 150 < boundary m := by exact_mod_cast hu
    rw [abs_le] at he
    have hpos : 0 < Real.sin θ := by linarith [he.1, he.2]
    rw [abs_of_pos hpos]
    refine ⟨hm, hpos.ne', by simp [hb, hpos.le], hl.imp id fun hl => ?_, by nlinarith [he.1, he.2]⟩
    have hl' : (boundary (m - 1) : ℝ) < (sinSum (c n) n - (sinRest (c n) n + r n)) * 2 ^ 150 := by
      exact_mod_cast hl
    nlinarith [he.1, he.2]

/-- Some try succeeds, when the angle is enclosed ever better and its sine is neither 0 nor on a
boundary. -/
theorem exists_sinRoundsTo {c r : ℕ → ℚ} {θ : ℝ} (hθ : ∀ n, |θ - c n| ≤ r n)
    (hr : Tendsto (fun n => (r n : ℝ)) atTop (𝓝 0)) (h0 : Real.sin θ ≠ 0)
    (hb : ∀ m < infBits, |Real.sin θ| * 2 ^ 150 ≠ boundary m) : ∃ k, sinRoundsTo c r k = true := by
  obtain ⟨m, hm, hl, hu⟩ := exists_between_boundaries
    (mul_le_of_le_one_left (by positivity) (Real.abs_sin_le_one θ)) hb
  -- the centres stay bounded, so the error goes to 0
  have hc : ∀ᶠ n in atTop, |(c n : ℝ)| ≤ |θ| + 1 := by
    filter_upwards [hr.eventually_lt_const one_pos] with n hn
    have h1 := abs_sub_abs_le_abs_sub (c n : ℝ) θ
    rw [abs_sub_comm] at h1
    linarith [hθ n]
  have he : Tendsto (fun n => (sinRest (c n) n + r n : ℝ)) atTop (𝓝 0) := by
    have hf := (FloorSemiring.tendsto_pow_div_factorial_atTop (|θ| + 1)).const_mul 2
    rw [mul_zero] at hf
    have : Tendsto (fun n => (sinRest (c n) n : ℝ)) atTop (𝓝 0) := by
      refine squeeze_zero' (Eventually.of_forall fun n => ?_) ?_ hf
      · simp only [sinRest]; push_cast; positivity
      · filter_upwards [hc] with n hn
        simp only [sinRest]
        push_cast
        rw [mul_div_assoc]
        gcongr
    simpa using this.add hr
  have hn : ∀ᶠ n : ℕ in atTop, 2 * (|θ| + 1) ≤ n :=
    tendsto_natCast_atTop_atTop.eventually_ge_atTop _
  have he1 := he.eventually_lt_const (show 0 < |Real.sin θ| / 2 by positivity)
  have he2 := he.eventually_lt_const (show 0 < (boundary m - |Real.sin θ| * 2 ^ 150) / 2 ^ 151 by
    apply div_pos <;> [linarith; positivity])
  have he3 : ∀ᶠ n in atTop, m = 0 ∨
      (sinRest (c n) n + r n : ℝ) < (|Real.sin θ| * 2 ^ 150 - boundary (m - 1)) / 2 ^ 151 := by
    rcases hl with h | h
    · exact Eventually.of_forall fun _ => .inl h
    · filter_upwards [he.eventually_lt_const (show 0 < (|Real.sin θ| * 2 ^ 150 - boundary (m - 1)) / 2 ^ 151 by
        apply div_pos <;> [linarith; positivity])] with n hn using .inr hn
  obtain ⟨n, hcn, hnn, h1, h2, h3⟩ := (hc.and (hn.and (he1.and (he2.and he3)))).exists
  rw [lt_div_iff₀ (by positivity)] at h2
  have h3' : m = 0 ∨ (sinRest (c n) n + r n : ℝ) * 2 ^ 151 < |Real.sin θ| * 2 ^ 150 - boundary (m - 1) :=
    h3.imp id fun h => by rwa [lt_div_iff₀ (by positivity)] at h
  have hq : 2 * |c n| ≤ n + 1 := by
    have : (2 * |(c n : ℝ)|) ≤ n + 1 := by linarith
    exact_mod_cast this
  have hs : |Real.sin θ - sinSum (c n) n| ≤ sinRest (c n) n + r n := by
    have a1 := sinSum_error (c n) n hq
    have a2 := (Real.abs_sin_sub_sin_le θ (c n)).trans (hθ n)
    have a3 := abs_sub_le (Real.sin θ) (Real.sin (c n)) (sinSum (c n) n)
    linarith
  rw [abs_le] at hs
  -- the try at this precision with the right sign
  rcases lt_or_gt_of_ne h0 with hneg | hpos
  · rw [abs_of_neg hneg] at h1 h2 h3'
    refine ⟨Nat.pair n (2 * m + 1), ?_⟩
    simp only [sinRoundsTo, Nat.unpair_pair, Bool.and_eq_true, Bool.or_eq_true, decide_eq_true_eq, beq_iff_eq,
      show (2 * m + 1) / 2 = m by omega, show (2 * m + 1) % 2 = 1 by omega, if_true]
    refine ⟨⟨⟨⟨hq, hm⟩, ?_⟩, h3'.imp id fun h => ?_⟩, ?_⟩
    · have : (0 : ℝ) < -sinSum (c n) n - (sinRest (c n) n + r n) := by linarith [hs.1, hs.2]
      exact_mod_cast this
    · have : (boundary (m - 1) : ℝ) < (-sinSum (c n) n - (sinRest (c n) n + r n)) * 2 ^ 150 := by
        nlinarith [hs.1, hs.2]
      exact_mod_cast this
    · have : (-sinSum (c n) n + (sinRest (c n) n + r n) : ℝ) * 2 ^ 150 < boundary m := by nlinarith [hs.1, hs.2]
      exact_mod_cast this
  · rw [abs_of_pos hpos] at h1 h2 h3'
    refine ⟨Nat.pair n (2 * m), ?_⟩
    simp only [sinRoundsTo, Nat.unpair_pair, Bool.and_eq_true, Bool.or_eq_true, decide_eq_true_eq, beq_iff_eq,
      show 2 * m / 2 = m by omega, show 2 * m % 2 = 0 by omega, zero_ne_one, if_false]
    refine ⟨⟨⟨⟨hq, hm⟩, ?_⟩, h3'.imp id fun h => ?_⟩, ?_⟩
    · have : (0 : ℝ) < sinSum (c n) n - (sinRest (c n) n + r n) := by linarith [hs.1, hs.2]
      exact_mod_cast this
    · have : (boundary (m - 1) : ℝ) < (sinSum (c n) n - (sinRest (c n) n + r n)) * 2 ^ 150 := by
        nlinarith [hs.1, hs.2]
      exact_mod_cast this
    · have : (sinSum (c n) n + (sinRest (c n) n + r n) : ℝ) * 2 ^ 150 < boundary m := by nlinarith [hs.1, hs.2]
      exact_mod_cast this

/-- What a search that succeeds answers: the sign of the sine, and a magnitude it lies strictly between the
boundaries of. -/
theorem searchSin_spec {c r : ℕ → ℚ} {θ : ℝ} (hθ : ∀ n, |θ - c n| ≤ r n)
    (h : ∃ k, sinRoundsTo c r k = true) :
    ∃ m < infBits, searchSin c r h = pack (decide (Real.sin θ < 0)) m ∧ Real.sin θ ≠ 0 ∧
      (m = 0 ∨ (boundary (m - 1) : ℝ) < |Real.sin θ| * 2 ^ 150) ∧ |Real.sin θ| * 2 ^ 150 < boundary m := by
  obtain ⟨hm, h0, hs, hl, hu⟩ := sinRoundsTo_spec hθ (Nat.find_spec h)
  exact ⟨_, hm, by simp only [searchSin, hs], h0, hl, hu⟩

/-- The search for the sine of a rational number other than 0 ends. -/
theorem exists_sin_rat {x : ℚ} (hx : x ≠ 0) : ∃ k, sinRoundsTo (fun _ => x) (fun _ => 0) k = true := by
  have hi := Laws.irrational_sin hx
  refine exists_sinRoundsTo (θ := x) (by simp) (by simp) (fun h => hi ⟨0, by simpa using h.symm⟩) fun m _ h => ?_
  rcases abs_choice (Real.sin x) with e | e <;> rw [e] at h
  · exact hi ⟨boundary m / 2 ^ 150, by push_cast; rw [← h]; field_simp⟩
  · exact hi ⟨-(boundary m / 2 ^ 150), by push_cast; rw [← h]; field_simp⟩

/-- The search for the sine of `π·t/q` ends, but where that sine is 0. -/
theorem exists_sin_pi {t q : ℕ} (hq : 0 < q) (ht : t % q ≠ 0) :
    ∃ k, sinRoundsTo (fun n => piSum n * t / q) (fun n => piRest n * t / q) k = true := by
  have hq' : (q : ℝ) ≠ 0 := by exact_mod_cast hq.ne'
  have hsin : Real.sin (Real.pi * t / q) ≠ 0 := by
    intro h
    obtain ⟨j, hj⟩ := Real.sin_eq_zero_iff.mp h
    have e : (j : ℝ) * q = t := by
      have := Real.pi_ne_zero
      field_simp at hj
      linarith
    have : (q : ℤ) ∣ t := ⟨j, by have : (j * q : ℤ) = t := by exact_mod_cast e
                                 linarith⟩
    exact ht (Nat.mod_eq_zero_of_dvd (by exact_mod_cast this))
  refine exists_sinRoundsTo (θ := Real.pi * t / q) (fun n => ?_) ?_ hsin fun m hm h => ?_
  · have : Real.pi * t / q - ((piSum n * t / q : ℚ) : ℝ) = (Real.pi - piSum n) * (t / q) := by push_cast; ring
    rw [this, abs_mul, abs_of_nonneg (show (0 : ℝ) ≤ t / q by positivity)]
    have : ((piRest n * t / q : ℚ) : ℝ) = piRest n * (t / q) := by push_cast; ring
    rw [this]
    gcongr
    exact piSum_error n
  · have := piRest_tendsto.mul_const (t / q : ℝ)
    rw [zero_mul] at this
    refine this.congr fun n => ?_
    push_cast
    ring
  · have hrat : ∃ z : ℚ, Real.sin (Real.pi * t / q) = z := by
      rcases abs_choice (Real.sin (Real.pi * t / q)) with e | e <;> rw [e] at h
      · exact ⟨boundary m / 2 ^ 150, by push_cast; rw [← h]; field_simp⟩
      · exact ⟨-(boundary m / 2 ^ 150), by push_cast; rw [← h]; field_simp⟩
    have hn := niven_sin ⟨t / q, by push_cast; ring⟩ hrat
    have half : boundary m ≠ 2 ^ 149 := by
      have := boundary_ne hm (show 0x3F000000 < 2 ^ 31 by decide)
      rwa [show 2 * units (BitVec.ofNat 32 0x3F000000) = 2 ^ 149 by decide +kernel] at this
    have one : boundary m ≠ 2 ^ 150 := by
      have := boundary_ne hm (show 0x3F800000 < 2 ^ 31 by decide)
      rwa [show 2 * units (BitVec.ofNat 32 0x3F800000) = 2 ^ 150 by decide +kernel] at this
    have half' : (boundary m : ℝ) ≠ 2 ^ 149 := by exact_mod_cast half
    have one' : (boundary m : ℝ) ≠ 2 ^ 150 := by exact_mod_cast one
    simp only [Set.mem_insert_iff, Set.mem_singleton_iff] at hn
    rcases hn with e | e | e | e | e <;> rw [e] at h <;> norm_num at h
    · exact one' (by rw [← h]; norm_num)
    · exact half' (by rw [← h]; norm_num)
    · exact hsin e
    · exact half' (by rw [← h]; norm_num)
    · exact one' (by rw [← h]; norm_num)

/-! ## The logarithm -/

/-- A power of 10 against a power of a ratio, as exponents. -/
theorem pow_ratio_compare {n d : ℕ} (hn : 0 < n) (hd : 0 < d) (k b : ℕ) :
    (10 ^ k * d ^ b < n ^ b ↔ (k : ℝ) < Real.logb 10 (n / d) * b) ∧
    (10 ^ k * d ^ b = n ^ b ↔ (k : ℝ) = Real.logb 10 (n / d) * b) := by
  have hn' : (0 : ℝ) < n := by exact_mod_cast hn
  have hd' : (0 : ℝ) < d := by exact_mod_cast hd
  have e : Real.logb 10 (n / d) * b = Real.logb 10 ((n / d) ^ b) := by
    rw [← Real.rpow_natCast, Real.logb_rpow_eq_mul_logb_of_pos (by positivity), mul_comm]
  have e' : (k : ℝ) = Real.logb 10 (10 ^ k) := by
    rw [← Real.rpow_natCast, Real.logb_rpow (by norm_num) (by norm_num)]
  rw [e, e', Real.logb_lt_logb_iff (by norm_num) (by positivity) (by positivity), div_pow,
    lt_div_iff₀ (by positivity)]
  refine ⟨by exact_mod_cast Iff.rfl, ?_⟩
  rw [(Real.logb_injOn_pos (b := 10) (by norm_num)).eq_iff (by simp) (by simp; positivity),
    eq_div_iff (by positivity)]
  exact_mod_cast Iff.rfl

/-- Magnitude `m` is reached when `b` times the logarithm lies above the boundary below `m`, or on it and
`m` is even. -/
theorem logReaches_iff {b u m : ℕ} (hu : 0 < u) : logReaches b u m = true ↔
    m = 0 ∨ (boundary (m - 1) : ℝ) < |Real.logb 10 (u / 2 ^ 149)| * b ∨
      (boundary (m - 1) : ℝ) = |Real.logb 10 (u / 2 ^ 149)| * b ∧ m % 2 = 0 := by
  have hu' : (0 : ℝ) < u := by exact_mod_cast hu
  rcases Nat.lt_or_ge u (2 ^ 149) with h | h
  · have hlt : (u : ℝ) / 2 ^ 149 < 1 := by
      rw [div_lt_one (by positivity)]; exact_mod_cast h
    have ha : |Real.logb 10 (u / 2 ^ 149)| = Real.logb 10 ((2 ^ 149 : ℕ) / u) := by
      rw [abs_of_neg (Real.logb_neg (by norm_num) (by positivity) hlt), ← Real.logb_inv, inv_div]
      norm_num
    obtain ⟨h1, h2⟩ := pow_ratio_compare (n := 2 ^ 149) (by positivity) hu (boundary (m - 1)) b
    rw [← pow_mul] at h1 h2
    simp only [logReaches, if_neg (Nat.not_le.mpr h), ha, Bool.or_eq_true, Bool.and_eq_true, beq_iff_eq,
      decide_eq_true_eq, h1, h2, or_assoc]
  · have hge : 1 ≤ (u : ℝ) / 2 ^ 149 := by
      rw [one_le_div (by positivity)]; exact_mod_cast h
    have ha : |Real.logb 10 (u / 2 ^ 149)| = Real.logb 10 (u / (2 ^ 149 : ℕ)) := by
      rw [abs_of_nonneg (Real.logb_nonneg (by norm_num) hge)]
      norm_num
    obtain ⟨h1, h2⟩ := pow_ratio_compare (d := 2 ^ 149) hu (by positivity) (boundary (m - 1)) b
    rw [← pow_mul] at h1 h2
    simp only [logReaches, if_pos h, ha, Bool.or_eq_true, Bool.and_eq_true, beq_iff_eq,
      decide_eq_true_eq, h1, h2, or_assoc]

end Sys2Proof.Machine.F32
end

