-- ==== Sys2Proof/Machine/Elementary.lean ====
section
/-! DEFINITION. The correctly rounded elementary functions (00_scope.md R15): sine of a binary32 value
(43_gain_postproc.md R203), sine and cosine of a rational part of a turn (40_stft.md R112, R118) and
the decimal logarithm (R125).

Each exact value is enclosed between two integers of fixed-point units 2^-192. Where both ends round to
the same binary32 value, that is RN32 of the exact value, since rounding is monotone. Where they do not,
the exact functions of Exact.lean give RN32 (log entry 4): every function here is RN32 of its exact
value, with no value left to an implementation (70_reset_and_hazards.md R271). -/

namespace Sys2Proof.Machine.F32

/-- One, in fixed-point units of 2^-192. -/
def fixOne : Nat := 2 ^ 192

/-- `floor(π/2 · 2^384)`. -/
def halfPi384 : Nat :=
  0x1921fb54442d18469898cc51701b839a252049c1114cf98e804177d4c76273644a29410f31c6809bbdf2a33679a748636

/-- `π/2` in units of 2^-192. -/
def halfPi192 : Nat := halfPi384 / 2 ^ 192

/-- RN32 of `lo` units of 2^-192, as bits 30..0; where an enclosure `lo … hi` decides, of every value
in it. -/
def roundFix (lo : Nat) : Nat := roundMag lo (2 ^ 43)

/-- The enclosure `lo … hi` of a positive value decides its rounding: both ends round alike, and `lo` is
positive, so that the sign is certain too. -/
def decides (lo hi : Nat) : Bool := decide (0 < lo) && roundFix lo == roundFix hi

/-- `1 − x²/((2k)(2k+1)) · (1 − x²/((2k+2)(2k+3)) · …)`, `fuel` factors, with `x2 = x²`. -/
def sinTail (x2 : Nat) : Nat → Nat → Nat
  | 0, _ => fixOne
  | fuel + 1, k => fixOne - x2 * sinTail x2 fuel (k + 1) / (fixOne * (2 * k * (2 * k + 1)))

/-- The sine of `x` in `0 … π/2`, by 28 terms of its power series, within 8 units. -/
def sinFix (x : Nat) : Nat := x * sinTail (x * x / fixOne) 28 1 / fixOne

/-- More than the error of `sinFix` and of the reduced argument together, in units of 2^-192. -/
def sinError : Nat := 64

/-- The ends of the enclosure of `sin x`. -/
def sinLow (x : Nat) : Nat := sinFix x - sinError
def sinHigh (x : Nat) : Nat := sinFix x + sinError

/-- RN32(sin(π·p/q)), `q > 0`. The angle is reduced exactly: by whole turns, by the sign of the second
half turn, and by `sin(π − x) = sin x`. -/
def sinPi (p q : Nat) : Word :=
  let t := p % (2 * q)
  if h : 0 < q ∧ t % q ≠ 0 then
    let v := min (t % q) (q - t % q)
    let angle := 2 * halfPi384 * v / (q * 2 ^ 192)
    if decides (sinLow angle) (sinHigh angle) then pack (decide (q ≤ t)) (roundFix (sinLow angle))
    else searchSin (fun n => piSum n * t / q) (fun n => piRest n * t / q) (exists_sin_pi h.1 h.2)
  else posZero

/-- RN32(cos(π·p/q)) = RN32(sin(π·p/q + π/2)), `q > 0`. -/
def cosPi (p q : Nat) : Word := sinPi (2 * p + q) (2 * q)

/-- The exact value of a finite pattern. -/
def ratOf (a : Word) : ℚ := value a / 2 ^ 149

theorem ratOf_ne_zero {a : Word} (h : ¬isZero a = true) : ratOf a ≠ 0 := by
  have h1 : units 0x00000000#32 < units a := units_lt_units (by
    simp only [isZero, decide_eq_true_eq] at h
    have : magBits 0x00000000#32 = 0 := by decide
    omega)
  have h2 : value a ≠ 0 := by
    simp only [value]
    split <;> omega
  simpa [ratOf] using h2

/-- `sin32(a)` (R203): RN32 of the sine of the exact value of `a`. The magnitude is reduced by whole
quarter turns; odd quarters read `cos r = sin(π/2 − r)`, the third and fourth are negative. -/
def sin32 (a : Word) : Word :=
  if isNaN a || isInf a then qNaN
  else if h : isZero a = true then posZero
  else
    let x := units a * 2 ^ 235
    let quarter := x / halfPi384
    let r := x % halfPi384 / 2 ^ 192
    let angle := if quarter % 2 = 0 then r else halfPi192 - r
    if decides (sinLow angle) (sinHigh angle) then
      pack (sign a != decide (2 ≤ quarter % 4)) (roundFix (sinLow angle))
    else searchSin (fun _ => ratOf a) (fun _ => 0) (exists_sin_rat (ratOf_ne_zero h))

/-- `1/(2k+1) + z²·(1/(2k+3) + z²·…)`, `fuel` terms, with `z2 = z²`. -/
def atanhTail (z2 : Nat) : Nat → Nat → Nat
  | 0, _ => 0
  | fuel + 1, k => fixOne / (2 * k + 1) + z2 * atanhTail z2 fuel (k + 1) / fixOne

/-- `ln(n/d)` for `n ≥ d`, as `2·artanh z` with `z = (n − d)/(n + d) ≤ 1/3`, 64 terms. -/
def lnFix (n d : Nat) : Nat :=
  let z := (n - d) * fixOne / (n + d)
  2 * (z * atanhTail (z * z / fixOne) 64 0 / fixOne)

def ln2 : Nat := lnFix 2 1

/-- `ln 10 = 3·ln 2 + ln(5/4)`. -/
def ln10 : Nat := 3 * ln2 + lnFix 5 4

/-- More than the error of the logarithm computed from `lnFix`, in units of 2^-192. -/
def logError : Nat := 2 ^ 14

/-- `ln v` in units of 2^-192 for `v = m` units of 2^-149, `m > 0`: with `2^e ≤ m < 2^(e+1)`, either
`(e − 149)·ln 2` plus the logarithm of `m/2^e < 3/2`, or `(e − 148)·ln 2` less that of `2^(e+1)/m`. -/
def lnUnits (m : Nat) : Int :=
  let e := Nat.log2 m
  if 2 * m < 3 * 2 ^ e then ((e : Int) - 149) * ln2 + lnFix m (2 ^ e)
  else ((e : Int) - 148) * ln2 - lnFix (2 ^ (e + 1)) m

/-- `LOG10(v)` (R125). -/
def log10 (v : Word) : Word :=
  if isNaN v then qNaN
  else if isZero v then negInf
  else if sign v then qNaN
  else if isInf v then v
  else
    let l := lnUnits (units v)
    let x := l.natAbs * fixOne / ln10
    if units v = 2 ^ 149 then posZero
    else if decides (x - logError) (x + logError) then pack (decide (l < 0)) (roundFix (x - logError))
    else pack (decide (units v < 2 ^ 149)) (searchLog (units v))

end Sys2Proof.Machine.F32
end

