-- ==== Sys2Proof/Machine/Transform.lean ====
section
/-! DEFINITION. The window (40_stft.md R112), the twiddle factors (R118) and the forward and inverse
real transforms (R116 to R120, R128 to R130) as functions of a frame or a spectrum. -/

namespace Sys2Proof.Machine

open F32

/-- A complex number: real and imaginary part. -/
abbrev Cplx := Word × Word

/-- `WIN[n] = RN32(sqrt(0.5 − 0.5·cos(2πn/N)))` (R112). The exact value under RN32 equals
`sin(πn/N)` for `0 ≤ n < N` (log entry 5). -/
def window (c : Config) (n : Nat) : Word := sinPi n c.n

/-- `INVN = RN32(1/N)` (R111). -/
def invN (c : Config) : Word := div one (F32.ofNat c.n)

/-- `EPS = RN32(0.001)` (R111). -/
def eps : Word := 0x3A83126F#32

/-- `TWF[q] = (cos(2πq/N), −sin(2πq/N))`, each rounded once, an exact zero as +0.0 (R118). -/
def twiddleForward (n q : Nat) : Cplx :=
  let s := sinPi (2 * q) n
  (cosPi (2 * q) n, if isZero s then posZero else neg s)

/-- `TWI[q] = (cos(2πq/N), +sin(2πq/N))` (R118). -/
def twiddleInverse (n q : Nat) : Cplx := (cosPi (2 * q) n, sinPi (2 * q) n)

/-- `bitrev_L(j)`: the low `L` bits of `j`, reversed (R120). -/
def bitrev : Nat → Nat → Nat
  | 0, _ => 0
  | l + 1, j => j % 2 * 2 ^ l + bitrev l (j / 2)

/-- `(wr ⊗ br) ⊖ (wi ⊗ bi)` and `(wr ⊗ bi) ⊕ (wi ⊗ br)`: the twiddled half of a butterfly (R120). -/
def twist (w b : Cplx) : Cplx :=
  (sub (mul w.1 b.1) (mul w.2 b.2), add (mul w.1 b.2) (mul w.2 b.1))

def cplxAdd (a t : Cplx) : Cplx := (add a.1 t.1, add a.2 t.2)
def cplxSub (a t : Cplx) : Cplx := (sub a.1 t.1, sub a.2 t.2)

/-- One block of a stage: its halves `A[b..b+h−1]` and `A[b+h..b+2h−1]` replaced by the sums and the
differences of the butterflies (R120). The butterflies of a stage touch disjoint pairs, so the order
of its loops does not matter. -/
def butterflies (tw lo hi : List Cplx) : List Cplx :=
  let t := List.zipWith twist tw hi
  List.zipWith cplxAdd lo t ++ List.zipWith cplxSub lo t

/-- Stage `s` of the radix-2 transform: blocks of `m = 2^s` (R120). -/
def stage (tw : Nat → Cplx) (n s : Nat) (a : List Cplx) : List Cplx :=
  let h := 2 ^ (s - 1)
  let m := 2 ^ s
  let w := (List.range h).map fun j => tw (j * (n / m))
  (List.range (n / m)).flatMap fun b =>
    butterflies w ((a.drop (b * m)).take h) ((a.drop (b * m + h)).take h)

/-- The radix-2 transform of a power-of-two length `n`: bit-reversed input, then stages 1 to
`log2 n` in order (R120, R129). -/
def radix2 (tw : Nat → Cplx) (n : Nat) (x : Nat → Cplx) : List Cplx :=
  let l := Nat.log2 n
  (List.range l).foldl (fun a s => stage tw n (s + 1) a)
    ((List.range n).map fun j => x (bitrev l j))

/-- The length is a power of two (R119). -/
def isPow2 (n : Nat) : Bool := 2 ^ Nat.log2 n == n

/-- Direct summation over `n` in increasing order, real and imaginary parts apart (R120, else branch). -/
def directForward (tw : List Cplx) (xw : List Word) (k : Nat) : Cplx :=
  xw.zipIdx.foldl
    (fun acc x =>
      let w := tw.getD (k * x.2 % tw.length) (posZero, posZero)
      (add acc.1 (mul x.1 w.1), add acc.2 (mul x.1 w.2)))
    (posZero, posZero)

/-- Direct summation of the inverse over `k` in increasing order, the real part alone (R130). -/
def directInverse (tw z : List Cplx) (n : Nat) : Word :=
  z.zipIdx.foldl
    (fun acc x =>
      let w := tw.getD (x.2 * n % tw.length) (posZero, posZero)
      add acc (sub (mul x.1.1 w.1) (mul x.1.2 w.2)))
    posZero

/-- SPEC_IM[0] and SPEC_IM[N/2] are +0.0 (R119 (b), R120). -/
def clearEdges (c : Config) (spec : Nat → Cplx) (k : Nat) : Cplx :=
  ((spec k).1, if k = 0 ∨ k = c.n / 2 then posZero else (spec k).2)

/-- The sign bit alone: a zero of either sign. -/
def zeroOf (a : Word) : Word := a &&& 0x80000000#32

/-- The forward transform of R120 before the edges are cleared: bins 0 to K−1, scaled by HALF. -/
def referenceForward (c : Config) (xw : List Word) : List Cplx :=
  let scale := fun x : Cplx => (mul half x.1, mul half x.2)
  if isPow2 c.n then
    (radix2 (twiddleForward c.n) c.n fun j => (xw.getD j posZero, posZero)).map scale
  else
    let tw := (List.range c.n).map (twiddleForward c.n)
    (List.range c.k).map fun k => scale (directForward tw xw k)

/-- The forward transform of any other algorithm: a free value, but zeros of either sign on an
all-zero frame (R119 (a)). -/
def implForward (c : Config) (xw : List Word) (k : Nat) : Cplx :=
  let x := Config.implForward c xw k
  if xw.all isZero then (zeroOf x.1, zeroOf x.2) else x

/-- The forward real transform that FFT_IMPL selects (R117, R119): bin `k` of the spectrum. -/
def forward (c : Config) (xw : List Word) : Nat → Cplx :=
  match c.fftImpl with
  | .ref =>
    let spec := referenceForward c xw
    clearEdges c fun k => spec.getD k (posZero, posZero)
  | .impl => clearEdges c (implForward c xw)

/-- The full Hermitian spectrum `Z[0..N−1]` of K bins (R128): the imaginary parts of bins 0 and N/2
are ignored, and bin `N − k` is the conjugate of bin `k`. -/
def hermitian (c : Config) (spec : Nat → Cplx) (j : Nat) : Cplx :=
  if j = 0 ∨ j = c.n / 2 then ((spec j).1, posZero)
  else if j < c.n / 2 then spec j
  else ((spec (c.n - j)).1, neg (spec (c.n - j)).2)

/-- The inverse transform of R129 and R130: `y[0..N−1]`, unnormalised. -/
def referenceInverse (c : Config) (z : Nat → Cplx) : List Word :=
  if isPow2 c.n then (radix2 (twiddleInverse c.n) c.n z).map Prod.fst
  else
    let tw := (List.range c.n).map (twiddleInverse c.n)
    let zs := (List.range c.n).map z
    (List.range c.n).map fun n => directInverse tw zs n

/-- The inverse transform of any other algorithm: a free value, but zeros of either sign on an
all-zero spectrum (R119 (a), R130). -/
def implInverse (c : Config) (z : List Cplx) (n : Nat) : Word :=
  let y := Config.implInverse c z n
  if z.all (fun x => isZero x.1 && isZero x.2) then zeroOf y else y

/-- The inverse real transform that FFT_IMPL selects (R119, R128): sample `n` of `y`. -/
def inverse (c : Config) (spec : Nat → Cplx) : Nat → Word :=
  let z := hermitian c spec
  match c.fftImpl with
  | .ref =>
    let y := referenceInverse c z
    fun n => y.getD n posZero
  | .impl => implInverse c ((List.range c.n).map z)

end Sys2Proof.Machine
end

