-- ==== Sys2Proof/Machine/Bus.lean ====
section
/-! DEFINITION. The host port (20_memory.md): which accesses are admitted (R65), what is mapped where
(R66 to R69), and the effect of an admitted read or write (R62, R63). The write to CMD, which runs a
command, is in Command.lean. -/

namespace Sys2Proof.Machine

/-- The registers of R66 below 0x1000. -/
inductive Reg where
  | id
  | cfgN
  | cfgR
  | cfgK
  | cmd
  | status
  | errInfo
  | opa
  | opb
  | opc
  | accLo
  | accHi
  | fOpa
  | fRes
  | ppAlphaReverb
  | ppAlphaLowLevel
  | ppMinGain
  | ppGainBoost
  | ppSbFactor
  | ppSbStart
  | ppSbEnd
  | ppCtrl
  | lmScale
  deriving DecidableEq, Repr

/-- What an admitted address denotes (R66, R67): a register, an element of a buffer, an element of
WIN, or reserved space. -/
inductive Loc where
  | reg (r : Reg)
  | elem (b : Buf) (i : Nat)
  | win (i : Nat)
  | reserved
  deriving DecidableEq, Repr

/-- An access is admitted when its address is word aligned and it transfers four bytes (R65). -/
def admitted (addr : BitVec 16) (size : AccessSize) : Bool :=
  addr.toNat % 4 == 0 && size == .word

/-- The address of CMD (R24). -/
def cmdAddr : BitVec 16 := 0x0010#16

/-- The register at an offset below 0x1000 (R66), if any. -/
def regAt (off : Nat) : Option Reg :=
  match off with
  | 0x0000 => some .id
  | 0x0004 => some .cfgN
  | 0x0008 => some .cfgR
  | 0x000C => some .cfgK
  | 0x0010 => some .cmd
  | 0x0014 => some .status
  | 0x0018 => some .errInfo
  | 0x0020 => some .opa
  | 0x0024 => some .opb
  | 0x0028 => some .opc
  | 0x0030 => some .accLo
  | 0x0034 => some .accHi
  | 0x0040 => some .fOpa
  | 0x0044 => some .fRes
  | 0x0050 => some .ppAlphaReverb
  | 0x0054 => some .ppAlphaLowLevel
  | 0x0058 => some .ppMinGain
  | 0x005C => some .ppGainBoost
  | 0x0060 => some .ppSbFactor
  | 0x0064 => some .ppSbStart
  | 0x0068 => some .ppSbEnd
  | 0x006C => some .ppCtrl
  | 0x0070 => some .lmScale
  | _ => none

/-- The buffer whose 0x1000-byte window has the number `w` (R66, R67), if any; 5 is WIN's. -/
def bufAt (w : Nat) : Option Buf :=
  match w with
  | 0x1 => some .inBuf
  | 0x2 => some .outBuf
  | 0x3 => some .anaBuf
  | 0x4 => some .synAcc
  | 0x6 => some .specRe
  | 0x7 => some .specIm
  | 0x8 => some .mag
  | 0x9 => some .logmag
  | 0xA => some .gainIn
  | 0xB => some .gainState
  | _ => none

/-- The address map (R66), the unused tail of a window included (R67). -/
def locate (c : Config) (addr : BitVec 16) : Loc :=
  let w := addr.toNat / 0x1000
  let off := addr.toNat % 0x1000
  let i := off / 4
  if w = 0 then
    match regAt off with
    | some r => .reg r
    | none => .reserved
  else if w = 5 then (if i < c.n then .win i else .reserved)
  else
    match bufAt w with
    | some b => if i < b.len c then .elem b i else .reserved
    | none => .reserved

namespace State

/-- The word a register shows (R23 to R33). CMD reads as 0 (R24). -/
def readReg (s : State) : Reg → Word
  | .id => 0x524B5354#32
  | .cfgN => BitVec.ofNat 32 s.cfg.n
  | .cfgR => BitVec.ofNat 32 s.cfg.r
  | .cfgK => BitVec.ofNat 32 s.cfg.k
  | .cmd => 0#32
  | .status => s.statusWord
  | .errInfo => s.errInfo
  | .opa => s.opa
  | .opb => s.opb
  | .opc => s.opc
  | .accLo => s.acc.extractLsb' 0 32
  | .accHi => s.acc.extractLsb' 32 32
  | .fOpa => s.fOpa
  | .fRes => s.fRes
  | .ppAlphaReverb => s.ppAlphaReverb
  | .ppAlphaLowLevel => s.ppAlphaLowLevel
  | .ppMinGain => s.ppMinGain
  | .ppGainBoost => s.ppGainBoost
  | .ppSbFactor => s.ppSbFactor
  | .ppSbStart => s.ppSbStart
  | .ppSbEnd => s.ppSbEnd
  | .ppCtrl => s.ppCtrlWord
  | .lmScale => s.lmScale

/-- The effect of a host write to a register other than CMD (R25 to R33): read-only registers ignore
it (R69), each half of ACC is replaced alone (R28). CMD holds nothing (R24). -/
def writeReg (s : State) (r : Reg) (v : Word) : State :=
  match r with
  | .id => s
  | .cfgN => s
  | .cfgR => s
  | .cfgK => s
  | .cmd => s
  | .status => s.writeStatus v
  | .errInfo => s
  | .opa => { s with opa := v }
  | .opb => { s with opb := v }
  | .opc => { s with opc := v }
  | .accLo => { s with acc := s.acc.extractLsb' 32 32 ++ v }
  | .accHi => { s with acc := v ++ s.acc.extractLsb' 0 32 }
  | .fOpa => { s with fOpa := v }
  | .fRes => s
  | .ppAlphaReverb => { s with ppAlphaReverb := v }
  | .ppAlphaLowLevel => { s with ppAlphaLowLevel := v }
  | .ppMinGain => { s with ppMinGain := v }
  | .ppGainBoost => { s with ppGainBoost := v }
  | .ppSbFactor => { s with ppSbFactor := v }
  | .ppSbStart => { s with ppSbStart := v }
  | .ppSbEnd => { s with ppSbEnd := v }
  | .ppCtrl => s.writePpCtrl v
  | .lmScale => { s with lmScale := v }

/-- The word at a location (R62, R66); reserved space reads as 0 (R68). -/
def readLoc (s : State) : Loc → Word
  | .reg r => s.readReg r
  | .elem b i => s.elem b i
  | .win i => window s.cfg i
  | .reserved => 0#32

/-- The effect of an admitted write at a location other than CMD (R63); WIN (R38, R69) and reserved
space (R68) ignore it. Any pattern may be stored (R79). -/
def writeLoc (s : State) (l : Loc) (v : Word) : State :=
  match l with
  | .reg r => s.writeReg r v
  | .elem b i => s.setElem b i v
  | .win _ => s
  | .reserved => s

/-- The data of a host read, handed to the host. -/
def answer (s : State) (v : Word) : State := { s with hostData := v :: s.hostData }

/-- `MemRead(addr, 4)` and every other read (R62, R65): the mapped word, or 0 and a recorded error. -/
def busRead (s : State) (addr : BitVec 16) (size : AccessSize) : State :=
  if admitted addr size then s.answer (s.readLoc (locate s.cfg addr))
  else (s.badAccess addr).answer 0#32

end State

end Sys2Proof.Machine
end

