-- ==== Sys2Proof/Machine/Control.lean ====
section
/-! DEFINITION. The control command (44_control.md). -/

namespace Sys2Proof.Machine

/-- NOP (R220): no state changes. -/
def execNop (s : State) : Host.Outcome State Fault Refusal := .next s

end Sys2Proof.Machine
end

