-- ==== Sys2Proof/Machine/Tables.lean ====
section
/-! DEFINITION. The read-only tables of 10_state.md R44: TQ and GQ (41_q15_kernels.md R161) and TF
(42_float_activations.md R181). They are constants, not state, and not on the bus. -/

namespace Sys2Proof.Machine

/-- `TQ[0..200]`: tanh at spacing 0.04, in Q15 (R161), ten to a row as the spec lists them. -/
def tqTable : List Nat :=
  [0, 1310, 2616, 3913, 5199, 6468, 7717, 8943, 10142, 11312] ++
  [12450, 13554, 14623, 15653, 16645, 17598, 18511, 19383, 20215, 21007] ++
  [21759, 22473, 23148, 23786, 24388, 24956, 25490, 25992, 26462, 26904] ++
  [27317, 27704, 28065, 28403, 28718, 29011, 29285, 29539, 29776, 29996] ++
  [30201, 30391, 30568, 30732, 30884, 31025, 31156, 31277, 31389, 31493] ++
  [31589, 31678, 31761, 31837, 31908, 31973, 32034, 32089, 32141, 32189] ++
  [32233, 32274, 32312, 32346, 32379, 32408, 32436, 32461, 32485, 32507] ++
  [32527, 32545, 32562, 32578, 32592, 32606, 32618, 32630, 32640, 32650] ++
  [32659, 32668, 32675, 32682, 32689, 32695, 32701, 32706, 32711, 32715] ++
  [32719, 32723, 32726, 32730, 32732, 32735, 32738, 32740, 32742, 32744] ++
  [32746, 32748, 32749, 32751, 32752, 32753, 32754, 32755, 32756, 32757] ++
  [32758, 32759, 32760, 32760, 32761, 32761, 32762, 32762, 32763, 32763] ++
  [32764, 32764, 32764, 32765, 32765, 32765, 32765, 32765, 32766, 32766] ++
  [32766, 32766, 32766, 32766, 32767, 32767, 32767, 32767, 32767, 32767] ++
  [32767, 32767, 32767, 32767, 32767, 32767, 32767, 32767, 32767, 32767] ++
  [32767, 32767, 32767, 32767, 32767, 32767, 32767, 32767, 32767, 32767] ++
  [32767, 32767, 32767, 32767, 32767, 32767, 32767, 32767, 32767, 32767] ++
  [32767, 32767, 32767, 32767, 32767, 32767, 32767, 32767, 32767, 32767] ++
  [32767, 32767, 32767, 32767, 32767, 32767, 32767, 32767, 32767, 32767] ++
  [32767, 32767, 32767, 32767, 32767, 32767, 32767, 32767, 32767, 32767] ++
  [32767]

/-- `TF[0..200]`: tanh at spacing 0.04, in binary32 (R181), ten to a row as the spec lists them. -/
def tfTable : List Nat :=
  [0x00000000, 0x3D23C0AF, 0x3DA37DCA, 0x3DF4964D, 0x3E2274C1, 0x3E4A1CC2, 0x3E7125CC, 0x3E8BBA37, 0x3E9E77B1, 0x3EB0BFE5] ++
  [0x3EC288AC, 0x3ED3C934, 0x3EE47A0B, 0x3EF49519, 0x3F020ACF, 0x3F097C15, 0x3F109D42, 0x3F176DD1, 0x3F1DEDC5, 0x3F241D9F] ++
  [0x3F29FE50, 0x3F2F912F, 0x3F34D7E6, 0x3F39D46A, 0x3F3E88EE, 0x3F42F7D6, 0x3F4723AC, 0x3F4B0F19, 0x3F4EBCD6, 0x3F522FAB] ++
  [0x3F556A63, 0x3F586FC7, 0x3F5B4298, 0x3F5DE58D, 0x3F605B4C, 0x3F62A668, 0x3F64C960, 0x3F66C69B, 0x3F68A069, 0x3F6A58FF] ++
  [0x3F6BF278, 0x3F6D6ED8, 0x3F6ED004, 0x3F7017CB, 0x3F7147E1, 0x3F7261E1, 0x3F73674F, 0x3F745998, 0x3F753A12, 0x3F7609FC] ++
  [0x3F76CA83, 0x3F777CC0, 0x3F7821B9, 0x3F78BA64, 0x3F7947A3, 0x3F79CA4D, 0x3F7A4327, 0x3F7AB2EA, 0x3F7B1A41, 0x3F7B79CC] ++
  [0x3F7BD21E, 0x3F7C23C0, 0x3F7C6F34, 0x3F7CB4EE, 0x3F7CF55D, 0x3F7D30E6, 0x3F7D67E8, 0x3F7D9ABA, 0x3F7DC9AC, 0x3F7DF50A] ++
  [0x3F7E1D19, 0x3F7E421A, 0x3F7E6446, 0x3F7E83D7, 0x3F7EA0FD, 0x3F7EBBE9, 0x3F7ED4C5, 0x3F7EEBBA, 0x3F7F00ED, 0x3F7F1480] ++
  [0x3F7F2694, 0x3F7F3745, 0x3F7F46AE, 0x3F7F54E9, 0x3F7F620C, 0x3F7F6E2D, 0x3F7F7961, 0x3F7F83B8, 0x3F7F8D44, 0x3F7F9614] ++
  [0x3F7F9E37, 0x3F7FA5BB, 0x3F7FACAA, 0x3F7FB312, 0x3F7FB8FB, 0x3F7FBE70, 0x3F7FC37A, 0x3F7FC821, 0x3F7FCC6C, 0x3F7FD063] ++
  [0x3F7FD40C, 0x3F7FD76C, 0x3F7FDA8B, 0x3F7FDD6C, 0x3F7FE014, 0x3F7FE288, 0x3F7FE4CC, 0x3F7FE6E4, 0x3F7FE8D2, 0x3F7FEA9A] ++
  [0x3F7FEC3F, 0x3F7FEDC4, 0x3F7FEF2B, 0x3F7FF076, 0x3F7FF1A8, 0x3F7FF2C2, 0x3F7FF3C7, 0x3F7FF4B7, 0x3F7FF595, 0x3F7FF662] ++
  [0x3F7FF720, 0x3F7FF7CE, 0x3F7FF870, 0x3F7FF904, 0x3F7FF98E, 0x3F7FFA0D, 0x3F7FFA82, 0x3F7FFAEE, 0x3F7FFB52, 0x3F7FFBAE] ++
  [0x3F7FFC03, 0x3F7FFC51, 0x3F7FFC9A, 0x3F7FFCDD, 0x3F7FFD1B, 0x3F7FFD54, 0x3F7FFD88, 0x3F7FFDB9, 0x3F7FFDE6, 0x3F7FFE0F] ++
  [0x3F7FFE35, 0x3F7FFE58, 0x3F7FFE79, 0x3F7FFE97, 0x3F7FFEB3, 0x3F7FFECC, 0x3F7FFEE4, 0x3F7FFEFA, 0x3F7FFF0E, 0x3F7FFF21] ++
  [0x3F7FFF32, 0x3F7FFF42, 0x3F7FFF50, 0x3F7FFF5E, 0x3F7FFF6A, 0x3F7FFF76, 0x3F7FFF80, 0x3F7FFF8A, 0x3F7FFF93, 0x3F7FFF9C] ++
  [0x3F7FFFA3, 0x3F7FFFAA, 0x3F7FFFB1, 0x3F7FFFB7, 0x3F7FFFBD, 0x3F7FFFC2, 0x3F7FFFC7, 0x3F7FFFCB, 0x3F7FFFCF, 0x3F7FFFD3] ++
  [0x3F7FFFD6, 0x3F7FFFDA, 0x3F7FFFDD, 0x3F7FFFDF, 0x3F7FFFE2, 0x3F7FFFE4, 0x3F7FFFE6, 0x3F7FFFE8, 0x3F7FFFEA, 0x3F7FFFEC] ++
  [0x3F7FFFED, 0x3F7FFFEF, 0x3F7FFFF0, 0x3F7FFFF1, 0x3F7FFFF2, 0x3F7FFFF3, 0x3F7FFFF4, 0x3F7FFFF5, 0x3F7FFFF6, 0x3F7FFFF7] ++
  [0x3F7FFFF8, 0x3F7FFFF8, 0x3F7FFFF9, 0x3F7FFFF9, 0x3F7FFFFA, 0x3F7FFFFA, 0x3F7FFFFB, 0x3F7FFFFB, 0x3F7FFFFC, 0x3F7FFFFC] ++
  [0x3F7FFFFC]

/-- `TQ[i]`. -/
def tq (i : Nat) : Nat := tqTable.getD i 0

/-- `TF[i]`. -/
def tf (i : Nat) : Word := BitVec.ofNat 32 (tfTable.getD i 0)

/-- `GQ[i] = floor((131072·i + 25) / 50)`, the Q16 integer nearest `0.04·i` (R161). -/
def gq (i : Nat) : Nat := (131072 * i + 25) / 50

end Sys2Proof.Machine
end

