-- ==== Sys2Proof/Machine/FloatAct.lean ====
section
/-! DEFINITION. The float activation commands (42_float_activations.md). Every one reads F_OPA and
writes F_RES alone (R180). -/

namespace Sys2Proof.Machine

open F32

/-- `C25 = 25.0`, the index scale (R182). -/
def c25 : Word := 0x41C80000#32
/-- `C004 = RN32(0.04)`, the spacing (R182). -/
def c004 : Word := 0x3D23D70A#32
/-- `XMAX = 8.0` (R182). -/
def xMax : Word := 0x41000000#32

/-- The table index of TanhF for a clamped magnitude (R183). -/
def tanhFIndex (ax : Word) : Nat := min (floorNat (add half (mul c25 ax))) 200

/-- TanhF of a non-negative magnitude (R183). -/
def tanhFMag (a : Word) : Word :=
  let ax := fmin a xMax
  let i := tanhFIndex ax
  let dx := sub ax (mul c004 (F32.ofNat i))
  let y := tf i
  let dy := sub one (mul y y)
  let t1 := sub one (mul y dx)
  add y (mul (mul dx dy) t1)

/-- TanhF (R183). -/
def tanhF (x : Word) : Word :=
  if isNaN x then qNaN
  else if lt x posZero then neg (tanhFMag (abs x)) else tanhFMag (abs x)

/-- F_TANH (R185). -/
def execFTanh (s : State) : Host.Outcome State Fault Refusal := .next (s.setFRes (tanhF s.fOpa))

/-- F_SIGMOID (R186): `HALF ⊕ (HALF ⊗ TanhF(HALF ⊗ F_OPA))`. -/
def execFSigmoid (s : State) : Host.Outcome State Fault Refusal :=
  .next (s.setFRes (add half (mul half (tanhF (mul half s.fOpa)))))

/-- `max(0, x)` with a NaN kept and −0.0 read as not positive (R187). -/
def reluF (x : Word) : Word := if isNaN x then qNaN else if lt posZero x then x else posZero

/-- F_RELU (R187). -/
def execFRelu (s : State) : Host.Outcome State Fault Refusal := .next (s.setFRes (reluF s.fOpa))

end Sys2Proof.Machine
end

