-- ==== Sys2Proof/Machine/GainPost.lean ====
section
/-! DEFINITION. The gain post-processor commands (43_gain_postproc.md). -/

namespace Sys2Proof.Machine

open F32

/-- `HALF_PI = RN32(π/2)` (R202). -/
def halfPi : Word := 0x3FC90FDB#32
/-- `QUARTER = 0.25` (R202). -/
def quarter : Word := 0x3E800000#32

/-- PP_INIT (R200). -/
def execPpInit (s : State) : Host.Outcome State Fault Refusal :=
  .next (s.fillBuf .gainState fun _ => posZero)

/-- Steps 1 and 2 of PP_RUN (R206): the S-curve, and the boost of a bin in the speech band whose
shaped gain is strictly above 0.25. For a raw gain of 1.5 these steps give 1.5·sin(3π/4) = 1.0607; R207
remarks 1.0613 there (DEDUCED, the model's choice: R206's steps are followed; log entry 17). -/
def shapedGain (s : State) (k : Nat) : Word :=
  let g := s.elem .gainIn k
  let sh := mul g (sin32 (mul halfPi g))
  if s.sbEn && s.inBand k && lt quarter sh then mul sh s.ppSbFactor else sh

/-- Steps 3 and 4 of PP_RUN (R206): the reverb floor from the previous frame's gain, then the
low-level floor from the raw gain. -/
def flooredGain (s : State) (k : Nat) : Word :=
  fmax (fmax (shapedGain s k) (mul s.ppAlphaReverb (s.elem .gainState k)))
    (mul s.ppAlphaLowLevel (s.elem .gainIn k))

/-- Step 5 of PP_RUN (R206): boost, then the floor, then the ceiling. A raw gain of +0.0 with a negative
boost and a minimum gain of zero gives −0.0, which R208 remarks is possible for a raw gain of −0.0 only
(DEDUCED, the model's choice: R206's steps are followed; log entry 16). -/
def postGain (s : State) (k : Nat) : Word :=
  fmin (fmax (mul (flooredGain s k) s.ppGainBoost) s.ppMinGain) one

/-- PP_RUN (R206): every bin reads the state of the previous frame. -/
def execPpRun (s : State) : Host.Outcome State Fault Refusal :=
  .next (s.fillBuf .gainState (postGain s))

end Sys2Proof.Machine
end

