-- ==== Sys2Proof/Machine/QKernels.lean ====
section
/-! DEFINITION. The fixed-point kernel commands (41_q15_kernels.md). Every one writes ACC alone (R150). -/

namespace Sys2Proof.Machine

/-- Q_CLR (R151). -/
def execQClr (s : State) : Host.Outcome State Fault Refusal := .next (s.setAcc 0)

/-- Q_MUL (R152): `(OPA · OPB) >>a SH`. -/
def execQMul (sh : Nat) (s : State) : Host.Outcome State Fault Refusal :=
  .next (s.setAcc (asr (s.opaInt * s.opbInt) sh))

/-- Q_MAC (R153): `wrap_64(ACC + ((OPA · OPB) >>a SH))`. -/
def execQMac (sh : Nat) (s : State) : Host.Outcome State Fault Refusal :=
  .next (s.setAcc (s.accInt + asr (s.opaInt * s.opbInt) sh))

/-- Q_ADDSH (R154): `wrap_64(ACC + OPA · 2^SH)`. -/
def execQAddsh (sh : Nat) (s : State) : Host.Outcome State Fault Refusal :=
  .next (s.setAcc (s.accInt + s.opaInt * 2 ^ sh))

/-- Q_SAT (R155): `sat(ACC, W)`. -/
def execQSat (w : Nat) (s : State) : Host.Outcome State Fault Refusal :=
  .next (s.setAcc (sat s.accInt w))

/-- Q_SHRSAT (R156): `sat(ACC >>a SH, W)`. -/
def execQShrsat (sh w : Nat) (s : State) : Host.Outcome State Fault Refusal :=
  .next (s.setAcc (sat (asr s.accInt sh) w))

/-- Q_ADDSAT (R157): `sat(OPA + OPB, W)`. -/
def execQAddsat (w : Nat) (s : State) : Host.Outcome State Fault Refusal :=
  .next (s.setAcc (sat (s.opaInt + s.opbInt) w))

/-- Q_INTERP (R158): `(OPC · OPA + (0x7FFF − OPC) · OPB) >>a 15`. -/
def execQInterp (s : State) : Host.Outcome State Fault Refusal :=
  .next (s.setAcc (asr (s.opcInt * s.opaInt + (0x7FFF - s.opcInt) * s.opbInt) 15))

/-- The table index of TanhQ for a clamped magnitude (R162). -/
def tanhQIndex (ax : Nat) : Nat := min ((25 * ax + 32768) / 65536) 200

/-- TanhQ of a non-negative magnitude (R162): the table value plus its correction, clamped to Q15. -/
def tanhQMag (a : Nat) : Int :=
  let ax := min a 524288
  let i := tanhQIndex ax
  let dx : Int := (ax : Int) - gq i
  let y : Int := tq i
  let dy := 32768 - asr (y * y) 15
  let t1 := 32768 - asr (y * dx) 16
  let c := asr (asr (dx * dy) 16 * t1) 15
  min (max (y + c) 0) 32767

/-- TanhQ (R162): Q16 to Q15, the sign restored at the end. -/
def tanhQ (x : Int) : Int := if x < 0 then -tanhQMag x.natAbs else tanhQMag x.natAbs

/-- Q_TANH (R165). -/
def execQTanh (s : State) : Host.Outcome State Fault Refusal := .next (s.setAcc (tanhQ s.opaInt))

/-- Q_SIGMOID (R166): `16384 + (TanhQ(OPA >>a 1) >>a 1)`. -/
def execQSigmoid (s : State) : Host.Outcome State Fault Refusal :=
  .next (s.setAcc (16384 + asr (tanhQ (asr s.opaInt 1)) 1))

/-- Q_RELU (R167). -/
def execQRelu (s : State) : Host.Outcome State Fault Refusal := .next (s.setAcc (max 0 s.opaInt))

end Sys2Proof.Machine
end

