-- ==== Sys2Proof/Machine/Stft.lean ====
section
/-! DEFINITION. The STFT engine commands (40_stft.md). -/

namespace Sys2Proof.Machine

open F32

/-- STFT_INIT (R115): ANA_BUF, SYN_ACC, SPEC_RE, SPEC_IM, MAG and LOGMAG become all +0.0. -/
def execStftInit (s : State) : Host.Outcome State Fault Refusal :=
  .next ((((((s.fillBuf .anaBuf fun _ => posZero).fillBuf .synAcc fun _ => posZero).fillBuf
    .specRe fun _ => posZero).fillBuf .specIm fun _ => posZero).fillBuf
    .mag fun _ => posZero).fillBuf .logmag fun _ => posZero)

/-- ANA_BUF after the shift by R samples and the append of the new hop (R121). -/
def shiftedFrame (s : State) (n : Nat) : Word :=
  if n < s.cfg.n - s.cfg.r then s.elem .anaBuf (n + s.cfg.r)
  else s.elem .inBuf (n - (s.cfg.n - s.cfg.r))

/-- `xw[n] = ANA_BUF[n] ⊗ WIN[n]`, of the shifted buffer (R121). -/
def windowedFrame (s : State) : List Word :=
  (List.range s.cfg.n).map fun n => mul (shiftedFrame s n) (window s.cfg n)

/-- STFT_ANALYZE (R121): shift, append, window, forward transform. ANA_BUF keeps unwindowed samples. -/
def execStftAnalyze (s : State) : Host.Outcome State Fault Refusal :=
  let spec := forward s.cfg (windowedFrame s)
  .next (((s.fillBuf .anaBuf (shiftedFrame s)).fillBuf .specRe fun k => (spec k).1).fillBuf
    .specIm fun k => (spec k).2)

/-- The squared magnitude of bin `k`, doubled for an interior bin (R123). -/
def binMagnitude (s : State) (k : Nat) : Word :=
  let p := add (mul (s.elem .specRe k) (s.elem .specRe k)) (mul (s.elem .specIm k) (s.elem .specIm k))
  if 1 ≤ k ∧ k ≤ s.cfg.n / 2 - 1 then mul two p else p

/-- STFT_MAG (R123). -/
def execStftMag (s : State) : Host.Outcome State Fault Refusal :=
  .next (s.fillBuf .mag (binMagnitude s))

/-- STFT_LOGMAG (R125): `LM_SCALE ⊗ LOG10(MAG[k] ⊕ EPS)`. -/
def execStftLogmag (s : State) : Host.Outcome State Fault Refusal :=
  .next (s.fillBuf .logmag fun k => mul s.lmScale (log10 (add (s.elem .mag k) eps)))

/-- STFT_MASK (R127): both parts of every bin times its gain. -/
def execStftMask (sel : MaskSource) (s : State) : Host.Outcome State Fault Refusal :=
  .next ((s.fillBuf .specRe fun k => mul (s.maskGain sel k) (s.elem .specRe k)).fillBuf
    .specIm fun k => mul (s.maskGain sel k) (s.elem .specIm k))

/-- SYN_ACC after the overlap-add (R132): `SYN_ACC[n] ⊕ ((y[n] ⊗ WIN[n]) ⊗ INVN)`. -/
def overlapAdd (s : State) : List Word :=
  let y := inverse s.cfg s.spectrum
  (List.range s.cfg.n).map fun n =>
    add (s.elem .synAcc n) (mul (mul (y n) (window s.cfg n)) (invN s.cfg))

/-- STFT_SYNTH (R133, R134): overlap-add, output of the first R samples, shift by R with zero refill. -/
def execStftSynth (s : State) : Host.Outcome State Fault Refusal :=
  let acc := overlapAdd s
  .next ((s.fillBuf .outBuf fun i => acc.getD i posZero).fillBuf .synAcc fun n =>
    if n < s.cfg.n - s.cfg.r then acc.getD (n + s.cfg.r) posZero else posZero)

end Sys2Proof.Machine
end

