-- ==== Sys2Proof/Machine/Dispatch.lean ====
section
/-! DEFINITION. The effect of each command (30_encoding.md R94): one arm per constructor of Instr, one
call of its meaning. -/

namespace Sys2Proof.Machine

def exec (i : Instr) (s : State) : Host.Outcome State Fault Refusal :=
  match i with
  | .nop => Sys2Proof.Machine.execNop s
  -- 40_stft.md
  | .stftInit => Sys2Proof.Machine.execStftInit s
  | .stftAnalyze => Sys2Proof.Machine.execStftAnalyze s
  | .stftMag => Sys2Proof.Machine.execStftMag s
  | .stftLogmag => Sys2Proof.Machine.execStftLogmag s
  | .stftMask sel => Sys2Proof.Machine.execStftMask sel s
  | .stftSynth => Sys2Proof.Machine.execStftSynth s
  -- 41_q15_kernels.md
  | .qClr => Sys2Proof.Machine.execQClr s
  | .qMul sh => Sys2Proof.Machine.execQMul sh s
  | .qMac sh => Sys2Proof.Machine.execQMac sh s
  | .qAddsh sh => Sys2Proof.Machine.execQAddsh sh s
  | .qSat w => Sys2Proof.Machine.execQSat w s
  | .qShrsat sh w => Sys2Proof.Machine.execQShrsat sh w s
  | .qAddsat w => Sys2Proof.Machine.execQAddsat w s
  | .qInterp => Sys2Proof.Machine.execQInterp s
  | .qTanh => Sys2Proof.Machine.execQTanh s
  | .qSigmoid => Sys2Proof.Machine.execQSigmoid s
  | .qRelu => Sys2Proof.Machine.execQRelu s
  -- 42_float_activations.md
  | .fTanh => Sys2Proof.Machine.execFTanh s
  | .fSigmoid => Sys2Proof.Machine.execFSigmoid s
  | .fRelu => Sys2Proof.Machine.execFRelu s
  -- 43_gain_postproc.md
  | .ppInit => Sys2Proof.Machine.execPpInit s
  | .ppRun => Sys2Proof.Machine.execPpRun s

end Sys2Proof.Machine
end

