-- ==== Sys2Proof/Machine/Command.lean ====
section
/-! DEFINITION. Serving one event: a command word written to CMD (10_state.md R24, 30_encoding.md R93
to R96), a host read or write (20_memory.md R62, R63), the platform's reset (70_reset_and_hazards.md
R250); and the host-program statements of 30_encoding.md R100 to R102 as events. -/

namespace Sys2Proof.Machine

/-- A word written to CMD (R24): an accepted command runs, a rejected one is recorded and does nothing
else (R93, R95, R235). -/
def runCommand (c : Word) (s : State) : Host.Outcome State Fault Refusal :=
  match decode c with
  | .ok i => exec i s
  | .error .illegalOp => .next (s.illegalOp c)
  | .error .reservedBits => .next (s.reservedBits c)

/-- `MemWrite(addr, 4, v)` and every other write (R63, R65, R236): a bad access is checked first. -/
def busWrite (s : State) (addr : BitVec 16) (size : AccessSize) (v : Word) :
    Host.Outcome State Fault Refusal :=
  if admitted addr size then
    if addr = cmdAddr then runCommand v s else .next (s.writeLoc (locate s.cfg addr) v)
  else .next (s.badAccess addr)

/-- The effect of one event (R17, R20): the block changes state inside a transaction only. -/
def serve (e : Event) (s : State) : Host.Outcome State Fault Refusal :=
  match e with
  | .read addr size => .next (s.busRead addr size)
  | .write addr size v => busWrite s addr size v
  | .reset => .next s.resetBlock
  | .foreignAccess => .refused .secondMaster

/-- The write to CMD that starts the command word `c` (R100). -/
def commandEvent (c : Word) : Event := .write cmdAddr .word c

/-- `wr ADDR, V` (R100); `wrf ADDR, F` is the same with the bits of F. -/
def wr (addr : BitVec 16) (v : Word) : Event := .write addr .word v

/-- `rd ADDR -> NAME` (R100). -/
def rd (addr : BitVec 16) : Event := .read addr .word

/-- `cmd <command>` (R100). -/
def cmd (i : Instr) : Event := commandEvent (encode i)

/-- `BUF[i]` as an address (R100). -/
def elemAddr (b : Buf) (i : Nat) : BitVec 16 := BitVec.ofNat 16 (b.addr i)

/-- The pseudo-commands of R102. -/
inductive Pseudo where
  | qMulq15
  | qSat16
  | qSat19
  | qShrsat19 (sh : Nat)
  | stftMaskPp
  | stftMaskRaw
  | clrerr
  | hop
  | resynth
  deriving DecidableEq, Repr

/-- The expansion of a pseudo-command (R102). -/
def Pseudo.events : Pseudo → List Event
  | .qMulq15 => [cmd (.qMul 15)]
  | .qSat16 => [cmd (.qSat 16)]
  | .qSat19 => [cmd (.qSat 19)]
  | .qShrsat19 sh => [cmd (.qShrsat sh 19)]
  | .stftMaskPp => [cmd (.stftMask .gainState)]
  | .stftMaskRaw => [cmd (.stftMask .gainIn)]
  | .clrerr => [wr 0x0014#16 1#32]
  | .hop => [cmd .stftAnalyze, cmd .stftMag, cmd .stftLogmag]
  | .resynth => [cmd .ppRun, cmd (.stftMask .gainState), cmd .stftSynth]

end Sys2Proof.Machine
end

