-- ==== Sys2Proof/Machine/Step.lean ====
section
/-! DEFINITION. One step of the machine: the host's oldest pending transaction is served (00_scope.md
R17, 10_state.md R21). -/

namespace Sys2Proof.Machine

/-- One step (R17). With no transaction pending nothing happens: the block has no step of its own
(R20). -/
def step (s : State) : Host.Outcome State Fault Refusal :=
  match s.pending with
  | [] => .next s
  | e :: rest => serve e { s with pending := rest }

/-- The state whose next step runs the instruction with the bits `w`: its word is the host's next
transaction, a write to CMD (R24, R100). -/
def State.withFetchWord (s : State) (nbits w : Nat) : State :=
  { s with pending := commandEvent (BitVec.ofNat 32 (w % 2 ^ nbits)) :: s.pending }

end Sys2Proof.Machine
end

