-- ==== Sys2Proof/Safety.lean ====
section
/-! DEFINITION. What counts as a state the block can be in, in the terms the statements use: the
invariant of its memory and of its error record, and the invariant of the synthesis accumulator. -/

namespace Sys2Proof.Machine

/-- Every listed byte lies in an element of one of the buffers (20_memory.md R67): the tail of a
window, the registers, WIN and reserved space hold nothing. -/
abbrev Memory.inBuffers (c : Config) (m : Memory) : Prop :=
  ∀ cell ∈ m, ∃ b ∈ Buf.all, b.base ≤ cell.1 ∧ cell.1 < b.base + 4 * b.len c

/-- ERRCODE and ERRINFO are 0 while ERR is 0 (10_state.md R25, R26); while it is 1, ERRCODE is one of
1, 2, 3 (60_exceptions.md R231: 4 to 7 are never produced). -/
abbrev State.errorRecordOk (s : State) : Prop :=
  if s.err then s.errCode = 1#3 ∨ s.errCode = 2#3 ∨ s.errCode = 3#3
  else s.errCode = 0#3 ∧ s.errInfo = 0#32

/-- The machine invariant: a legal configuration (00_scope.md R7), canonical memory that lies in the
buffers, and a legal error record. -/
abbrev State.Inv (s : State) : Prop :=
  s.cfg.wf ∧ Memory.wf s.mem ∧ Memory.inBuffers s.cfg s.mem ∧ s.errorRecordOk

/-- SYN_ACC[N−R..N−1] are all +0.0 (10_state.md R37, 40_stft.md R136). -/
abbrev State.synTailZero (s : State) : Prop :=
  ∀ n < s.cfg.n, s.cfg.n - s.cfg.r ≤ n → s.elem .synAcc n = F32.posZero

/-- The event stores to a buffer element of `b` (20_memory.md R63, R67). -/
def Event.storesTo (c : Config) (b : Buf) : Event → Bool
  | .write addr size _ =>
    admitted addr size &&
      match locate c addr with
      | .elem b' _ => b' == b
      | _ => false
  | _ => false

/-- A step has an outcome that is a next state. -/
def State.runs (s : State) : Prop := ∃ t, step s = .next t

end Sys2Proof.Machine

namespace Sys2Proof

open Machine

/-- The buffers a command writes (20_memory.md R80). -/
def Instr.writes : Instr → List Buf
  | .stftInit => [.anaBuf, .synAcc, .specRe, .specIm, .mag, .logmag]
  | .stftAnalyze => [.anaBuf, .specRe, .specIm]
  | .stftMag => [.mag]
  | .stftLogmag => [.logmag]
  | .stftMask _ => [.specRe, .specIm]
  | .stftSynth => [.outBuf, .synAcc]
  | .ppInit => [.gainState]
  | .ppRun => [.gainState]
  | .nop => []
  | .qClr => []
  | .qMul _ => []
  | .qMac _ => []
  | .qAddsh _ => []
  | .qSat _ => []
  | .qShrsat _ _ => []
  | .qAddsat _ => []
  | .qInterp => []
  | .qTanh => []
  | .qSigmoid => []
  | .qRelu => []
  | .fTanh => []
  | .fSigmoid => []
  | .fRelu => []

/-- The buffers a command reads (20_memory.md R80); WIN is a constant of the configuration. -/
def Instr.reads : Instr → List Buf
  | .stftInit => []
  | .stftAnalyze => [.anaBuf, .inBuf]
  | .stftMag => [.specRe, .specIm]
  | .stftLogmag => [.mag]
  | .stftMask .gainState => [.specRe, .specIm, .gainState]
  | .stftMask .gainIn => [.specRe, .specIm, .gainIn]
  | .stftSynth => [.specRe, .specIm, .synAcc]
  | .ppInit => []
  | .ppRun => [.gainIn, .gainState]
  | .nop => []
  | .qClr => []
  | .qMul _ => []
  | .qMac _ => []
  | .qAddsh _ => []
  | .qSat _ => []
  | .qShrsat _ _ => []
  | .qAddsat _ => []
  | .qInterp => []
  | .qTanh => []
  | .qSigmoid => []
  | .qRelu => []
  | .fTanh => []
  | .fSigmoid => []
  | .fRelu => []

/-- A kernel command, which writes ACC (20_memory.md R80, 41_q15_kernels.md R150). -/
def Instr.writesAcc (i : Instr) : Bool := i.opcode / 16 == 2

/-- A float activation command, which writes F_RES (20_memory.md R80, 42_float_activations.md R180). -/
def Instr.writesFRes (i : Instr) : Bool := i.opcode / 16 == 3

end Sys2Proof
end

