-- ==== Sys2Proof/Certificates/Slice0/Obligations.lean ====
section
/-! DEFINITION. The statements for the provers. Those of a command say that it answers a next state,
what that state holds, and that everything else is as before: `t = { s with … := t.… }` leaves every
register not named, every byte of memory (unless `mem` is named) and the host's own fields unchanged.
A command that writes buffers leaves every byte outside them as it was (`sameOutside`). -/

namespace Sys2Proof.Spec

open Machine Machine.F32

/-! ## Terms the statements use, from the spec's own tables and pseudocode -/

/-- The rows of spec/opcode_table.json: match word and fixed-bits mask (30_encoding.md R91, R94). -/
def opcodeRows : List (Word × Word) :=
  [(0x00000000#32, 0xFFFFFFFF#32), (0x10000000#32, 0xFFFFFFFF#32), (0x11000000#32, 0xFFFFFFFF#32),
   (0x12000000#32, 0xFFFFFFFF#32), (0x13000000#32, 0xFFFFFFFF#32), (0x14000000#32, 0xFFFFFFFE#32),
   (0x15000000#32, 0xFFFFFFFF#32), (0x20000000#32, 0xFFFFFFFF#32), (0x21000000#32, 0xFFC0FFFF#32),
   (0x22000000#32, 0xFFC0FFFF#32), (0x23000000#32, 0xFFC0FFFF#32), (0x24000000#32, 0xFFFFC0FF#32),
   (0x25000000#32, 0xFFC0C0FF#32), (0x26000000#32, 0xFFFFC0FF#32), (0x27000000#32, 0xFFFFFFFF#32),
   (0x28000000#32, 0xFFFFFFFF#32), (0x29000000#32, 0xFFFFFFFF#32), (0x2A000000#32, 0xFFFFFFFF#32),
   (0x30000000#32, 0xFFFFFFFF#32), (0x31000000#32, 0xFFFFFFFF#32), (0x32000000#32, 0xFFFFFFFF#32),
   (0x40000000#32, 0xFFFFFFFF#32), (0x41000000#32, 0xFFFFFFFF#32)]

/-- OP = `c[31:24]`, in place. -/
def opByte (c : Word) : Word := c &&& 0xFF000000#32

/-- The recording procedure of 60_exceptions.md R238. -/
def cmdError (s : State) (code : BitVec 3) (info : Word) : State :=
  if s.err = false then { s with err := true, errCode := code, errInfo := info } else s

/-- `e` is the host's oldest transaction and `rest` what follows it. -/
abbrev next (s : State) (e : Event) (rest : List Event) : Prop := s.pending = e :: rest

/-- Every byte outside the elements of the buffers `bs` reads after as before. -/
def sameOutside (bs : List Buf) (s t : State) : Prop :=
  ∀ x, (∀ b ∈ bs, x < b.base ∨ b.base + 4 * b.len s.cfg ≤ x) → t.readByte x = s.readByte x

/-- The elements of the buffers `bs` are the same in both states. -/
def sameElems (bs : List Buf) (s t : State) : Prop :=
  ∀ b ∈ bs, ∀ i < b.len s.cfg, t.elem b i = s.elem b i

/-- The registers a command reads (20_memory.md R80, in the detail of the command rules) hold the same
in both states. -/
def sameOperands (i : Instr) (s t : State) : Prop :=
  match i with
  | .qMul _ => s.opa = t.opa ∧ s.opb = t.opb
  | .qMac _ => s.acc = t.acc ∧ s.opa = t.opa ∧ s.opb = t.opb
  | .qAddsh _ => s.acc = t.acc ∧ s.opa = t.opa
  | .qSat _ => s.acc = t.acc
  | .qShrsat _ _ => s.acc = t.acc
  | .qAddsat _ => s.opa = t.opa ∧ s.opb = t.opb
  | .qInterp => s.opa = t.opa ∧ s.opb = t.opb ∧ s.opc = t.opc
  | .qTanh => s.opa = t.opa
  | .qSigmoid => s.opa = t.opa
  | .qRelu => s.opa = t.opa
  | .fTanh => s.fOpa = t.fOpa
  | .fSigmoid => s.fOpa = t.fOpa
  | .fRelu => s.fOpa = t.fOpa
  | .stftLogmag => s.lmScale = t.lmScale
  | .ppRun => s.ppAlphaReverb = t.ppAlphaReverb ∧ s.ppAlphaLowLevel = t.ppAlphaLowLevel ∧
      s.ppMinGain = t.ppMinGain ∧ s.ppGainBoost = t.ppGainBoost ∧ s.ppSbFactor = t.ppSbFactor ∧
      s.ppSbStart = t.ppSbStart ∧ s.ppSbEnd = t.ppSbEnd ∧ s.sbEn = t.sbEn
  | .nop => True
  | .stftInit => True
  | .stftAnalyze => True
  | .stftMag => True
  | .stftMask _ => True
  | .stftSynth => True
  | .qClr => True
  | .ppInit => True

/-- The addresses 20_memory.md R66 marks reserved, and the unused tail of a window (R67). -/
def reservedAddr (c : Config) (a : Nat) : Prop :=
  a % 4 = 0 ∧ a < 0x10000 ∧
    (a ∈ [0x1C, 0x2C, 0x38, 0x3C, 0x48, 0x4C] ∨ (0x74 ≤ a ∧ a < 0x1000) ∨ 0xC000 ≤ a ∨
      (0x5000 + 4 * c.n ≤ a ∧ a < 0x6000) ∨
      ∃ b : Buf, b.base + 4 * b.len c ≤ a ∧ a < b.base + 0x1000)

/-- The read-only locations of 20_memory.md R69. -/
def readOnlyAddr (c : Config) (a : Nat) : Prop :=
  a ∈ [0x00, 0x04, 0x08, 0x0C, 0x18, 0x44] ∨ (a % 4 = 0 ∧ 0x5000 ≤ a ∧ a < 0x5000 + 4 * c.n)

/-- The addresses of the 32-bit registers a host reads back as written: OPA, OPB, OPC, F_OPA, the
tunables and LM_SCALE (10_state.md R27, R29, R31, R33). -/
def plainRegisters : List (BitVec 16) :=
  [0x20#16, 0x24#16, 0x28#16, 0x40#16, 0x50#16, 0x54#16, 0x58#16, 0x5C#16, 0x60#16, 0x64#16, 0x68#16,
   0x70#16]

/-- The magnitude of a pattern of bits 30..0, in units of 2^-149. -/
def unitsOf (m : Nat) : Nat := units (BitVec.ofNat 32 m)

/-- `m` is RN32 of `n/d` units of 2^-149, as bits 30..0 (00_scope.md R13): +Inf from halfway between
the largest finite magnitude and the next power of two on; otherwise the nearest finite magnitude, the
one with an even last bit where another is as near. -/
def IsNearest (m n d : Nat) : Prop :=
  if (2 ^ 25 - 1) * 2 ^ 252 * d ≤ n then m = infBits
  else m < infBits ∧ ∀ m' < infBits,
    |(unitsOf m * d : Int) - n| ≤ |(unitsOf m' * d : Int) - n| ∧
      (|(unitsOf m * d : Int) - n| = |(unitsOf m' * d : Int) - n| → m' ≠ m → m % 2 = 0)

/-- Neither a NaN nor an infinity. -/
def finite (a : Word) : Prop := magBits a < infBits

/-- `m` is RN32 of the real `x ≥ 0` in units of 2^-149, as bits 30..0: `IsNearest` for a real. -/
def IsNearestReal (m : Nat) (x : ℝ) : Prop :=
  if (2 ^ 25 - 1) * 2 ^ 252 ≤ x then m = infBits
  else m < infBits ∧ ∀ m' < infBits,
    |(unitsOf m : ℝ) - x| ≤ |(unitsOf m' : ℝ) - x| ∧
      (|(unitsOf m : ℝ) - x| = |(unitsOf m' : ℝ) - x| → m' ≠ m → m % 2 = 0)

/-- `w = RN32(x)` for a real `x` (00_scope.md R13): an exact zero gives +0.0, any other real the
nearest pattern of its own sign. -/
def IsRN32 (w : Word) (x : ℝ) : Prop :=
  if x = 0 then w = 0x00000000#32
  else (sign w = true ↔ x < 0) ∧ IsNearestReal (magBits w) (|x| * 2 ^ 149)

/-- The real a finite pattern stands for. -/
noncomputable def realOf (a : Word) : ℝ := (value a : ℝ) / 2 ^ 149

/-- One butterfly of 40_stft.md R120 on the array `A`, its two elements written one after the other. -/
def butterfly (tw : Nat → Cplx) (n m h b j : Nat) (A : List Cplx) : List Cplx :=
  let w := tw (j * (n / m))
  let a := A.getD (b + j) (posZero, posZero)
  let c := A.getD (b + j + h) (posZero, posZero)
  let tr := sub (mul w.1 c.1) (mul w.2 c.2)
  let ti := add (mul w.1 c.2) (mul w.2 c.1)
  (A.set (b + j) (add a.1 tr, add a.2 ti)).set (b + j + h) (sub a.1 tr, sub a.2 ti)

/-- The loops of stage `s` of R120, in the order written: `b` in steps of `m`, then `j`. -/
def loopStage (tw : Nat → Cplx) (n s : Nat) (A : List Cplx) : List Cplx :=
  (List.range (n / 2 ^ s)).foldl
    (fun A block => (List.range (2 ^ s / 2)).foldl
      (fun A j => butterfly tw n (2 ^ s) (2 ^ s / 2) (block * 2 ^ s) j A) A) A

/-- The radix-2 procedure of R120 in place, for `n = 2^l`. -/
def loopRadix2 (tw : Nat → Cplx) (l : Nat) (x : Nat → Cplx) : List Cplx :=
  (List.range l).foldl (fun A s => loopStage tw (2 ^ l) (s + 1) A)
    ((List.range (2 ^ l)).map fun j => x (bitrev l j))

/-- `a` is bin `k` of the reference forward transform of `x[0..n−1]` before the scaling (40_stft.md
R120): the in-place loops for a power of two, direct summation in increasing index otherwise. -/
def IsReferenceBin (n : Nat) (x : Nat → Word) (k : Nat) (a : Cplx) : Prop :=
  (∀ l, n = 2 ^ l → (loopRadix2 (twiddleForward n) l fun j => (x j, posZero))[k]? = some a) ∧
  ((∀ l, n ≠ 2 ^ l) → a = (List.range n).foldl
    (fun sum i =>
      let w := twiddleForward n (k * i % n)
      (add sum.1 (mul (x i) w.1), add sum.2 (mul (x i) w.2))) (posZero, posZero))

/-- `y` is sample `i` of the reference inverse transform of `z[0..n−1]` (40_stft.md R129, R130). -/
def IsReferenceSample (n : Nat) (z : Nat → Cplx) (i : Nat) (y : Word) : Prop :=
  (∀ l, n = 2 ^ l → ∃ im, (loopRadix2 (twiddleInverse n) l z)[i]? = some (y, im)) ∧
  ((∀ l, n ≠ 2 ^ l) → y = (List.range n).foldl
    (fun sum k =>
      let w := twiddleInverse n (k * i % n)
      add sum (sub (mul (z k).1 w.1) (mul (z k).2 w.2))) posZero)

/-- The full Hermitian spectrum of 40_stft.md R128 from the K bins in SPEC_RE and SPEC_IM. -/
def fullSpectrum (s : State) (j : Nat) : Cplx :=
  if j = 0 ∨ j = s.cfg.n / 2 then (s.elem .specRe j, 0x00000000#32)
  else if j < s.cfg.n / 2 then (s.elem .specRe j, s.elem .specIm j)
  else (s.elem .specRe (s.cfg.n - j), s.elem .specIm (s.cfg.n - j) ^^^ 0x80000000#32)

/-- The registers a host can read (20_memory.md R66) and the word each shows (10_state.md R23 to R33);
STATUS is laid out by R25. -/
def registerWords (s : State) : List (BitVec 16 × Word) :=
  [(0x0000#16, 0x524B5354#32), (0x0004#16, BitVec.ofNat 32 s.cfg.n), (0x0008#16, BitVec.ofNat 32 s.cfg.r),
   (0x000C#16, BitVec.ofNat 32 (s.cfg.n / 2 + 1)), (0x0010#16, 0#32),
   (0x0014#16, BitVec.ofNat 32 (2 * s.errCode.toNat + s.err.toNat)), (0x0018#16, s.errInfo),
   (0x0020#16, s.opa), (0x0024#16, s.opb), (0x0028#16, s.opc),
   (0x0030#16, BitVec.ofNat 32 (s.acc.toNat % 2 ^ 32)), (0x0034#16, BitVec.ofNat 32 (s.acc.toNat / 2 ^ 32)),
   (0x0040#16, s.fOpa), (0x0044#16, s.fRes), (0x0050#16, s.ppAlphaReverb), (0x0054#16, s.ppAlphaLowLevel),
   (0x0058#16, s.ppMinGain), (0x005C#16, s.ppGainBoost), (0x0060#16, s.ppSbFactor), (0x0064#16, s.ppSbStart),
   (0x0068#16, s.ppSbEnd), (0x006C#16, BitVec.ofNat 32 s.sbEn.toNat), (0x0070#16, s.lmScale)]

/-- The state after `t` hops of the stream `x`: IN_BUF is written with hop `t` and STFT_ANALYZE runs
(40_stft.md R122). -/
def hopState (s : State) (x : Nat → Word) : Nat → State
  | 0 => s
  | t + 1 =>
    match exec .stftAnalyze ((hopState s x t).fillBuf .inBuf fun i => x (t * s.cfg.r + i)) with
    | .next u => u
    | _ => s

/-- Input, ring buffer, accumulator, spectrum, magnitude and output hold zeros only. -/
def silent (s : State) : Prop :=
  ∀ b ∈ [Buf.inBuf, .anaBuf, .synAcc, .specRe, .specIm, .mag, .outBuf], ∀ i < b.len s.cfg,
    isZero (s.elem b i) = true

/-- The loop of 43_gain_postproc.md R206 in place: bin after bin, each written before the next is
read. -/
def ppLoop (s : State) : State :=
  (List.range s.cfg.k).foldl (fun u k => u.setElem .gainState k (postGain u k)) s

/-- The transactions of 70_reset_and_hazards.md R252, the write to the read-only F_RES among them. -/
def resetSequence (c : Config) : List Event :=
  [cmd .stftInit, cmd .ppInit] ++
  (List.range c.r).map (fun i => wr (elemAddr .inBuf i) 0#32) ++
  (List.range c.r).map (fun i => wr (elemAddr .outBuf i) 0#32) ++
  (List.range c.k).map (fun i => wr (elemAddr .gainIn i) 0#32) ++
  [wr 0x20#16 0#32, wr 0x24#16 0#32, wr 0x28#16 0#32, wr 0x30#16 0#32, wr 0x34#16 0#32,
   wr 0x40#16 0#32, wr 0x44#16 0#32, wr 0x50#16 0#32, wr 0x54#16 0#32, wr 0x58#16 0#32, wr 0x5C#16 0x3F800000#32,
   wr 0x60#16 0x3F800000#32, wr 0x64#16 0#32, wr 0x68#16 0#32, wr 0x6C#16 0#32,
   wr 0x70#16 0x3F800000#32, wr 0x14#16 1#32]

/-- The transactions that clear F_RES: an operand of 0 to F_RELU. -/
def clearResult : List Event := [wr 0x40#16 0#32, cmd .fRelu]

end Sys2Proof.Spec

open Sys2Proof Sys2Proof.Machine Sys2Proof.Machine.F32 Sys2Proof.Spec

/-! ## Encoding (30_encoding.md) -/

/-- R103: the listed words are those of their commands and decode to them; the listed rejected words
are rejected for the listed cause. -/
def Obligations.ListedWordsEncodeAndDecode : Prop :=
  (∀ p ∈ [(Instr.qShrsat 16 19, 0x25101200#32), (.qMul 15, 0x210F0000#32), (.qSat 64, 0x24003F00#32),
      (.qSat 1, 0x24000000#32), (.stftMask .gainIn, 0x14000001#32), (.qAddsh 8, 0x23080000#32)],
    encode p.1 = p.2 ∧ decode p.2 = .ok p.1) ∧
  decode 0x16000000#32 = .error .illegalOp ∧ decode 0x12000001#32 = .error .reservedBits ∧
  decode 0x21000100#32 = .error .reservedBits ∧ decode 0xFF0F0F01#32 = .error .illegalOp

/-- R91, R94, R99: every well-formed command, with every operand its fields hold, is read back from
its word. -/
def Obligations.DecodeOfEncodeIsTheCommand : Prop :=
  ∀ i : Instr, i.wf = true → decode (encode i) = .ok i

/-- R97, R98: an accepted word has one meaning, and is the word of it: no bit is dropped. -/
def Obligations.AcceptedWordIsTheEncoding : Prop :=
  ∀ (c : Word) (i : Instr), decode c = .ok i → i.wf = true ∧ encode i = c

/-- R91, R94: a word is accepted exactly when it matches a row of the opcode table under its mask. -/
def Obligations.AcceptedExactlyByTheTable : Prop :=
  ∀ c : Word, (∃ i, decode c = .ok i) ↔ ∃ row ∈ opcodeRows, c &&& row.2 = row.1

/-! ## Commands, errors and the host port (20_memory.md, 60_exceptions.md) -/

/-- R17: a write of an accepted word to CMD executes the whole command as one step, on the state with
that transaction served. -/
def Obligations.StepRunsTheDecodedCommand : Prop :=
  ∀ (s : State) (c : Word) (i : Instr) (rest : List Event),
    next s (.write 0x0010#16 .word c) rest → decode c = .ok i →
    step s = exec i { s with pending := rest }

/-- R95: a word whose OP is no row's is rejected with CmdError(1, c) and has no other effect, whatever
its other bits (R96). -/
def Obligations.UndefinedOpcodeIsRejected : Prop :=
  ∀ (s : State) (c : Word) (rest : List Event),
    next s (.write 0x0010#16 .word c) rest → (∀ row ∈ opcodeRows, opByte c ≠ row.1) →
    step s = .next (cmdError { s with pending := rest } 1#3 c)

/-- R93: a word with a defined OP and a reserved bit of its format set is rejected with CmdError(2, c)
and has no other effect. -/
def Obligations.ReservedBitsAreRejected : Prop :=
  ∀ (s : State) (c : Word) (rest : List Event) (row : Word × Word),
    next s (.write 0x0010#16 .word c) rest → row ∈ opcodeRows → opByte c = row.1 →
    c &&& row.2 &&& 0x00FFFFFF#32 ≠ 0#32 →
    step s = .next (cmdError { s with pending := rest } 2#3 c)

/-- R65: a misaligned access, or one of a byte or a halfword, is rejected: a write changes nothing, a
read returns 0, and CmdError(3, zext_32(addr)) is recorded. -/
def Obligations.BadAccessIsRejected : Prop :=
  ∀ (s : State) (addr : BitVec 16) (size : AccessSize) (v : Word) (rest : List Event),
    addr.toNat % 4 ≠ 0 ∨ size ≠ .word →
    (next s (.write addr size v) rest →
      step s = .next (cmdError { s with pending := rest } 3#3 (addr.zeroExtend 32))) ∧
    (next s (.read addr size) rest →
      step s = .next (cmdError { s with pending := rest, hostData := 0#32 :: s.hostData } 3#3
        (addr.zeroExtend 32)))

/-- R237: while ERR = 1, no step changes ERR, ERRCODE or ERRINFO, but a write to STATUS with bit 0 set
and a reset. -/
def Obligations.FirstErrorIsKept : Prop :=
  ∀ s t : State, s.err = true → step s = .next t →
    (t.err = true ∧ t.errCode = s.errCode ∧ t.errInfo = s.errInfo) ∨
    (∃ v rest, next s (.write 0x0014#16 .word v) rest ∧ v.getLsbD 0 = true) ∨
    ∃ rest, next s .reset rest

/-- R25: the layout of STATUS, its reset value, and the effect of a host write to it. -/
def Obligations.StatusRegister : Prop :=
  (∀ s : State, s.statusWord.getLsbD 0 = s.err ∧ s.statusWord.extractLsb' 1 3 = s.errCode ∧
    s.statusWord.extractLsb' 4 28 = 0#28) ∧
  (∀ c : Config, (State.resetWith c).statusWord = 0#32) ∧
  ∀ (s : State) (v : Word) (rest : List Event), next s (.write 0x0014#16 .word v) rest →
    step s = .next (if v.getLsbD 0 then
      { s with err := false, errCode := 0#3, errInfo := 0#32, pending := rest }
      else { s with pending := rest })

/-- R62, R70: an admitted read returns the word mapped at its address (a register's, an element of WIN,
an element of a buffer) and changes nothing but the data the host receives. -/
def Obligations.ReadHasNoSideEffect : Prop :=
  ∀ (s : State) (addr : BitVec 16) (rest : List Event), addr.toNat % 4 = 0 →
    next s (.read addr .word) rest →
    ∃ v, step s = .next { s with pending := rest, hostData := v :: s.hostData } ∧
      (∀ p ∈ registerWords s, addr = p.1 → v = p.2) ∧
      (s.cfg.wf →
        (∀ i < s.cfg.n, addr.toNat = 0x5000 + 4 * i → v = window s.cfg i) ∧
        ∀ (b : Buf) (i : Nat), i < b.len s.cfg → addr.toNat = b.base + 4 * i → v = s.elem b i)

/-- R23, R24: ID, CFG_N, CFG_R and CFG_K read as their constants, and CMD as 0. -/
def Obligations.IdentificationReads : Prop :=
  ∀ (s : State) (rest : List Event) (p : BitVec 16 × Word),
    p ∈ [(0x0000#16, 0x524B5354#32), (0x0004#16, BitVec.ofNat 32 s.cfg.n),
      (0x0008#16, BitVec.ofNat 32 s.cfg.r), (0x000C#16, BitVec.ofNat 32 (s.cfg.n / 2 + 1)),
      (0x0010#16, 0#32)] →
    next s (.read p.1 .word) rest →
    step s = .next { s with pending := rest, hostData := p.2 :: s.hostData }

/-- R27, R29, R31, R33, R79: a plain register reads back the word written, any pattern; PP_CTRL its
bit 0 (R32). -/
def Obligations.RegisterReadsBackTheWordWritten : Prop :=
  ∀ (s : State) (a : BitVec 16) (v : Word) (rest : List Event),
    a ∈ 0x6C#16 :: plainRegisters → next s (.write a .word v) (.read a .word :: rest) →
    ∃ t u, step s = .next t ∧ step t = .next u ∧
      u.hostData = (if a = 0x6C#16 then v &&& 1#32 else v) :: s.hostData ∧
      t.mem = s.mem ∧ t.acc = s.acc ∧ t.fRes = s.fRes ∧ t.err = s.err ∧ t.errCode = s.errCode ∧
      t.errInfo = s.errInfo ∧ t.cfg = s.cfg ∧
      ∀ a' ∈ 0x6C#16 :: plainRegisters, a' ≠ a →
        t.readLoc (locate t.cfg a') = s.readLoc (locate s.cfg a')

/-- R28: a host write to ACC_LO replaces bits 31..0 only and one to ACC_HI bits 63..32 only. -/
def Obligations.AccHalvesAreWrittenApart : Prop :=
  ∀ (s : State) (v : Word) (rest : List Event),
    (next s (.write 0x0030#16 .word v) rest → ∃ t, step s = .next t ∧
      t = { s with acc := t.acc, pending := rest } ∧
      t.acc.toNat = s.acc.toNat / 2 ^ 32 * 2 ^ 32 + v.toNat) ∧
    (next s (.write 0x0034#16 .word v) rest → ∃ t, step s = .next t ∧
      t = { s with acc := t.acc, pending := rest } ∧
      t.acc.toNat = v.toNat * 2 ^ 32 + s.acc.toNat % 2 ^ 32) ∧
    (next s (.read 0x0030#16 .word) rest → step s =
      .next { s with pending := rest, hostData := BitVec.ofNat 32 (s.acc.toNat % 2 ^ 32) :: s.hostData }) ∧
    (next s (.read 0x0034#16 .word) rest → step s =
      .next { s with pending := rest, hostData := BitVec.ofNat 32 (s.acc.toNat / 2 ^ 32) :: s.hostData })

/-- R63, R67, R74: element `i` of a buffer lies at `base + 4i`, reads back the word written there, and
the write changes no other element. -/
def Obligations.BufferElementReadsBackTheWordWritten : Prop :=
  ∀ (s : State) (b : Buf) (i : Nat) (v : Word) (rest : List Event), s.cfg.wf → i < b.len s.cfg →
    next s (.write (BitVec.ofNat 16 (b.base + 4 * i)) .word v)
      (.read (BitVec.ofNat 16 (b.base + 4 * i)) .word :: rest) →
    ∃ t u, step s = .next t ∧ step t = .next u ∧ u.hostData = v :: s.hostData ∧
      t = { s with mem := t.mem, pending := t.pending } ∧
      (∀ x, x < b.base + 4 * i ∨ b.base + 4 * i + 4 ≤ x → t.readByte x = s.readByte x) ∧
      ∀ (b' : Buf) (j : Nat), j < b'.len s.cfg → (b', j) ≠ (b, i) → t.elem b' j = s.elem b' j

/-- R68: reserved addresses read as 0 and ignore writes; accessing them records nothing. -/
def Obligations.ReservedSpaceIsZeroAndIgnoresWrites : Prop :=
  ∀ (s : State) (a : BitVec 16) (v : Word) (rest : List Event), s.cfg.wf →
    reservedAddr s.cfg a.toNat →
    (next s (.read a .word) rest →
      step s = .next { s with pending := rest, hostData := 0#32 :: s.hostData }) ∧
    (next s (.write a .word v) rest → step s = .next { s with pending := rest })

/-- R69: read-only locations ignore writes, and the write is no error. -/
def Obligations.ReadOnlyLocationsIgnoreWrites : Prop :=
  ∀ (s : State) (a : BitVec 16) (v : Word) (rest : List Event), s.cfg.wf →
    readOnlyAddr s.cfg a.toNat → next s (.write a .word v) rest →
    step s = .next { s with pending := rest }

/-- R60, R235: a step that meets an access by a second master is refused, and every other step, one
with nothing pending included, has a next state. -/
def Obligations.OnlyASecondMasterIsRefused : Prop :=
  ∀ s : State,
    (∀ rest, next s .foreignAccess rest → step s = .refused .secondMaster) ∧
    ((∀ rest, ¬ next s .foreignAccess rest) → ∃ t, step s = .next t)

/-! ## Reset and the machine's invariants (10_state.md, 70_reset_and_hazards.md) -/

/-- R251: the state after reset, item by item, in every legal configuration. -/
def Obligations.StateAfterReset : Prop :=
  ∀ c : Config, c.wf →
    let s := State.resetWith c
    s.statusWord = 0#32 ∧ s.errInfo = 0#32 ∧ s.opa = 0#32 ∧ s.opb = 0#32 ∧ s.opc = 0#32 ∧
    s.acc = 0#64 ∧ s.fOpa = 0#32 ∧ s.fRes = 0#32 ∧ s.lmScale = 0x3F800000#32 ∧ s.ppCtrlWord = 0#32 ∧
    s.ppAlphaReverb = 0#32 ∧ s.ppAlphaLowLevel = 0#32 ∧ s.ppMinGain = 0#32 ∧
    s.ppGainBoost = 0x3F800000#32 ∧ s.ppSbFactor = 0x3F800000#32 ∧ s.ppSbStart = 0#32 ∧
    s.ppSbEnd = 0#32 ∧ (∀ b i, s.elem b i = 0#32) ∧
    (∀ i < c.n, s.readLoc (locate c (BitVec.ofNat 16 (0x5000 + 4 * i))) = window c i) ∧
    s.readReg .id = 0x524B5354#32 ∧ s.readReg .cfgN = BitVec.ofNat 32 c.n ∧
    s.readReg .cfgR = BitVec.ofNat 32 c.r ∧ s.readReg .cfgK = BitVec.ofNat 32 (c.n / 2 + 1)

/-- R250, R251, R253: the reset event takes every state to the state after reset of the same
configuration; the host's own transactions and data are not the block's (log entry 2). -/
def Obligations.ResetEventRestoresTheResetState : Prop :=
  ∀ (s : State) (rest : List Event), next s .reset rest → ∃ t, step s = .next t ∧
    t = { State.resetWith s.cfg with pending := rest, hostData := s.hostData }

/-- The machine invariant holds after reset in every legal configuration. -/
def Obligations.ResetMeetsTheInvariant : Prop :=
  State.reset.Inv ∧ ∀ c : Config, c.wf → (State.resetWith c).Inv

/-- Every step keeps the machine invariant: a legal configuration, canonical memory that lies in the
buffers, and an error record whose ERRCODE is one of 1, 2, 3 while ERR = 1 and 0 with ERRINFO = 0
otherwise (R25, R26, R231). -/
def Obligations.EveryStepKeepsTheInvariant : Prop :=
  ∀ s t : State, s.Inv → step s = .next t → t.Inv

/-- R6, R222, R253: no step changes the configuration, nor with it ID, CFG_N, CFG_R, CFG_K and WIN. -/
def Obligations.NoStepChangesTheConfiguration : Prop :=
  ∀ s t : State, step s = .next t → t.cfg = s.cfg ∧
    (∀ r ∈ [Reg.id, .cfgN, .cfgR, .cfgK], t.readReg r = s.readReg r) ∧
    ∀ i, t.readLoc (.win i) = s.readLoc (.win i)

/-- R136: SYN_ACC[N−R..N−1] are +0.0 after reset, and every step that is no host write to SYN_ACC
keeps them so. -/
def Obligations.AccumulatorTailStaysZero : Prop :=
  (∀ c : Config, (State.resetWith c).synTailZero) ∧
  ∀ s t : State, s.cfg.wf → (∀ e ∈ s.pending.head?, e.storesTo s.cfg .synAcc = false) →
    step s = .next t → s.synTailZero → t.synTailZero

/-- R252: after reset STFT_INIT and PP_INIT change nothing; from any state, the listed transactions
reach the state after reset, but for F_RES and the host's own data. R252 counts F_RES among the
registers written; R29 and R69 make it read-only, so the write to it is ignored (log entry 9, the
model's reading). With `wr F_OPA, 0` and `cmd f.relu` before them, F_RES is cleared as well, and the
transactions reach all of the state after reset. -/
def Obligations.InitialisationReachesTheResetState : Prop :=
  (∀ c : Config, exec .stftInit (State.resetWith c) = .next (State.resetWith c) ∧
    exec .ppInit (State.resetWith c) = .next (State.resetWith c)) ∧
  (∀ s : State, s.Inv → s.pending = resetSequence s.cfg →
    core.run (resetSequence s.cfg).length s =
      .next { State.resetWith s.cfg with fRes := s.fRes, hostData := s.hostData }) ∧
  ∀ s : State, s.Inv → s.pending = clearResult ++ resetSequence s.cfg →
    core.run (clearResult ++ resetSequence s.cfg).length s =
      .next { State.resetWith s.cfg with hostData := s.hostData }

/-! ## Whole-machine rules about the commands (20_memory.md R80, 70_reset_and_hazards.md R266, R271) -/

/-- Every command completes, and writes only what R80 lists: a kernel command ACC, a float activation
F_RES, an STFT or post-processor command the elements of its buffers. -/
def Obligations.CommandsWriteOnlyTheirResults : Prop :=
  ∀ (i : Instr) (s : State), ∃ t, exec i s = .next t ∧
    t = { s with acc := t.acc, fRes := t.fRes, mem := t.mem } ∧
    (i.writesAcc = false → t.acc = s.acc) ∧ (i.writesFRes = false → t.fRes = s.fRes) ∧
    (i.writes = [] → t.mem = s.mem) ∧ sameOutside i.writes s t

/-- What a command writes depends on nothing but the buffers and registers R80 says it reads. -/
def Obligations.CommandsDependOnlyOnTheirOperands : Prop :=
  ∀ (i : Instr) (s s' : State), s.cfg.wf → s'.cfg = s.cfg → sameElems i.reads s s' →
    sameOperands i s s' →
    ∃ t t', exec i s = .next t ∧ exec i s' = .next t' ∧ sameElems i.writes t t' ∧
      (i.writesAcc = true → t'.acc = t.acc) ∧ (i.writesFRes = true → t'.fRes = t.fRes)

/-! ## Control (44_control.md) -/

/-- R220: NOP changes nothing, while ERR = 1 too; a word with OP 0 and any of bits 23..0 set is
CmdError(2). -/
def Obligations.NopChangesNothing : Prop :=
  (∀ s : State, exec .nop s = .next s) ∧
  ∀ (s : State) (c : Word) (rest : List Event), next s (.write 0x0010#16 .word c) rest →
    (c = 0#32 → step s = .next { s with pending := rest }) ∧
    (c ≠ 0#32 → opByte c = 0#32 → step s = .next (cmdError { s with pending := rest } 2#3 c))

/-! ## STFT engine (40_stft.md) -/

/-- R115, R200: STFT_INIT sets ANA_BUF, SYN_ACC, SPEC_RE, SPEC_IM, MAG and LOGMAG, and PP_INIT
GAIN_STATE, to +0.0, and neither changes anything else. -/
def Obligations.InitCommandsClearTheirBuffers : Prop :=
  ∀ (i : Instr) (s : State), s.cfg.wf → i = .stftInit ∨ i = .ppInit →
    ∃ t, exec i s = .next t ∧ t = { s with mem := t.mem } ∧
      (∀ b ∈ (if i = .stftInit then [Buf.anaBuf, .synAcc, .specRe, .specIm, .mag, .logmag]
          else [Buf.gainState]), ∀ k < b.len s.cfg, t.elem b k = 0x00000000#32) ∧
      sameOutside (if i = .stftInit then [.anaBuf, .synAcc, .specRe, .specIm, .mag, .logmag]
          else [.gainState]) s t

/-- R121, R120: STFT_ANALYZE shifts ANA_BUF left by R samples and appends IN_BUF; SPEC is the forward
transform of the shifted buffer times the window; nothing else changes. With FFT_IMPL = REF every bin
is HALF times the sum that R120's algorithm forms (the loops for a power of two, direct summation
otherwise), with +0.0 in the imaginary parts of bins 0 and N/2. -/
def Obligations.AnalyzeShiftsWindowsAndTransforms : Prop :=
  ∀ s : State, s.cfg.wf → ∃ t, exec .stftAnalyze s = .next t ∧ t = { s with mem := t.mem } ∧
    (∀ n < s.cfg.n - s.cfg.r, t.elem .anaBuf n = s.elem .anaBuf (n + s.cfg.r)) ∧
    (∀ i < s.cfg.r, t.elem .anaBuf (s.cfg.n - s.cfg.r + i) = s.elem .inBuf i) ∧
    (∀ k < s.cfg.k, (t.elem .specRe k, t.elem .specIm k) =
      forward s.cfg ((List.range s.cfg.n).map fun n => mul (t.elem .anaBuf n) (window s.cfg n)) k) ∧
    (s.cfg.fftImpl = .ref → ∀ k < s.cfg.k, ∃ a,
      IsReferenceBin s.cfg.n (fun n => mul (t.elem .anaBuf n) (window s.cfg n)) k a ∧
      t.elem .specRe k = mul 0x3F000000#32 a.1 ∧
      t.elem .specIm k = if k = 0 ∨ k = s.cfg.n / 2 then 0x00000000#32 else mul 0x3F000000#32 a.2) ∧
    sameOutside [.anaBuf, .specRe, .specIm] s t

/-- R122: after the `t`-th STFT_ANALYZE of a stream of hops, ANA_BUF holds the newest N samples of the
stream, with zeros before its first. -/
def Obligations.RingBufferHoldsTheNewestSamples : Prop :=
  ∀ (s : State) (x : Nat → Word), s.cfg.wf → (∀ p < s.cfg.n, s.elem .anaBuf p = posZero) →
    ∀ t p, p < s.cfg.n →
      (hopState s x t).elem .anaBuf p =
        if t * s.cfg.r + p < s.cfg.n then posZero else x (t * s.cfg.r + p - s.cfg.n)

/-- R119 (a), (b), R120: whichever transform FFT_IMPL selects, STFT_ANALYZE leaves SPEC_IM[0] and
SPEC_IM[N/2] at +0.0, and an all-zero windowed frame gives zeros in every bin. -/
def Obligations.ForwardTransformOfZerosAndItsEdges : Prop :=
  ∀ s : State, s.cfg.wf → ∃ t, exec .stftAnalyze s = .next t ∧
    t.elem .specIm 0 = posZero ∧ t.elem .specIm (s.cfg.n / 2) = posZero ∧
    ((∀ n < s.cfg.n, isZero (mul (t.elem .anaBuf n) (window s.cfg n)) = true) →
      ∀ k < s.cfg.k, isZero (t.elem .specRe k) = true ∧ isZero (t.elem .specIm k) = true)

/-- R120, R129: the radix-2 transform of the model is the in-place procedure as its loops are
written, on any input and any twiddle factors; `bitrev` reverses the low bits. -/
def Obligations.RadixTwoIsTheInPlaceLoop : Prop :=
  (∀ (tw : Nat → Cplx) (l : Nat) (x : Nat → Cplx), loopRadix2 tw l x = radix2 tw (2 ^ l) x) ∧
  ∀ l j i : Nat, i < l → (bitrev l j).testBit i = j.testBit (l - 1 - i)

/-- R113: the facts of the window. -/
def Obligations.WindowFacts : Prop :=
  (∀ c : Config, c.wf → window c 0 = posZero ∧ window c (c.n / 2) = one ∧
    (∀ n, 1 ≤ n → n ≤ c.n - 1 → window c n = window c (c.n - n)) ∧
    (c.n % 4 = 0 → window c (c.n / 4) = 0x3F3504F3#32)) ∧
  (∀ c : Config, c.n = 4 → (List.range 4).map (window c) =
    [0x00000000#32, 0x3F3504F3#32, 0x3F800000#32, 0x3F3504F3#32]) ∧
  ∀ c : Config, c.n = 8 → (List.range 8).map (window c) =
    [0x00000000#32, 0x3EC3EF15#32, 0x3F3504F3#32, 0x3F6C835E#32, 0x3F800000#32, 0x3F6C835E#32,
      0x3F3504F3#32, 0x3EC3EF15#32]

/-- R123: STFT_MAG writes the squared magnitude of every bin, doubled for the interior bins, and
nothing else. -/
def Obligations.MagIsTheSquaredMagnitude : Prop :=
  ∀ s : State, s.cfg.wf → ∃ t, exec .stftMag s = .next t ∧ t = { s with mem := t.mem } ∧
    (∀ k < s.cfg.k,
      let p := add (mul (s.elem .specRe k) (s.elem .specRe k)) (mul (s.elem .specIm k) (s.elem .specIm k))
      (1 ≤ k ∧ k ≤ s.cfg.n / 2 - 1 → t.elem .mag k = mul 0x40000000#32 p) ∧
      (k = 0 ∨ k = s.cfg.n / 2 → t.elem .mag k = p)) ∧
    sameOutside [.mag] s t

/-- R123: every magnitude is at least +0.0, +Inf, or the canonical NaN; it is NaN exactly when a part
of the bin is NaN. -/
def Obligations.MagnitudesAreNonNegative : Prop :=
  ∀ s : State, s.cfg.wf → ∃ t, exec .stftMag s = .next t ∧ ∀ k < s.cfg.k,
    (t.elem .mag k = qNaN ↔ isNaN (s.elem .specRe k) = true ∨ isNaN (s.elem .specIm k) = true) ∧
    (t.elem .mag k ≠ qNaN → sign (t.elem .mag k) = false ∧ isNaN (t.elem .mag k) = false)

/-- R125: STFT_LOGMAG multiplies LM_SCALE by the logarithm of MAG ⊕ EPS; the corner cases of LOG10;
a silent bin gives −3.0; with a magnitude that is finite and not negative the logarithm is finite. LOG10
of every other operand is LogarithmSeriesIsAccurate. -/
def Obligations.LogmagAndItsCorners : Prop :=
  (∀ s : State, s.cfg.wf → ∃ t, exec .stftLogmag s = .next t ∧ t = { s with mem := t.mem } ∧
    (∀ k < s.cfg.k, t.elem .logmag k = mul s.lmScale (log10 (add (s.elem .mag k) 0x3A83126F#32))) ∧
    sameOutside [.logmag] s t) ∧
  log10 posZero = 0xFF800000#32 ∧ log10 negZero = 0xFF800000#32 ∧ log10 0x7F800000#32 = 0x7F800000#32 ∧
  (∀ v, isNaN v = true ∨ value v < 0 → log10 v = qNaN) ∧
  log10 (add posZero 0x3A83126F#32) = 0xC0400000#32 ∧
  ∀ v, finite v → sign v = false → finite (log10 (add v 0x3A83126F#32))

/-- R127: STFT_MASK multiplies both parts of every bin by its gain, of GAIN_STATE for SEL = 0 and of
GAIN_IN for SEL = 1, and changes nothing else. -/
def Obligations.MaskMultipliesEveryBin : Prop :=
  ∀ (s : State) (sel : MaskSource), s.cfg.wf → ∃ t, exec (.stftMask sel) s = .next t ∧
    t = { s with mem := t.mem } ∧
    (∀ k < s.cfg.k,
      let g := if sel = .gainState then s.elem .gainState k else s.elem .gainIn k
      t.elem .specRe k = mul g (s.elem .specRe k) ∧ t.elem .specIm k = mul g (s.elem .specIm k)) ∧
    sameOutside [.specRe, .specIm] s t

/-- R128 to R134: STFT_SYNTH adds the windowed, scaled inverse transform to the accumulator, outputs
its first R samples, shifts it left by R with zeros behind, and changes nothing else. With
FFT_IMPL = REF every sample of the inverse is what R129 (N a power of two) or R130 gives on the full
Hermitian spectrum of R128. -/
def Obligations.SynthOverlapsAddsAndShifts : Prop :=
  ∀ s : State, s.cfg.wf → ∃ t, exec .stftSynth s = .next t ∧ t = { s with mem := t.mem } ∧
    (let y := inverse s.cfg fun k => (s.elem .specRe k, s.elem .specIm k)
     let acc := fun n =>
       add (s.elem .synAcc n) (mul (mul (y n) (window s.cfg n)) (div one (F32.ofNat s.cfg.n)))
     (s.cfg.fftImpl = .ref → ∀ n < s.cfg.n, IsReferenceSample s.cfg.n (fullSpectrum s) n (y n)) ∧
     (∀ i < s.cfg.r, t.elem .outBuf i = acc i) ∧
     (∀ n < s.cfg.n - s.cfg.r, t.elem .synAcc n = acc (n + s.cfg.r)) ∧
     (∀ n < s.cfg.n, s.cfg.n - s.cfg.r ≤ n → t.elem .synAcc n = posZero)) ∧
    sameElems [.specRe, .specIm] s t ∧ sameOutside [.outBuf, .synAcc] s t

/-- R128, R134: the imaginary parts of bins 0 and N/2 do not affect the result of STFT_SYNTH. -/
def Obligations.SynthIgnoresTheEdgeImaginaries : Prop :=
  ∀ (s : State) (v w : Word), s.cfg.wf →
    ∃ t t', exec .stftSynth s = .next t ∧
      exec .stftSynth ((s.setElem .specIm 0 v).setElem .specIm (s.cfg.n / 2) w) = .next t' ∧
      sameElems [.outBuf, .synAcc] t t'

/-- R137: on silent buffers, with finite gains, each STFT command, PP_INIT and PP_RUN leaves them
silent, and STFT_LOGMAG gives LM_SCALE ⊗ (−3.0) in every bin. -/
def Obligations.SilenceStaysSilent : Prop :=
  ∀ s : State, s.cfg.wf → silent s →
    (∀ k < s.cfg.k, finite (s.elem .gainState k) ∧ finite (s.elem .gainIn k)) →
    (∀ i ∈ [Instr.stftInit, .stftAnalyze, .stftMag, .stftMask .gainState, .stftMask .gainIn, .stftSynth,
        .ppInit, .ppRun],
      ∃ t, exec i s = .next t ∧ silent t) ∧
    ∃ t, exec .stftLogmag s = .next t ∧ silent t ∧
      ∀ k < s.cfg.k, t.elem .logmag k = mul s.lmScale 0xC0400000#32

/-! ## Fixed-point kernels (41_q15_kernels.md) -/

/-- R151, R167: Q_CLR sets ACC to 0 and Q_RELU to max(0, OPA); nothing else changes. -/
def Obligations.ClearAndRelu : Prop :=
  ∀ s : State,
    (∃ t, exec .qClr s = .next t ∧ t = { s with acc := t.acc } ∧ t.acc.toInt = 0) ∧
    ∃ t, exec .qRelu s = .next t ∧ t = { s with acc := t.acc } ∧ t.acc.toInt = max 0 s.opa.toInt

/-- R152: Q_MUL is the exact product, floored after the shift, and fits the accumulator. -/
def Obligations.MultiplyFloorsTheExactProduct : Prop :=
  ∀ (s : State) (sh : Nat), sh ≤ 63 → ∃ t, exec (.qMul sh) s = .next t ∧
    t = { s with acc := t.acc } ∧ t.acc.toInt = ⌊((s.opa.toInt * s.opb.toInt : Int) : ℚ) / 2 ^ sh⌋

/-- R153: Q_MAC adds the floored product to ACC and wraps modulo 2^64 into int64. -/
def Obligations.MultiplyAccumulateWraps : Prop :=
  ∀ (s : State) (sh : Nat), sh ≤ 63 → ∃ t, exec (.qMac sh) s = .next t ∧
    t = { s with acc := t.acc } ∧ ∃ k : Int,
      t.acc.toInt = s.acc.toInt + ⌊((s.opa.toInt * s.opb.toInt : Int) : ℚ) / 2 ^ sh⌋ + k * 2 ^ 64

/-- R154: Q_ADDSH adds OPA·2^SH to ACC and wraps modulo 2^64 into int64. -/
def Obligations.ShiftedAddWraps : Prop :=
  ∀ (s : State) (sh : Nat), sh ≤ 63 → ∃ t, exec (.qAddsh sh) s = .next t ∧
    t = { s with acc := t.acc } ∧ ∃ k : Int,
      t.acc.toInt = s.acc.toInt + s.opa.toInt * 2 ^ sh + k * 2 ^ 64

/-- R155, R156, R157: Q_SAT, Q_SHRSAT and Q_ADDSAT clamp ACC, the floored shift of ACC and the exact
sum OPA + OPB to the signed range of W bits: a value in range is kept, one above or below it becomes
the bound. -/
def Obligations.SaturationClampsToTheWidth : Prop :=
  ∀ (i : Instr) (s : State) (v : Int) (w : Nat), 1 ≤ w → w ≤ 64 →
    (i = .qSat w ∧ v = s.acc.toInt) ∨
    (∃ sh, sh ≤ 63 ∧ i = .qShrsat sh w ∧ v = ⌊(s.acc.toInt : ℚ) / 2 ^ sh⌋) ∨
    (i = .qAddsat w ∧ v = s.opa.toInt + s.opb.toInt) →
    ∃ t, exec i s = .next t ∧ t = { s with acc := t.acc } ∧
      (v < -2 ^ (w - 1) → t.acc.toInt = -2 ^ (w - 1)) ∧
      (2 ^ (w - 1) ≤ v → t.acc.toInt = 2 ^ (w - 1) - 1) ∧
      (-2 ^ (w - 1) ≤ v → v < 2 ^ (w - 1) → t.acc.toInt = v)

/-- R158: Q_INTERP is exact before its floored shift, and fits: the result is below 2^49 in
magnitude; Q15 inputs with interp in 0..0x7FFF give a Q15 result. R158 claims the last of every Q15
interp, which its own formula does not bear out for a negative one (log entry 15). -/
def Obligations.InterpolationIsExact : Prop :=
  ∀ s : State, ∃ t, exec .qInterp s = .next t ∧ t = { s with acc := t.acc } ∧
    t.acc.toInt = ⌊((s.opc.toInt * s.opa.toInt + (0x7FFF - s.opc.toInt) * s.opb.toInt : Int) : ℚ) / 2 ^ 15⌋ ∧
    |t.acc.toInt| < 2 ^ 49 ∧
    (0 ≤ s.opc.toInt → s.opc.toInt ≤ 0x7FFF → -32768 ≤ s.opa.toInt → s.opa.toInt ≤ 32767 →
      -32768 ≤ s.opb.toInt → s.opb.toInt ≤ 32767 → -32768 ≤ t.acc.toInt ∧ t.acc.toInt ≤ 32767)

/-- R162 to R165: Q_TANH takes the steps of R162 on the tables TQ and GQ (`/` floors); it answers in
[−32767, 32767], 0 at 0, 32767 from 8.0 on, −32767 at the least int32, and is odd; nothing but ACC
changes. -/
def Obligations.FixedTanhIsOddAndBounded : Prop :=
  (∀ s : State, ∃ t, exec .qTanh s = .next t ∧ t = { s with acc := t.acc } ∧
    (let ax : Int := min |s.opa.toInt| 524288
     let i : Nat := (min ((25 * ax + 32768) / 2 ^ 16) 200).toNat
     let dx : Int := ax - (131072 * i + 25) / 50
     let y : Int := tq i
     let dy := 32768 - y * y / 2 ^ 15
     let t1 := 32768 - y * dx / 2 ^ 16
     let c := dx * dy / 2 ^ 16 * t1 / 2 ^ 15
     let r := min (max (y + c) 0) 32767
     t.acc.toInt = if s.opa.toInt < 0 then -r else r) ∧
    -32767 ≤ t.acc.toInt ∧ t.acc.toInt ≤ 32767 ∧ (s.opa.toInt = 0 → t.acc.toInt = 0) ∧
    (524288 ≤ s.opa.toInt → t.acc.toInt = 32767) ∧ (s.opa.toInt = -2 ^ 31 → t.acc.toInt = -32767)) ∧
  ∀ (s : State) (x : Word), x.toInt = -s.opa.toInt → ∃ t u, exec .qTanh s = .next t ∧
    exec .qTanh { s with opa := x } = .next u ∧ u.acc.toInt = -t.acc.toInt

/-- R162, R164: the magnitude is clamped before the index is formed, so the index clamp never changes
the index, and the local offset stays within −1311..1311 (R162's comment says 1310; the offset of the
magnitude 3932 is 1311, log entry 8). -/
def Obligations.TanhIndexClampIsIdle : Prop :=
  ∀ a : Nat, tanhQIndex (min a 524288) = (25 * min a 524288 + 32768) / 65536 ∧
    -1311 ≤ (min a 524288 : Int) - gq (tanhQIndex (min a 524288)) ∧
    (min a 524288 : Int) - gq (tanhQIndex (min a 524288)) ≤ 1311

/-- R166: Q_SIGMOID is 16384 plus half of what Q_TANH answers for half of OPA, both halves floored;
its range is 0..32767. -/
def Obligations.FixedSigmoidIsTheTanhIdentity : Prop :=
  ∀ s : State, ∃ t u, exec .qSigmoid s = .next t ∧ t = { s with acc := t.acc } ∧
    exec .qTanh { s with opa := BitVec.ofInt 32 ⌊(s.opa.toInt : ℚ) / 2⌋ } = .next u ∧
    t.acc.toInt = 16384 + ⌊(u.acc.toInt : ℚ) / 2⌋ ∧ 0 ≤ t.acc.toInt ∧ t.acc.toInt ≤ 32767

/-! ## Float activations (42_float_activations.md) -/

/-- R183 to R185: F_TANH takes the steps of R183 on the table TF; it answers the canonical NaN on a
NaN, +0.0 on both zeros, ±0x3F7FFFFC from ±8.0 on, infinities included, the operand itself below the
first grid step (exactly: below the pattern 0x3CA3D70A, log entry 7), and is odd on every other
operand; nothing but F_RES changes. -/
def Obligations.FloatTanhCornersAndOddness : Prop :=
  ∀ s : State, ∃ t u, exec .fTanh s = .next t ∧ t = { s with fRes := t.fRes } ∧
    exec .fTanh { s with fOpa := s.fOpa ^^^ 0x80000000#32 } = .next u ∧
    (isNaN s.fOpa = true → t.fRes = 0x7FC00000#32) ∧
    (isNaN s.fOpa = false →
      let m := s.fOpa &&& 0x7FFFFFFF#32
      let ax := if lt 0x41000000#32 m = true then 0x41000000#32 else m
      let i := min (units (add 0x3F000000#32 (mul 0x41C80000#32 ax)) / 2 ^ 149) 200
      let dx := sub ax (mul 0x3D23D70A#32 (F32.ofNat i))
      let y := tf i
      let dy := sub 0x3F800000#32 (mul y y)
      let t1 := sub 0x3F800000#32 (mul y dx)
      let r := add y (mul (mul dx dy) t1)
      t.fRes = if value s.fOpa < 0 then r ^^^ 0x80000000#32 else r) ∧
    (isZero s.fOpa = true → t.fRes = 0x00000000#32) ∧
    (isNaN s.fOpa = false → sign s.fOpa = false → magBits 0x41000000#32 ≤ magBits s.fOpa →
      t.fRes = 0x3F7FFFFC#32) ∧
    (isZero s.fOpa = false → magBits s.fOpa < 0x3CA3D70A → t.fRes = s.fOpa) ∧
    (isNaN s.fOpa = false → isZero s.fOpa = false → u.fRes = t.fRes ^^^ 0x80000000#32)

/-- R186: F_SIGMOID is HALF ⊕ (HALF ⊗ what F_TANH answers for HALF ⊗ F_OPA), and its corners. -/
def Obligations.FloatSigmoidIsTheTanhIdentity : Prop :=
  ∀ s : State, ∃ t u, exec .fSigmoid s = .next t ∧ t = { s with fRes := t.fRes } ∧
    exec .fTanh { s with fOpa := mul 0x3F000000#32 s.fOpa } = .next u ∧
    t.fRes = add 0x3F000000#32 (mul 0x3F000000#32 u.fRes) ∧
    (isNaN s.fOpa = true → t.fRes = 0x7FC00000#32) ∧
    (isZero s.fOpa = true → t.fRes = 0x3F000000#32) ∧
    (s.fOpa = 0x7F800000#32 → t.fRes = 0x3F7FFFFE#32) ∧
    (s.fOpa = 0xFF800000#32 → t.fRes = 0x34000000#32)

/-- R187: F_RELU answers the canonical NaN on a NaN, the operand where it is above zero, and +0.0
otherwise. -/
def Obligations.FloatRelu : Prop :=
  ∀ s : State, ∃ t, exec .fRelu s = .next t ∧ t = { s with fRes := t.fRes } ∧
    (isNaN s.fOpa = true → t.fRes = 0x7FC00000#32) ∧
    (isNaN s.fOpa = false → 0 < value s.fOpa → t.fRes = s.fOpa) ∧
    (isNaN s.fOpa = false → value s.fOpa ≤ 0 → t.fRes = 0x00000000#32)

/-! ## Gain post-processor (43_gain_postproc.md) -/

/-- R204, R206: PP_RUN writes the post-processed gain of every bin, with the speech-band test of the
configured mode, and nothing else. -/
def Obligations.PostProcessorRunsItsFiveSteps : Prop :=
  ∀ s : State, s.cfg.wf → ∃ t, exec .ppRun s = .next t ∧ t = { s with mem := t.mem } ∧
    (∀ k < s.cfg.k,
      let g := s.elem .gainIn k
      let band := s.cfg.sbRangeMode = .allBins ∨ (s.ppSbStart.toNat ≤ k ∧ k ≤ s.ppSbEnd.toNat)
      let sh1 := mul g (sin32 (mul 0x3FC90FDB#32 g))
      let boosted := s.sbEn = true ∧ band ∧ lt 0x3E800000#32 sh1 = true
      ∃ sh2, (boosted → sh2 = mul sh1 s.ppSbFactor) ∧ (¬boosted → sh2 = sh1) ∧
        let sh3 := fmax sh2 (mul s.ppAlphaReverb (s.elem .gainState k))
        let sh4 := fmax sh3 (mul s.ppAlphaLowLevel g)
        t.elem .gainState k = fmin (fmax (mul sh4 s.ppGainBoost) s.ppMinGain) 0x3F800000#32) ∧
    sameOutside [.gainState] s t

/-- R206: the loop over the bins in place, each bin written before the next is read, gives the same
gains: every bin reads the previous frame's state. -/
def Obligations.PostProcessorLoopReadsThePreviousFrame : Prop :=
  ∀ s : State, s.cfg.wf → ∃ t, exec .ppRun s = .next t ∧
    (∀ x, (ppLoop s).readByte x = t.readByte x) ∧ ppLoop s = { t with mem := (ppLoop s).mem }

/-- R208: with every raw gain and the minimum gain in [0, 1], the other inputs finite and the boost
not zero, every post-processed gain lies between the minimum gain and 1. -/
def Obligations.PostProcessedGainsAreBounded : Prop :=
  ∀ s : State, s.cfg.wf →
    (∀ k < s.cfg.k, isNaN (s.elem .gainIn k) = false ∧ 0 ≤ value (s.elem .gainIn k) ∧
      value (s.elem .gainIn k) ≤ value one ∧ finite (s.elem .gainState k)) →
    isNaN s.ppMinGain = false → 0 ≤ value s.ppMinGain → value s.ppMinGain ≤ value one →
    finite s.ppAlphaReverb → finite s.ppAlphaLowLevel → finite s.ppSbFactor → finite s.ppGainBoost →
    isZero s.ppGainBoost = false →
    ∃ t, exec .ppRun s = .next t ∧ ∀ k < s.cfg.k, isNaN (t.elem .gainState k) = false ∧
      value s.ppMinGain ≤ value (t.elem .gainState k) ∧ value (t.elem .gainState k) ≤ value one

/-! ## Binary32 and the elementary functions (00_scope.md R13 to R15) -/

/-- R13: the model's rounding of a rational is to the nearest binary32 magnitude, ties to even, with
subnormals, and to +Inf beyond the largest finite one. -/
def Obligations.RoundingIsToTheNearestEven : Prop :=
  ∀ n d : Nat, 0 < d → IsNearest (roundMag n d) n d

/-- R13, R14: `⊕ ⊖ ⊗ ⊘` round the exact result of finite operands once; a NaN operand gives the
canonical NaN. What R13 leaves to IEEE 754 is log entry 13, the model's reading: the sign of a product,
of a quotient and of an exactly zero sum or difference, and the results with an infinite operand or a
zero divisor. -/
def Obligations.OperatorsRoundOnce : Prop :=
  (∀ a b : Word, finite a → finite b →
    (sign (mul a b) = (sign a != sign b) ∧
      IsNearest (magBits (mul a b)) (units a * units b) (2 ^ 149)) ∧
    (isZero b = false → sign (div a b) = (sign a != sign b) ∧
      IsNearest (magBits (div a b)) (units a * 2 ^ 149) (units b)) ∧
    (value a + value b ≠ 0 → sign (add a b) = decide (value a + value b < 0) ∧
      IsNearest (magBits (add a b)) (value a + value b).natAbs 1) ∧
    (value a + value b = 0 → magBits (add a b) = 0 ∧ sign (add a b) = (sign a && sign b)) ∧
    (value a - value b ≠ 0 → sign (sub a b) = decide (value a - value b < 0) ∧
      IsNearest (magBits (sub a b)) (value a - value b).natAbs 1) ∧
    (value a - value b = 0 → magBits (sub a b) = 0 ∧ sign (sub a b) = (sign a && !sign b)) ∧
    (isZero b = true → isZero a = true → div a b = qNaN) ∧
    (isZero b = true → isZero a = false →
      sign (div a b) = (sign a != sign b) ∧ magBits (div a b) = infBits)) ∧
  (∀ a b : Word, isInf a = true → isNaN b = false →
    (isInf b = true → sign b ≠ sign a → add a b = qNaN) ∧
    (isInf b = false ∨ sign b = sign a → add a b = a ∧ add b a = a) ∧
    (isInf b = true → sign b = sign a → sub a b = qNaN) ∧
    (isInf b = false ∨ sign b ≠ sign a → sub a b = a ∧ sub b a = a ^^^ 0x80000000#32) ∧
    (isZero b = true → mul a b = qNaN ∧ mul b a = qNaN) ∧
    (isZero b = false → sign (mul a b) = (sign a != sign b) ∧ magBits (mul a b) = infBits ∧
      mul b a = mul a b) ∧
    (isInf b = true → div a b = qNaN) ∧
    (isInf b = false → sign (div a b) = (sign a != sign b) ∧ magBits (div a b) = infBits ∧
      sign (div b a) = (sign a != sign b) ∧ magBits (div b a) = 0)) ∧
  ∀ a b : Word, isNaN a = true ∨ isNaN b = true →
    add a b = qNaN ∧ sub a b = qNaN ∧ mul a b = qNaN ∧ div a b = qNaN

/-- R15, R112, R118, R203: the power series the sine is computed by is within 8 units of 2^-192 of the
sine, on every angle up to π/2; an enclosure that decides gives RN32 of every real in it; where it does
not decide, the exact search takes its place. So sin32 of every finite operand, the sine and cosine of
every part of a turn, the window and the twiddle factors are RN32 of their exact real. sin32 is +0.0 at ±0.0, the canonical NaN at ±Inf and NaN, and 1.0 at HALF_PI. -/
def Obligations.SineSeriesIsAccurate : Prop :=
  (∀ x : Nat, x ≤ halfPi192 →
    |(sinFix x : ℝ) - 2 ^ 192 * Real.sin ((x : ℝ) / 2 ^ 192)| ≤ 8) ∧
  (∀ (lo hi : Nat) (x : ℝ), (lo : ℝ) ≤ x → x ≤ hi → decides lo hi = true →
    IsNearestReal (roundFix lo) (x / 2 ^ 43)) ∧
  (∀ a : Word, finite a → IsRN32 (sin32 a) (Real.sin (realOf a))) ∧
  (∀ a : Word, isZero a = true → sin32 a = 0x00000000#32) ∧
  (∀ a : Word, isNaN a = true ∨ isInf a = true → sin32 a = 0x7FC00000#32) ∧
  sin32 0x3FC90FDB#32 = 0x3F800000#32 ∧
  (∀ p q : Nat, 0 < q →
    IsRN32 (sinPi p q) (Real.sin (Real.pi * p / q)) ∧ IsRN32 (cosPi p q) (Real.cos (Real.pi * p / q))) ∧
  ∀ c : Config, c.wf → ∀ n < c.n,
    IsRN32 (window c n) (Real.sqrt (0.5 - 0.5 * Real.cos (2 * Real.pi * n / c.n))) ∧
    IsRN32 (twiddleForward c.n n).1 (Real.cos (2 * Real.pi * n / c.n)) ∧
    IsRN32 (twiddleForward c.n n).2 (-Real.sin (2 * Real.pi * n / c.n)) ∧
    IsRN32 (twiddleInverse c.n n).1 (Real.cos (2 * Real.pi * n / c.n)) ∧
    IsRN32 (twiddleInverse c.n n).2 (Real.sin (2 * Real.pi * n / c.n))

/-- R15, R125: the series the logarithm is computed by is within 16 units of 2^-192 of the natural
logarithm of a ratio between 1 and 2, and LOG10 of every finite positive operand is RN32 of its exact
decimal logarithm. -/
def Obligations.LogarithmSeriesIsAccurate : Prop :=
  (∀ n d : Nat, 0 < d → d ≤ n → n ≤ 2 * d →
    |(lnFix n d : ℝ) - 2 ^ 192 * Real.log ((n : ℝ) / d)| ≤ 16) ∧
  ∀ v : Word, finite v → 0 < value v → IsRN32 (log10 v) (Real.logb 10 (realOf v))
end

