-- ==== Sys2Proof/Laws/Memory.lean ====
section
/-! SUPPORT. What the memory operations do: a read after a write, everything outside a write, and the
canonical form. -/

namespace Sys2Proof.Machine.Memory

theorem wordOfBytes_bytesOfWord (w : Word) :
    wordOfBytes (w.extractLsb' 0 8) (w.extractLsb' 8 8) (w.extractLsb' 16 8) (w.extractLsb' 24 8) = w := by
  apply BitVec.eq_of_getLsbD_eq
  intro i hi
  simp only [wordOfBytes, BitVec.getLsbD_append, BitVec.getLsbD_extractLsb']
  by_cases h1 : i < 8
  · simp [h1]
  · by_cases h2 : i < 16
    · have : i - 8 < 8 := by omega
      simp [h1, this, show 8 + (i - 8) = i by omega]
    · by_cases h3 : i < 24
      · have a : ¬ i - 8 < 8 := by omega
        have b : i - 8 - 8 < 8 := by omega
        simp [h1, a, b, show 16 + (i - 8 - 8) = i by omega]
      · have a : ¬ i - 8 < 8 := by omega
        have b : ¬ i - 8 - 8 < 8 := by omega
        have c : i - 8 - 8 - 8 < 8 := by omega
        simp [h1, a, b, c, show 24 + (i - 8 - 8 - 8) = i by omega]

@[simp] theorem length_bytesOfWord (w : Word) : (bytesOfWord w).length = 4 := rfl

theorem length_flatMap_bytesOfWord (ws : List Word) :
    (ws.flatMap bytesOfWord).length = 4 * ws.length := by
  induction ws with
  | nil => rfl
  | cons w ws ih => simp [ih]; omega

theorem readByte_append_of_not_mem (m m' : Memory) (x : Nat) (h : ∀ c ∈ m, c.1 ≠ x) :
    readByte (m ++ m') x = readByte m' x := by
  induction m with
  | nil => rfl
  | cons c m ih =>
    have hc : x ≠ c.1 := fun e => h c (by simp) e.symm
    simp only [List.cons_append, readByte, if_neg hc]
    exact ih fun d hd => h d (by simp [hd])

theorem readByte_of_not_mem (m : Memory) (x : Nat) (h : ∀ c ∈ m, c.1 ≠ x) : readByte m x = 0#8 := by
  simpa [readByte] using readByte_append_of_not_mem m [] x h

/-- A filter that keeps every cell at `x` does not change what `x` reads as, with more cells after it
that do not list `x`. -/
theorem readByte_filter_append (m m' : Memory) (p : Host.Cell → Bool) (x : Nat)
    (hp : ∀ c : Host.Cell, c.1 = x → p c = true) (h : ∀ c ∈ m', c.1 ≠ x) :
    readByte (m.filter p ++ m') x = readByte m x := by
  induction m with
  | nil => simpa [readByte] using readByte_of_not_mem m' x h
  | cons c m ih =>
    by_cases hx : x = c.1
    · have : p c = true := hp c hx.symm
      simp [this, readByte, hx]
    · by_cases hc : p c = true
      · simp [hc, readByte, hx, ih]
      · simp [hc, readByte, hx, ih]

theorem cells_range (addr : Nat) (bs : List Byte) :
    ∀ c ∈ cells addr bs, addr ≤ c.1 ∧ c.1 < addr + bs.length := by
  induction bs generalizing addr with
  | nil => simp [cells]
  | cons b bs ih =>
    intro c hc
    have key : ∀ c ∈ cells (addr + 1) bs, addr ≤ c.1 ∧ c.1 < addr + (bs.length + 1) := by
      intro c hc
      have := ih (addr + 1) c hc
      omega
    by_cases hb : b = 0#8
    · simp only [cells, if_pos hb] at hc
      simpa using key c hc
    · simp only [cells, if_neg hb, List.mem_cons] at hc
      rcases hc with rfl | hc
      · simp
      · simpa using key c hc

theorem cells_ne_zero (addr : Nat) (bs : List Byte) : ∀ c ∈ cells addr bs, c.2 ≠ 0#8 := by
  induction bs generalizing addr with
  | nil => simp [cells]
  | cons b bs ih =>
    intro c hc
    by_cases hb : b = 0#8
    · simp only [cells, if_pos hb] at hc
      exact ih _ c hc
    · simp only [cells, if_neg hb, List.mem_cons] at hc
      rcases hc with rfl | hc
      · exact hb
      · exact ih _ c hc

theorem cells_pairwise (addr : Nat) (bs : List Byte) :
    (cells addr bs).Pairwise (fun a b => a.1 < b.1) := by
  induction bs generalizing addr with
  | nil => simp [cells]
  | cons b bs ih =>
    by_cases hb : b = 0#8
    · simpa only [cells, if_pos hb] using ih (addr + 1)
    · simp only [cells, if_neg hb, List.pairwise_cons]
      refine ⟨fun c hc => ?_, ih (addr + 1)⟩
      have := cells_range (addr + 1) bs c hc
      omega

theorem readByte_cells (addr : Nat) (bs : List Byte) (x : Nat) (m : Memory)
    (hm : ∀ c ∈ m, addr + bs.length ≤ c.1) (hx : addr ≤ x) (hx' : x < addr + bs.length) :
    readByte (cells addr bs ++ m) x = bs.getD (x - addr) 0#8 := by
  induction bs generalizing addr with
  | nil => simp at hx'; omega
  | cons b bs ih =>
    have hm' : ∀ c ∈ m, addr + 1 + bs.length ≤ c.1 := by
      intro c hc
      have := hm c hc
      rw [List.length_cons] at this; omega
    by_cases hxa : x = addr
    · subst hxa
      by_cases hb : b = 0#8
      · subst hb
        simp only [cells, if_true, Nat.sub_self, List.getD_cons_zero]
        apply readByte_of_not_mem
        intro c hc
        rcases List.mem_append.1 hc with hc | hc
        · have := cells_range _ _ c hc; omega
        · have := hm' c hc; omega
      · simp [cells, hb, readByte]
    · have e : x - addr = (x - (addr + 1)) + 1 := by omega
      have := ih (addr + 1) hm' (by omega) (by simp at hx'; omega)
      by_cases hb : b = 0#8
      · simp only [cells, if_pos hb]
        rw [this, e, List.getD_cons_succ]
      · simp only [cells, if_neg hb, List.cons_append, readByte, if_neg hxa]
        rw [this, e, List.getD_cons_succ]

/-- A byte outside a write reads as before. -/
theorem readByte_writeWords_outside (m : Memory) (addr : Nat) (ws : List Word) (x : Nat)
    (h : x < addr ∨ addr + 4 * ws.length ≤ x) : readByte (writeWords m addr ws) x = readByte m x := by
  have hlen := length_flatMap_bytesOfWord ws
  rw [writeWords, List.append_assoc]
  rcases h with h | h
  · apply readByte_filter_append
    · intro c hc; simp [hc, h]
    · intro c hc
      rcases List.mem_append.1 hc with hc | hc
      · have := cells_range _ _ c hc; omega
      · have := (List.mem_filter.1 hc).2
        simp at this; omega
  · rw [readByte_append_of_not_mem, readByte_append_of_not_mem]
    · have := readByte_filter_append m [] (fun c => decide (addr + 4 * ws.length ≤ c.1)) x
        (by intro c hc; simp [hc, h]) (by simp)
      simpa using this
    · intro c hc
      have := cells_range _ _ c hc; omega
    · intro c hc
      have := (List.mem_filter.1 hc).2
      simp at this; omega

/-- A byte inside a write reads as the byte written. -/
theorem readByte_writeWords_inside (m : Memory) (addr : Nat) (ws : List Word) (x : Nat)
    (h : addr ≤ x) (h' : x < addr + 4 * ws.length) :
    readByte (writeWords m addr ws) x = (ws.flatMap bytesOfWord).getD (x - addr) 0#8 := by
  have hlen := length_flatMap_bytesOfWord ws
  rw [writeWords, List.append_assoc, readByte_append_of_not_mem, readByte_cells]
  · intro c hc
    have := (List.mem_filter.1 hc).2
    simp at this; omega
  · exact h
  · omega
  · intro c hc
    have := (List.mem_filter.1 hc).2
    simp at this; omega

theorem getD_flatMap_bytesOfWord (ws : List Word) (i j : Nat) (hi : i < ws.length) (hj : j < 4) :
    (ws.flatMap bytesOfWord).getD (4 * i + j) 0#8 = (bytesOfWord ws[i]).getD j 0#8 := by
  induction ws generalizing i with
  | nil => simp at hi
  | cons w ws ih =>
    cases i with
    | zero =>
      simp only [List.flatMap_cons, List.getElem_cons_zero]
      rw [List.getD_append _ _ _ _ (by simpa using hj)]
      simp
    | succ i =>
      simp only [List.flatMap_cons, List.getElem_cons_succ]
      rw [List.getD_append_right _ _ _ _ (by simp; omega)]
      simpa [show 4 * (i + 1) + j - 4 = 4 * i + j by omega] using ih i (by simpa using hi)

/-- A word inside a write reads as the word written. -/
theorem readWord_writeWords_inside (m : Memory) (addr : Nat) (ws : List Word) (i : Nat)
    (hi : i < ws.length) : readWord (writeWords m addr ws) (addr + 4 * i) = ws[i] := by
  have key : ∀ j < 4, readByte (writeWords m addr ws) (addr + 4 * i + j) =
      (bytesOfWord ws[i]).getD j 0#8 := by
    intro j hj
    rw [readByte_writeWords_inside _ _ _ _ (by omega) (by omega),
      show addr + 4 * i + j - addr = 4 * i + j by omega]
    exact getD_flatMap_bytesOfWord ws i j hi hj
  have k0 := key 0 (by decide)
  have k1 := key 1 (by decide)
  have k2 := key 2 (by decide)
  have k3 := key 3 (by decide)
  rw [Nat.add_zero] at k0
  rw [readWord, k0, k1, k2, k3]
  exact wordOfBytes_bytesOfWord ws[i]

/-- A word outside a write reads as before. -/
theorem readWord_writeWords_outside (m : Memory) (addr : Nat) (ws : List Word) (x : Nat)
    (h : x + 4 ≤ addr ∨ addr + 4 * ws.length ≤ x) :
    readWord (writeWords m addr ws) x = readWord m x := by
  unfold readWord
  rw [readByte_writeWords_outside _ _ _ _ (by omega), readByte_writeWords_outside _ _ _ _ (by omega),
    readByte_writeWords_outside _ _ _ _ (by omega), readByte_writeWords_outside _ _ _ _ (by omega)]

/-- A write keeps the canonical form. -/
theorem wf_writeWords {m : Memory} (h : wf m) (addr : Nat) (ws : List Word) :
    wf (writeWords m addr ws) := by
  have hlen := length_flatMap_bytesOfWord ws
  refine ⟨?_, ?_⟩
  · rw [writeWords, List.append_assoc]
    refine List.pairwise_append.2 ⟨h.1.filter _, List.pairwise_append.2
      ⟨cells_pairwise _ _, h.1.filter _, ?_⟩, ?_⟩
    · intro a ha b hb
      have h1 := cells_range _ _ a ha
      have h2 := (List.mem_filter.1 hb).2
      simp at h2; omega
    · intro a ha b hb
      have h1 := (List.mem_filter.1 ha).2
      simp at h1
      rcases List.mem_append.1 hb with hb | hb
      · have := cells_range _ _ b hb; omega
      · have h2 := (List.mem_filter.1 hb).2
        simp at h2; omega
  · intro c hc
    rw [writeWords, List.append_assoc] at hc
    rcases List.mem_append.1 hc with hc | hc
    · exact h.2 c (List.mem_filter.1 hc).1
    · rcases List.mem_append.1 hc with hc | hc
      · exact cells_ne_zero _ _ c hc
      · exact h.2 c (List.mem_filter.1 hc).1

/-- A cell after a write was listed before, or lies in the write. -/
theorem mem_writeWords {m : Memory} {addr : Nat} {ws : List Word} {c : Host.Cell}
    (hc : c ∈ writeWords m addr ws) : c ∈ m ∨ (addr ≤ c.1 ∧ c.1 < addr + 4 * ws.length) := by
  have hlen := length_flatMap_bytesOfWord ws
  rw [writeWords, List.append_assoc] at hc
  rcases List.mem_append.1 hc with hc | hc
  · exact .inl (List.mem_filter.1 hc).1
  · rcases List.mem_append.1 hc with hc | hc
    · have := cells_range _ _ c hc; exact .inr (by omega)
    · exact .inl (List.mem_filter.1 hc).1

/-- Two canonical memories that read alike everywhere are equal. -/
theorem eq_of_readByte_eq {m m' : Memory} (h : wf m) (h' : wf m')
    (e : ∀ x, readByte m x = readByte m' x) : m = m' := by
  induction m generalizing m' with
  | nil =>
    cases m' with
    | nil => rfl
    | cons c m' =>
      have := e c.1
      simp [readByte] at this
      exact absurd this.symm (h'.2 c (by simp))
  | cons c m ih =>
    obtain ⟨hp, hz⟩ := h
    rw [List.pairwise_cons] at hp
    cases m' with
    | nil =>
      have := e c.1
      simp [readByte] at this
      exact absurd this (hz c (by simp))
    | cons c' m' =>
      obtain ⟨hp', hz'⟩ := h'
      rw [List.pairwise_cons] at hp'
      have ne : ∀ x < c.1, readByte (c :: m) x = 0#8 := fun x hx => readByte_of_not_mem _ _ (by
        intro d hd
        rcases List.mem_cons.1 hd with rfl | hd
        · omega
        · have := hp.1 d hd; omega)
      have ne' : ∀ x < c'.1, readByte (c' :: m') x = 0#8 := fun x hx => readByte_of_not_mem _ _ (by
        intro d hd
        rcases List.mem_cons.1 hd with rfl | hd
        · omega
        · have := hp'.1 d hd; omega)
      have ea : c.1 = c'.1 := by
        rcases Nat.lt_trichotomy c.1 c'.1 with hlt | heq | hlt
        · have := e c.1
          rw [ne' _ hlt] at this
          simp [readByte] at this
          exact absurd this (hz c (by simp))
        · exact heq
        · have := e c'.1
          rw [ne _ hlt] at this
          simp [readByte] at this
          exact absurd this.symm (hz' c' (by simp))
      have eb : c.2 = c'.2 := by
        have := e c.1
        simpa [readByte, ea] using this
      have et : m = m' := by
        apply ih ⟨hp.2, fun d hd => hz d (by simp [hd])⟩ ⟨hp'.2, fun d hd => hz' d (by simp [hd])⟩
        intro x
        by_cases hx : x = c.1
        · rw [readByte_of_not_mem m x, readByte_of_not_mem m' x]
          · intro d hd; have := hp'.1 d hd; omega
          · intro d hd; have := hp.1 d hd; omega
        · have := e x
          simpa [readByte, hx, ea ▸ hx] using this
      rw [Prod.ext ea eb, et]

end Sys2Proof.Machine.Memory
end

