-- ==== Sys2Proof/Laws/State.lean ====
section
/-! SUPPORT. One lemma per field per update of the state, true by rfl, and for the recording of an error
and the reset what every field becomes. -/

namespace Sys2Proof.Machine.State

section setAcc
variable (s : State) (v : Int)
@[simp] theorem setAcc_cfg : (s.setAcc v).cfg = s.cfg := rfl
@[simp] theorem setAcc_err : (s.setAcc v).err = s.err := rfl
@[simp] theorem setAcc_errCode : (s.setAcc v).errCode = s.errCode := rfl
@[simp] theorem setAcc_errInfo : (s.setAcc v).errInfo = s.errInfo := rfl
@[simp] theorem setAcc_opa : (s.setAcc v).opa = s.opa := rfl
@[simp] theorem setAcc_opb : (s.setAcc v).opb = s.opb := rfl
@[simp] theorem setAcc_opc : (s.setAcc v).opc = s.opc := rfl
@[simp] theorem setAcc_acc : (s.setAcc v).acc = int64 v := rfl
@[simp] theorem setAcc_fOpa : (s.setAcc v).fOpa = s.fOpa := rfl
@[simp] theorem setAcc_fRes : (s.setAcc v).fRes = s.fRes := rfl
@[simp] theorem setAcc_lmScale : (s.setAcc v).lmScale = s.lmScale := rfl
@[simp] theorem setAcc_sbEn : (s.setAcc v).sbEn = s.sbEn := rfl
@[simp] theorem setAcc_ppAlphaReverb : (s.setAcc v).ppAlphaReverb = s.ppAlphaReverb := rfl
@[simp] theorem setAcc_ppAlphaLowLevel : (s.setAcc v).ppAlphaLowLevel = s.ppAlphaLowLevel := rfl
@[simp] theorem setAcc_ppMinGain : (s.setAcc v).ppMinGain = s.ppMinGain := rfl
@[simp] theorem setAcc_ppGainBoost : (s.setAcc v).ppGainBoost = s.ppGainBoost := rfl
@[simp] theorem setAcc_ppSbFactor : (s.setAcc v).ppSbFactor = s.ppSbFactor := rfl
@[simp] theorem setAcc_ppSbStart : (s.setAcc v).ppSbStart = s.ppSbStart := rfl
@[simp] theorem setAcc_ppSbEnd : (s.setAcc v).ppSbEnd = s.ppSbEnd := rfl
@[simp] theorem setAcc_mem : (s.setAcc v).mem = s.mem := rfl
@[simp] theorem setAcc_pending : (s.setAcc v).pending = s.pending := rfl
@[simp] theorem setAcc_hostData : (s.setAcc v).hostData = s.hostData := rfl
end setAcc

section setFRes
variable (s : State) (v : Word)
@[simp] theorem setFRes_cfg : (s.setFRes v).cfg = s.cfg := rfl
@[simp] theorem setFRes_err : (s.setFRes v).err = s.err := rfl
@[simp] theorem setFRes_errCode : (s.setFRes v).errCode = s.errCode := rfl
@[simp] theorem setFRes_errInfo : (s.setFRes v).errInfo = s.errInfo := rfl
@[simp] theorem setFRes_opa : (s.setFRes v).opa = s.opa := rfl
@[simp] theorem setFRes_opb : (s.setFRes v).opb = s.opb := rfl
@[simp] theorem setFRes_opc : (s.setFRes v).opc = s.opc := rfl
@[simp] theorem setFRes_acc : (s.setFRes v).acc = s.acc := rfl
@[simp] theorem setFRes_fOpa : (s.setFRes v).fOpa = s.fOpa := rfl
@[simp] theorem setFRes_fRes : (s.setFRes v).fRes = v := rfl
@[simp] theorem setFRes_lmScale : (s.setFRes v).lmScale = s.lmScale := rfl
@[simp] theorem setFRes_sbEn : (s.setFRes v).sbEn = s.sbEn := rfl
@[simp] theorem setFRes_ppAlphaReverb : (s.setFRes v).ppAlphaReverb = s.ppAlphaReverb := rfl
@[simp] theorem setFRes_ppAlphaLowLevel : (s.setFRes v).ppAlphaLowLevel = s.ppAlphaLowLevel := rfl
@[simp] theorem setFRes_ppMinGain : (s.setFRes v).ppMinGain = s.ppMinGain := rfl
@[simp] theorem setFRes_ppGainBoost : (s.setFRes v).ppGainBoost = s.ppGainBoost := rfl
@[simp] theorem setFRes_ppSbFactor : (s.setFRes v).ppSbFactor = s.ppSbFactor := rfl
@[simp] theorem setFRes_ppSbStart : (s.setFRes v).ppSbStart = s.ppSbStart := rfl
@[simp] theorem setFRes_ppSbEnd : (s.setFRes v).ppSbEnd = s.ppSbEnd := rfl
@[simp] theorem setFRes_mem : (s.setFRes v).mem = s.mem := rfl
@[simp] theorem setFRes_pending : (s.setFRes v).pending = s.pending := rfl
@[simp] theorem setFRes_hostData : (s.setFRes v).hostData = s.hostData := rfl
end setFRes

section fillBuf
variable (s : State) (b : Buf) (f : Nat → Word)
@[simp] theorem fillBuf_cfg : (s.fillBuf b f).cfg = s.cfg := rfl
@[simp] theorem fillBuf_err : (s.fillBuf b f).err = s.err := rfl
@[simp] theorem fillBuf_errCode : (s.fillBuf b f).errCode = s.errCode := rfl
@[simp] theorem fillBuf_errInfo : (s.fillBuf b f).errInfo = s.errInfo := rfl
@[simp] theorem fillBuf_opa : (s.fillBuf b f).opa = s.opa := rfl
@[simp] theorem fillBuf_opb : (s.fillBuf b f).opb = s.opb := rfl
@[simp] theorem fillBuf_opc : (s.fillBuf b f).opc = s.opc := rfl
@[simp] theorem fillBuf_acc : (s.fillBuf b f).acc = s.acc := rfl
@[simp] theorem fillBuf_fOpa : (s.fillBuf b f).fOpa = s.fOpa := rfl
@[simp] theorem fillBuf_fRes : (s.fillBuf b f).fRes = s.fRes := rfl
@[simp] theorem fillBuf_lmScale : (s.fillBuf b f).lmScale = s.lmScale := rfl
@[simp] theorem fillBuf_sbEn : (s.fillBuf b f).sbEn = s.sbEn := rfl
@[simp] theorem fillBuf_ppAlphaReverb : (s.fillBuf b f).ppAlphaReverb = s.ppAlphaReverb := rfl
@[simp] theorem fillBuf_ppAlphaLowLevel : (s.fillBuf b f).ppAlphaLowLevel = s.ppAlphaLowLevel := rfl
@[simp] theorem fillBuf_ppMinGain : (s.fillBuf b f).ppMinGain = s.ppMinGain := rfl
@[simp] theorem fillBuf_ppGainBoost : (s.fillBuf b f).ppGainBoost = s.ppGainBoost := rfl
@[simp] theorem fillBuf_ppSbFactor : (s.fillBuf b f).ppSbFactor = s.ppSbFactor := rfl
@[simp] theorem fillBuf_ppSbStart : (s.fillBuf b f).ppSbStart = s.ppSbStart := rfl
@[simp] theorem fillBuf_ppSbEnd : (s.fillBuf b f).ppSbEnd = s.ppSbEnd := rfl
@[simp] theorem fillBuf_mem : (s.fillBuf b f).mem = Memory.writeWords s.mem b.base ((List.range (b.len s.cfg)).map f) := rfl
@[simp] theorem fillBuf_pending : (s.fillBuf b f).pending = s.pending := rfl
@[simp] theorem fillBuf_hostData : (s.fillBuf b f).hostData = s.hostData := rfl
end fillBuf

section setElem
variable (s : State) (b : Buf) (i : Nat) (v : Word)
@[simp] theorem setElem_cfg : (s.setElem b i v).cfg = s.cfg := rfl
@[simp] theorem setElem_err : (s.setElem b i v).err = s.err := rfl
@[simp] theorem setElem_errCode : (s.setElem b i v).errCode = s.errCode := rfl
@[simp] theorem setElem_errInfo : (s.setElem b i v).errInfo = s.errInfo := rfl
@[simp] theorem setElem_opa : (s.setElem b i v).opa = s.opa := rfl
@[simp] theorem setElem_opb : (s.setElem b i v).opb = s.opb := rfl
@[simp] theorem setElem_opc : (s.setElem b i v).opc = s.opc := rfl
@[simp] theorem setElem_acc : (s.setElem b i v).acc = s.acc := rfl
@[simp] theorem setElem_fOpa : (s.setElem b i v).fOpa = s.fOpa := rfl
@[simp] theorem setElem_fRes : (s.setElem b i v).fRes = s.fRes := rfl
@[simp] theorem setElem_lmScale : (s.setElem b i v).lmScale = s.lmScale := rfl
@[simp] theorem setElem_sbEn : (s.setElem b i v).sbEn = s.sbEn := rfl
@[simp] theorem setElem_ppAlphaReverb : (s.setElem b i v).ppAlphaReverb = s.ppAlphaReverb := rfl
@[simp] theorem setElem_ppAlphaLowLevel : (s.setElem b i v).ppAlphaLowLevel = s.ppAlphaLowLevel := rfl
@[simp] theorem setElem_ppMinGain : (s.setElem b i v).ppMinGain = s.ppMinGain := rfl
@[simp] theorem setElem_ppGainBoost : (s.setElem b i v).ppGainBoost = s.ppGainBoost := rfl
@[simp] theorem setElem_ppSbFactor : (s.setElem b i v).ppSbFactor = s.ppSbFactor := rfl
@[simp] theorem setElem_ppSbStart : (s.setElem b i v).ppSbStart = s.ppSbStart := rfl
@[simp] theorem setElem_ppSbEnd : (s.setElem b i v).ppSbEnd = s.ppSbEnd := rfl
@[simp] theorem setElem_mem : (s.setElem b i v).mem = Memory.writeWords s.mem (b.addr i) [v] := rfl
@[simp] theorem setElem_pending : (s.setElem b i v).pending = s.pending := rfl
@[simp] theorem setElem_hostData : (s.setElem b i v).hostData = s.hostData := rfl
end setElem

section answer
variable (s : State) (v : Word)
@[simp] theorem answer_cfg : (s.answer v).cfg = s.cfg := rfl
@[simp] theorem answer_err : (s.answer v).err = s.err := rfl
@[simp] theorem answer_errCode : (s.answer v).errCode = s.errCode := rfl
@[simp] theorem answer_errInfo : (s.answer v).errInfo = s.errInfo := rfl
@[simp] theorem answer_opa : (s.answer v).opa = s.opa := rfl
@[simp] theorem answer_opb : (s.answer v).opb = s.opb := rfl
@[simp] theorem answer_opc : (s.answer v).opc = s.opc := rfl
@[simp] theorem answer_acc : (s.answer v).acc = s.acc := rfl
@[simp] theorem answer_fOpa : (s.answer v).fOpa = s.fOpa := rfl
@[simp] theorem answer_fRes : (s.answer v).fRes = s.fRes := rfl
@[simp] theorem answer_lmScale : (s.answer v).lmScale = s.lmScale := rfl
@[simp] theorem answer_sbEn : (s.answer v).sbEn = s.sbEn := rfl
@[simp] theorem answer_ppAlphaReverb : (s.answer v).ppAlphaReverb = s.ppAlphaReverb := rfl
@[simp] theorem answer_ppAlphaLowLevel : (s.answer v).ppAlphaLowLevel = s.ppAlphaLowLevel := rfl
@[simp] theorem answer_ppMinGain : (s.answer v).ppMinGain = s.ppMinGain := rfl
@[simp] theorem answer_ppGainBoost : (s.answer v).ppGainBoost = s.ppGainBoost := rfl
@[simp] theorem answer_ppSbFactor : (s.answer v).ppSbFactor = s.ppSbFactor := rfl
@[simp] theorem answer_ppSbStart : (s.answer v).ppSbStart = s.ppSbStart := rfl
@[simp] theorem answer_ppSbEnd : (s.answer v).ppSbEnd = s.ppSbEnd := rfl
@[simp] theorem answer_mem : (s.answer v).mem = s.mem := rfl
@[simp] theorem answer_pending : (s.answer v).pending = s.pending := rfl
@[simp] theorem answer_hostData : (s.answer v).hostData = v :: s.hostData := rfl
end answer

section writePpCtrl
variable (s : State) (v : Word)
@[simp] theorem writePpCtrl_cfg : (s.writePpCtrl v).cfg = s.cfg := rfl
@[simp] theorem writePpCtrl_err : (s.writePpCtrl v).err = s.err := rfl
@[simp] theorem writePpCtrl_errCode : (s.writePpCtrl v).errCode = s.errCode := rfl
@[simp] theorem writePpCtrl_errInfo : (s.writePpCtrl v).errInfo = s.errInfo := rfl
@[simp] theorem writePpCtrl_opa : (s.writePpCtrl v).opa = s.opa := rfl
@[simp] theorem writePpCtrl_opb : (s.writePpCtrl v).opb = s.opb := rfl
@[simp] theorem writePpCtrl_opc : (s.writePpCtrl v).opc = s.opc := rfl
@[simp] theorem writePpCtrl_acc : (s.writePpCtrl v).acc = s.acc := rfl
@[simp] theorem writePpCtrl_fOpa : (s.writePpCtrl v).fOpa = s.fOpa := rfl
@[simp] theorem writePpCtrl_fRes : (s.writePpCtrl v).fRes = s.fRes := rfl
@[simp] theorem writePpCtrl_lmScale : (s.writePpCtrl v).lmScale = s.lmScale := rfl
@[simp] theorem writePpCtrl_sbEn : (s.writePpCtrl v).sbEn = v.getLsbD 0 := rfl
@[simp] theorem writePpCtrl_ppAlphaReverb : (s.writePpCtrl v).ppAlphaReverb = s.ppAlphaReverb := rfl
@[simp] theorem writePpCtrl_ppAlphaLowLevel : (s.writePpCtrl v).ppAlphaLowLevel = s.ppAlphaLowLevel := rfl
@[simp] theorem writePpCtrl_ppMinGain : (s.writePpCtrl v).ppMinGain = s.ppMinGain := rfl
@[simp] theorem writePpCtrl_ppGainBoost : (s.writePpCtrl v).ppGainBoost = s.ppGainBoost := rfl
@[simp] theorem writePpCtrl_ppSbFactor : (s.writePpCtrl v).ppSbFactor = s.ppSbFactor := rfl
@[simp] theorem writePpCtrl_ppSbStart : (s.writePpCtrl v).ppSbStart = s.ppSbStart := rfl
@[simp] theorem writePpCtrl_ppSbEnd : (s.writePpCtrl v).ppSbEnd = s.ppSbEnd := rfl
@[simp] theorem writePpCtrl_mem : (s.writePpCtrl v).mem = s.mem := rfl
@[simp] theorem writePpCtrl_pending : (s.writePpCtrl v).pending = s.pending := rfl
@[simp] theorem writePpCtrl_hostData : (s.writePpCtrl v).hostData = s.hostData := rfl
end writePpCtrl

section raiseCmdError
variable (s : State) (code : BitVec 3) (info : Word)
@[simp] theorem raiseCmdError_cfg : (s.raiseCmdError code info).cfg = s.cfg := by
  unfold raiseCmdError; split <;> rfl
@[simp] theorem raiseCmdError_opa : (s.raiseCmdError code info).opa = s.opa := by
  unfold raiseCmdError; split <;> rfl
@[simp] theorem raiseCmdError_opb : (s.raiseCmdError code info).opb = s.opb := by
  unfold raiseCmdError; split <;> rfl
@[simp] theorem raiseCmdError_opc : (s.raiseCmdError code info).opc = s.opc := by
  unfold raiseCmdError; split <;> rfl
@[simp] theorem raiseCmdError_acc : (s.raiseCmdError code info).acc = s.acc := by
  unfold raiseCmdError; split <;> rfl
@[simp] theorem raiseCmdError_fOpa : (s.raiseCmdError code info).fOpa = s.fOpa := by
  unfold raiseCmdError; split <;> rfl
@[simp] theorem raiseCmdError_fRes : (s.raiseCmdError code info).fRes = s.fRes := by
  unfold raiseCmdError; split <;> rfl
@[simp] theorem raiseCmdError_lmScale : (s.raiseCmdError code info).lmScale = s.lmScale := by
  unfold raiseCmdError; split <;> rfl
@[simp] theorem raiseCmdError_sbEn : (s.raiseCmdError code info).sbEn = s.sbEn := by
  unfold raiseCmdError; split <;> rfl
@[simp] theorem raiseCmdError_ppAlphaReverb : (s.raiseCmdError code info).ppAlphaReverb = s.ppAlphaReverb := by
  unfold raiseCmdError; split <;> rfl
@[simp] theorem raiseCmdError_ppAlphaLowLevel : (s.raiseCmdError code info).ppAlphaLowLevel = s.ppAlphaLowLevel := by
  unfold raiseCmdError; split <;> rfl
@[simp] theorem raiseCmdError_ppMinGain : (s.raiseCmdError code info).ppMinGain = s.ppMinGain := by
  unfold raiseCmdError; split <;> rfl
@[simp] theorem raiseCmdError_ppGainBoost : (s.raiseCmdError code info).ppGainBoost = s.ppGainBoost := by
  unfold raiseCmdError; split <;> rfl
@[simp] theorem raiseCmdError_ppSbFactor : (s.raiseCmdError code info).ppSbFactor = s.ppSbFactor := by
  unfold raiseCmdError; split <;> rfl
@[simp] theorem raiseCmdError_ppSbStart : (s.raiseCmdError code info).ppSbStart = s.ppSbStart := by
  unfold raiseCmdError; split <;> rfl
@[simp] theorem raiseCmdError_ppSbEnd : (s.raiseCmdError code info).ppSbEnd = s.ppSbEnd := by
  unfold raiseCmdError; split <;> rfl
@[simp] theorem raiseCmdError_mem : (s.raiseCmdError code info).mem = s.mem := by
  unfold raiseCmdError; split <;> rfl
@[simp] theorem raiseCmdError_pending : (s.raiseCmdError code info).pending = s.pending := by
  unfold raiseCmdError; split <;> rfl
@[simp] theorem raiseCmdError_hostData : (s.raiseCmdError code info).hostData = s.hostData := by
  unfold raiseCmdError; split <;> rfl
@[simp] theorem raiseCmdError_err : (s.raiseCmdError code info).err = true := by
  unfold raiseCmdError; split <;> simp_all
theorem raiseCmdError_of_err (h : s.err = true) : s.raiseCmdError code info = s := if_pos h
theorem raiseCmdError_of_not_err (h : s.err = false) :
    s.raiseCmdError code info = { s with err := true, errCode := code, errInfo := info } := by
  simp [raiseCmdError, h]
end raiseCmdError

section writeStatus
variable (s : State) (v : Word)
@[simp] theorem writeStatus_cfg : (s.writeStatus v).cfg = s.cfg := by
  unfold writeStatus; split <;> rfl
@[simp] theorem writeStatus_opa : (s.writeStatus v).opa = s.opa := by
  unfold writeStatus; split <;> rfl
@[simp] theorem writeStatus_opb : (s.writeStatus v).opb = s.opb := by
  unfold writeStatus; split <;> rfl
@[simp] theorem writeStatus_opc : (s.writeStatus v).opc = s.opc := by
  unfold writeStatus; split <;> rfl
@[simp] theorem writeStatus_acc : (s.writeStatus v).acc = s.acc := by
  unfold writeStatus; split <;> rfl
@[simp] theorem writeStatus_fOpa : (s.writeStatus v).fOpa = s.fOpa := by
  unfold writeStatus; split <;> rfl
@[simp] theorem writeStatus_fRes : (s.writeStatus v).fRes = s.fRes := by
  unfold writeStatus; split <;> rfl
@[simp] theorem writeStatus_lmScale : (s.writeStatus v).lmScale = s.lmScale := by
  unfold writeStatus; split <;> rfl
@[simp] theorem writeStatus_sbEn : (s.writeStatus v).sbEn = s.sbEn := by
  unfold writeStatus; split <;> rfl
@[simp] theorem writeStatus_ppAlphaReverb : (s.writeStatus v).ppAlphaReverb = s.ppAlphaReverb := by
  unfold writeStatus; split <;> rfl
@[simp] theorem writeStatus_ppAlphaLowLevel : (s.writeStatus v).ppAlphaLowLevel = s.ppAlphaLowLevel := by
  unfold writeStatus; split <;> rfl
@[simp] theorem writeStatus_ppMinGain : (s.writeStatus v).ppMinGain = s.ppMinGain := by
  unfold writeStatus; split <;> rfl
@[simp] theorem writeStatus_ppGainBoost : (s.writeStatus v).ppGainBoost = s.ppGainBoost := by
  unfold writeStatus; split <;> rfl
@[simp] theorem writeStatus_ppSbFactor : (s.writeStatus v).ppSbFactor = s.ppSbFactor := by
  unfold writeStatus; split <;> rfl
@[simp] theorem writeStatus_ppSbStart : (s.writeStatus v).ppSbStart = s.ppSbStart := by
  unfold writeStatus; split <;> rfl
@[simp] theorem writeStatus_ppSbEnd : (s.writeStatus v).ppSbEnd = s.ppSbEnd := by
  unfold writeStatus; split <;> rfl
@[simp] theorem writeStatus_mem : (s.writeStatus v).mem = s.mem := by
  unfold writeStatus; split <;> rfl
@[simp] theorem writeStatus_pending : (s.writeStatus v).pending = s.pending := by
  unfold writeStatus; split <;> rfl
@[simp] theorem writeStatus_hostData : (s.writeStatus v).hostData = s.hostData := by
  unfold writeStatus; split <;> rfl
theorem writeStatus_of_set (h : v.getLsbD 0 = true) :
    s.writeStatus v = { s with err := false, errCode := 0#3, errInfo := 0#32 } := if_pos h
theorem writeStatus_of_clear (h : v.getLsbD 0 = false) : s.writeStatus v = s :=
  if_neg (by rw [h]; decide)
end writeStatus

section resetBlock
variable (s : State)
@[simp] theorem resetBlock_cfg : s.resetBlock.cfg = s.cfg := rfl
@[simp] theorem resetBlock_mem : s.resetBlock.mem = [] := rfl
@[simp] theorem resetBlock_err : s.resetBlock.err = false := rfl
@[simp] theorem resetBlock_pending : s.resetBlock.pending = s.pending := rfl
@[simp] theorem resetBlock_hostData : s.resetBlock.hostData = s.hostData := rfl
end resetBlock

/-- Two states are equal when all their fields are. -/
theorem eq_of_fields {s t : State} (cfg : s.cfg = t.cfg) (err : s.err = t.err)
    (errCode : s.errCode = t.errCode) (errInfo : s.errInfo = t.errInfo) (opa : s.opa = t.opa)
    (opb : s.opb = t.opb) (opc : s.opc = t.opc) (acc : s.acc = t.acc) (fOpa : s.fOpa = t.fOpa)
    (fRes : s.fRes = t.fRes) (lmScale : s.lmScale = t.lmScale) (sbEn : s.sbEn = t.sbEn)
    (ppAlphaReverb : s.ppAlphaReverb = t.ppAlphaReverb)
    (ppAlphaLowLevel : s.ppAlphaLowLevel = t.ppAlphaLowLevel) (ppMinGain : s.ppMinGain = t.ppMinGain)
    (ppGainBoost : s.ppGainBoost = t.ppGainBoost) (ppSbFactor : s.ppSbFactor = t.ppSbFactor)
    (ppSbStart : s.ppSbStart = t.ppSbStart) (ppSbEnd : s.ppSbEnd = t.ppSbEnd) (mem : s.mem = t.mem)
    (pending : s.pending = t.pending) (hostData : s.hostData = t.hostData) : s = t := by
  cases s; cases t; simp_all

end Sys2Proof.Machine.State
end

