-- ==== Sys2Proof/Laws/Buffers.lean ====
section
/-! SUPPORT. What a write to a buffer does to its elements, to every other buffer and to every byte
outside it, and that it keeps the memory invariant. -/

namespace Sys2Proof.Machine

theorem Buf.len_le {c : Config} (h : c.wf) (b : Buf) : b.len c ≤ 1024 := by
  obtain ⟨_, _, h1, _, h2⟩ := h
  cases b <;> simp only [Buf.len, Config.k] <;> omega

theorem Buf.len_pos {c : Config} (h : c.wf) (b : Buf) : 0 < b.len c := by
  obtain ⟨_, h0, _, h1, _⟩ := h
  cases b <;> simp only [Buf.len, Config.k] <;> omega

theorem Buf.mem_all (b : Buf) : b ∈ Buf.all := by cases b <;> decide

/-- The windows of two buffers lie at least 0x1000 bytes apart (20_memory.md R67). -/
theorem Buf.base_apart {b b' : Buf} (h : b ≠ b') :
    b.base + 0x1000 ≤ b'.base ∨ b'.base + 0x1000 ≤ b.base := by
  revert h
  cases b <;> cases b' <;> simp [Buf.base]

namespace State

/-- An element inside the buffer reads as the function it was filled from. -/
theorem elem_fillBuf_same (s : State) (b : Buf) (f : Nat → Word) {i : Nat} (hi : i < b.len s.cfg) :
    (s.fillBuf b f).elem b i = f i := by
  have h : i < ((List.range (b.len s.cfg)).map f).length := by simpa using hi
  have := Memory.readWord_writeWords_inside s.mem b.base _ i h
  simpa [elem, Buf.addr, fillBuf] using this

/-- Every other buffer keeps its elements. -/
theorem elem_fillBuf_other {s : State} (hc : s.cfg.wf) {b b' : Buf} (hb : b' ≠ b) (f : Nat → Word)
    {i : Nat} (hi : i < b'.len s.cfg) : (s.fillBuf b f).elem b' i = s.elem b' i := by
  have h1 := Buf.len_le hc b
  have h2 := Buf.len_le hc b'
  apply Memory.readWord_writeWords_outside
  simp only [Buf.addr, List.length_map, List.length_range]
  rcases Buf.base_apart hb with h | h <;> omega

/-- Every byte outside the buffer reads as before. -/
theorem readByte_fillBuf_outside (s : State) (b : Buf) (f : Nat → Word) {x : Nat}
    (h : x < b.base ∨ b.base + 4 * b.len s.cfg ≤ x) : (s.fillBuf b f).readByte x = s.readByte x := by
  apply Memory.readByte_writeWords_outside
  simpa using h

theorem elem_setElem_same (s : State) (b : Buf) (i : Nat) (v : Word) :
    (s.setElem b i v).elem b i = v := by
  simpa [elem, setElem] using Memory.readWord_writeWords_inside s.mem (b.addr i) [v] 0 (by simp)

theorem elem_setElem_ne (s : State) (b : Buf) {i j : Nat} (h : j ≠ i) (v : Word) :
    (s.setElem b i v).elem b j = s.elem b j := by
  apply Memory.readWord_writeWords_outside
  simp only [Buf.addr, List.length_singleton]
  omega

theorem elem_setElem_other {s : State} (hc : s.cfg.wf) {b b' : Buf} (hb : b' ≠ b) {i j : Nat}
    (hi : i < b.len s.cfg) (hj : j < b'.len s.cfg) (v : Word) :
    (s.setElem b i v).elem b' j = s.elem b' j := by
  have h1 := Buf.len_le hc b
  have h2 := Buf.len_le hc b'
  apply Memory.readWord_writeWords_outside
  simp only [Buf.addr, List.length_singleton]
  rcases Buf.base_apart hb with h | h <;> omega

theorem readByte_setElem_outside (s : State) (b : Buf) (i : Nat) (v : Word) {x : Nat}
    (h : x < b.addr i ∨ b.addr i + 4 ≤ x) : (s.setElem b i v).readByte x = s.readByte x := by
  apply Memory.readByte_writeWords_outside
  simpa using h

theorem inBuffers_writeWords {c : Config} {m : Memory} (h : Memory.inBuffers c m) (b : Buf) (addr : Nat)
    (ws : List Word) (h1 : b.base ≤ addr) (h2 : addr + 4 * ws.length ≤ b.base + 4 * b.len c) :
    Memory.inBuffers c (Memory.writeWords m addr ws) := by
  intro cell hcell
  rcases Memory.mem_writeWords hcell with h' | h'
  · exact h cell h'
  · exact ⟨b, b.mem_all, by omega, by omega⟩

theorem inBuffers_fillBuf {s : State} (h : Memory.inBuffers s.cfg s.mem) (b : Buf) (f : Nat → Word) :
    Memory.inBuffers s.cfg (s.fillBuf b f).mem :=
  inBuffers_writeWords h b _ _ (Nat.le_refl _) (by simp)

theorem inBuffers_setElem {s : State} (h : Memory.inBuffers s.cfg s.mem) (b : Buf) {i : Nat}
    (hi : i < b.len s.cfg) (v : Word) : Memory.inBuffers s.cfg (s.setElem b i v).mem :=
  inBuffers_writeWords h b _ _ (by simp [Buf.addr]) (by simp [Buf.addr]; omega)

theorem wf_fillBuf {s : State} (h : Memory.wf s.mem) (b : Buf) (f : Nat → Word) :
    Memory.wf (s.fillBuf b f).mem := Memory.wf_writeWords h _ _

theorem wf_setElem {s : State} (h : Memory.wf s.mem) (b : Buf) (i : Nat) (v : Word) :
    Memory.wf (s.setElem b i v).mem := Memory.wf_writeWords h _ _

/-- A byte that no buffer element holds reads as 0. -/
theorem readByte_outside_buffers {s : State} (h : Memory.inBuffers s.cfg s.mem) {x : Nat}
    (hx : ∀ b : Buf, ¬ (b.base ≤ x ∧ x < b.base + 4 * b.len s.cfg)) : s.readByte x = 0#8 :=
  Memory.readByte_of_not_mem _ _ fun c hc e => by
    obtain ⟨b, _, h1, h2⟩ := h c hc
    exact hx b (e ▸ ⟨h1, h2⟩)

end State

end Sys2Proof.Machine
end

