-- ==== Sys2Proof/Laws/Elementary.lean ====
section
/-! SUPPORT. The identity the window is computed by, and what an enclosure that decides says. -/

namespace Sys2Proof.Machine

/-- R112's window on exact reals is a sine of half its angle, for every index of the window. -/
theorem window_half_angle (n N : ℕ) (h : n ≤ N) :
    Real.sqrt (0.5 - 0.5 * Real.cos (2 * Real.pi * n / N)) = Real.sin (Real.pi * n / N) := by
  have e : (0.5 : ℝ) - 0.5 * Real.cos (2 * Real.pi * n / N) = Real.sin (Real.pi * n / N) ^ 2 := by
    rw [show 2 * Real.pi * n / N = 2 * (Real.pi * n / N) by ring, Real.cos_two_mul, Real.cos_sq']
    ring
  rw [e, Real.sqrt_sq]
  apply Real.sin_nonneg_of_nonneg_of_le_pi
  · positivity
  · rcases Nat.eq_zero_or_pos N with h0 | h0
    · subst h0; simp [Real.pi_pos.le]
    · rw [div_le_iff₀ (by exact_mod_cast h0)]
      exact mul_le_mul_of_nonneg_left (by exact_mod_cast h) Real.pi_pos.le

namespace F32

theorem roundFix_le (n : Nat) : roundFix n ≤ infBits := roundMag_le _ _

theorem roundFix_lt (n : Nat) : roundFix n < 2 ^ 31 := roundMag_lt _ _

/-- An enclosure that decides has a positive lower end, and ends that round alike. -/
theorem decides_iff {lo hi : Nat} : decides lo hi = true ↔ 0 < lo ∧ roundFix lo = roundFix hi := by
  simp [decides]

theorem sinTail_le (x2 fuel k : Nat) : sinTail x2 fuel k ≤ fixOne := by
  cases fuel with
  | zero => exact Nat.le_refl _
  | succ fuel => exact Nat.sub_le _ _

theorem sinFix_le (x : Nat) : sinFix x ≤ x := by
  unfold sinFix
  apply Nat.div_le_of_le_mul
  rw [Nat.mul_comm fixOne]
  exact Nat.mul_le_mul_left _ (sinTail_le _ _ _)

end F32

end Sys2Proof.Machine
end

