-- ==== Sys2Proof/Laws/Exec.lean ====
section
/-! SUPPORT. What a command can do, said once: which buffers it writes, and that nothing else of the
state but ACC and F_RES changes; and what a step can do. -/

namespace Sys2Proof.Machine

/-- Buffers written one after the other. -/
def State.fillAll (s : State) (fs : List (Buf × (Nat → Word))) : State :=
  fs.foldl (fun s f => s.fillBuf f.1 f.2) s

theorem fillAll_next {o : Host.Outcome State Fault Refusal} {i : Instr} {s : State}
    (fs : List (Buf × (Nat → Word))) (hf : fs.map Prod.fst = i.writes)
    (h : o = .next (s.fillAll fs)) :
    ∃ (fs : List (Buf × (Nat → Word))) (a : BitVec 64) (r : Word),
      fs.map Prod.fst = i.writes ∧ o = .next { s.fillAll fs with acc := a, fRes := r } :=
  ⟨fs, (s.fillAll fs).acc, (s.fillAll fs).fRes, hf, h⟩

/-- Every command answers a next state, which differs from the state before in ACC, in F_RES and in
the buffers it writes, each filled once. -/
theorem exec_cases (i : Instr) (s : State) :
    ∃ (fs : List (Buf × (Nat → Word))) (a : BitVec 64) (r : Word),
      fs.map Prod.fst = i.writes ∧ exec i s = .next { s.fillAll fs with acc := a, fRes := r } := by
  cases i
  case stftInit =>
    exact fillAll_next [(.anaBuf, fun _ => F32.posZero), (.synAcc, fun _ => F32.posZero),
      (.specRe, fun _ => F32.posZero), (.specIm, fun _ => F32.posZero),
      (.mag, fun _ => F32.posZero), (.logmag, fun _ => F32.posZero)] rfl rfl
  case stftAnalyze =>
    exact fillAll_next [(.anaBuf, shiftedFrame s),
      (.specRe, fun k => (forward s.cfg (windowedFrame s) k).1),
      (.specIm, fun k => (forward s.cfg (windowedFrame s) k).2)] rfl rfl
  case stftMag => exact fillAll_next [(.mag, binMagnitude s)] rfl rfl
  case stftLogmag => exact fillAll_next [(.logmag, _)] rfl rfl
  case stftMask sel => exact fillAll_next [(.specRe, _), (.specIm, _)] rfl rfl
  case stftSynth => exact fillAll_next [(.outBuf, _), (.synAcc, _)] rfl rfl
  case ppInit => exact fillAll_next [(.gainState, fun _ => F32.posZero)] rfl rfl
  case ppRun => exact fillAll_next [(.gainState, postGain s)] rfl rfl
  all_goals exact ⟨[], _, _, rfl, rfl⟩

section fillAll
variable {s : State} {fs : List (Buf × (Nat → Word))}

theorem State.fillAll_eq : s.fillAll fs = { s with mem := (s.fillAll fs).mem } := by
  induction fs generalizing s with
  | nil => rfl
  | cons f fs ih => simpa [State.fillAll, State.fillBuf] using ih (s := s.fillBuf f.1 f.2)

@[simp] theorem State.fillAll_cfg : (s.fillAll fs).cfg = s.cfg := by rw [State.fillAll_eq]

theorem State.wf_fillAll (h : Memory.wf s.mem) : Memory.wf (s.fillAll fs).mem := by
  induction fs generalizing s with
  | nil => exact h
  | cons f fs ih => exact ih (s := s.fillBuf f.1 f.2) (State.wf_fillBuf h _ _)

theorem State.inBuffers_fillAll (h : Memory.inBuffers s.cfg s.mem) :
    Memory.inBuffers s.cfg (s.fillAll fs).mem := by
  induction fs generalizing s with
  | nil => exact h
  | cons f fs ih => exact ih (s := s.fillBuf f.1 f.2) (State.inBuffers_fillBuf h _ _)

theorem State.elem_fillAll_other (hc : s.cfg.wf) {b : Buf} (hb : b ∉ fs.map Prod.fst) {i : Nat}
    (hi : i < b.len s.cfg) : (s.fillAll fs).elem b i = s.elem b i := by
  induction fs generalizing s with
  | nil => rfl
  | cons f fs ih =>
    simp only [List.map_cons, List.mem_cons, not_or] at hb
    have h1 := ih (s := s.fillBuf f.1 f.2) hc hb.2 hi
    rw [State.elem_fillBuf_other hc hb.1 f.2 hi] at h1
    exact h1

theorem State.readByte_fillAll_outside {x : Nat}
    (h : ∀ b ∈ fs.map Prod.fst, x < b.base ∨ b.base + 4 * b.len s.cfg ≤ x) :
    (s.fillAll fs).readByte x = s.readByte x := by
  induction fs generalizing s with
  | nil => rfl
  | cons f fs ih =>
    have h1 := ih (s := s.fillBuf f.1 f.2) fun b hb => h b (by simp [hb])
    rw [State.readByte_fillBuf_outside s f.1 f.2 (h f.1 (by simp))] at h1
    exact h1

end fillAll

/-- A rejected or accepted write to a location changes no configuration, and keeps the memory
invariants. -/
theorem State.writeLoc_mem (s : State) (addr : BitVec 16) (v : Word) :
    (s.writeLoc (locate s.cfg addr) v).mem = s.mem ∨
      ∃ b i, i < b.len s.cfg ∧ locate s.cfg addr = .elem b i ∧
        s.writeLoc (locate s.cfg addr) v = s.setElem b i v := by
  cases h : locate s.cfg addr with
  | reg r => exact .inl (by cases r <;> simp [writeLoc, writeReg])
  | win i => exact .inl rfl
  | reserved => exact .inl rfl
  | elem b i =>
    refine .inr ⟨b, i, ?_, rfl, rfl⟩
    unfold locate at h
    simp only at h
    split at h
    · split at h <;> cases h
    · split at h
      · split at h <;> cases h
      · split at h
        · split at h
          · cases h; assumption
          · cases h
        · cases h

theorem State.writeReg_cfg (s : State) (r : Reg) (v : Word) : (s.writeReg r v).cfg = s.cfg := by
  cases r <;> simp [writeReg]

theorem State.writeLoc_cfg (s : State) (l : Loc) (v : Word) : (s.writeLoc l v).cfg = s.cfg := by
  cases l <;> simp [writeLoc, State.writeReg_cfg]

/-- What one step can do: nothing is pending; or the oldest event is served, by a read, a rejected
write, a write that starts a command, rejected or not, any other write, or a reset. -/
theorem step_cases {s t : State} (h : step s = .next t) :
    (s.pending = [] ∧ t = s) ∨
    ∃ e rest, s.pending = e :: rest ∧
      let s' := { s with pending := rest }
      (∃ addr size, e = .read addr size ∧ t = s'.busRead addr size) ∨
      (∃ addr size v, e = .write addr size v ∧ admitted addr size = false ∧ t = s'.badAccess addr) ∨
      (∃ v i, e = commandEvent v ∧ decode v = .ok i ∧ exec i s' = .next t) ∨
      (∃ v, e = commandEvent v ∧ decode v = .error .illegalOp ∧ t = s'.illegalOp v) ∨
      (∃ v, e = commandEvent v ∧ decode v = .error .reservedBits ∧ t = s'.reservedBits v) ∨
      (∃ addr v, e = .write addr .word v ∧ admitted addr .word = true ∧ addr ≠ cmdAddr ∧
        t = s'.writeLoc (locate s.cfg addr) v) ∨
      (e = .reset ∧ t = s'.resetBlock) := by
  unfold step at h
  split at h
  next hp => exact .inl ⟨hp, by cases h; rfl⟩
  next e rest hp =>
    refine .inr ⟨e, rest, hp, ?_⟩
    cases e with
    | read addr size => cases h; exact .inl ⟨addr, size, rfl, rfl⟩
    | reset => cases h; exact .inr (.inr (.inr (.inr (.inr (.inr ⟨rfl, rfl⟩)))))
    | foreignAccess => cases h
    | write addr size v =>
      simp only [serve, busWrite] at h
      split at h
      next ha =>
        have hs : size = .word := by simp [admitted] at ha; exact ha.2
        subst hs
        split at h
        next hcmd =>
          subst hcmd
          unfold runCommand at h
          split at h
          next i hd => exact .inr (.inr (.inl ⟨v, i, rfl, hd, h⟩))
          next hd => cases h; exact .inr (.inr (.inr (.inl ⟨v, rfl, hd, rfl⟩)))
          next hd => cases h; exact .inr (.inr (.inr (.inr (.inl ⟨v, rfl, hd, rfl⟩))))
        next hcmd =>
          cases h
          exact .inr (.inr (.inr (.inr (.inr (.inl ⟨addr, v, rfl, ha, hcmd, rfl⟩)))))
      next ha =>
        cases h
        exact .inr (.inl ⟨addr, size, v, rfl, by simpa using ha, rfl⟩)

end Sys2Proof.Machine
end

