-- ==== Sys2Proof/Laws/PerInstr.lean ====
section
/-! SUPPORT. The family RowPattern: the word of every well-formed command has, under its format's
fixed-bits mask, the pattern of its row of spec/opcode_table.json (30_encoding.md R91, R94). -/

namespace Sys2Proof.Laws.RowPattern

/-- Under the mask of its format the word of `i` is OP in bits 31..24 and 0 in every reserved bit. -/
def Statement (i : Instr) : Prop :=
  i.wf = true → encode i &&& i.format.fixedMask = BitVec.ofNat 32 (i.opcode * 2 ^ 24)

theorem nop : Statement .nop := fun _ => by decide

theorem stftInit : Statement .stftInit := fun _ => by decide

theorem stftAnalyze : Statement .stftAnalyze := fun _ => by decide

theorem stftMag : Statement .stftMag := fun _ => by decide

theorem stftLogmag : Statement .stftLogmag := fun _ => by decide

theorem stftMask (sel : MaskSource) : Statement (.stftMask sel) := fun _ => by cases sel <;> decide

theorem stftSynth : Statement .stftSynth := fun _ => by decide

theorem qClr : Statement .qClr := fun _ => by decide

theorem qMul (sh : Nat) : Statement (.qMul sh) := fun h => by
  have all : ∀ sh < 64, encode (.qMul sh) &&& Format.S.fixedMask =
      BitVec.ofNat 32 ((Instr.qMul sh).opcode * 2 ^ 24) := by decide +kernel
  simp only [Instr.wf, decide_eq_true_eq] at h
  exact all sh (by omega)

theorem qMac (sh : Nat) : Statement (.qMac sh) := fun h => by
  have all : ∀ sh < 64, encode (.qMac sh) &&& Format.S.fixedMask =
      BitVec.ofNat 32 ((Instr.qMac sh).opcode * 2 ^ 24) := by decide +kernel
  simp only [Instr.wf, decide_eq_true_eq] at h
  exact all sh (by omega)

theorem qAddsh (sh : Nat) : Statement (.qAddsh sh) := fun h => by
  have all : ∀ sh < 64, encode (.qAddsh sh) &&& Format.S.fixedMask =
      BitVec.ofNat 32 ((Instr.qAddsh sh).opcode * 2 ^ 24) := by decide +kernel
  simp only [Instr.wf, decide_eq_true_eq] at h
  exact all sh (by omega)

theorem qSat (w : Nat) : Statement (.qSat w) := fun h => by
  have all : ∀ w < 65, encode (.qSat w) &&& Format.W.fixedMask =
      BitVec.ofNat 32 ((Instr.qSat w).opcode * 2 ^ 24) := by decide +kernel
  simp only [Instr.wf, decide_eq_true_eq] at h
  exact all w (by omega)

theorem qShrsat (sh w : Nat) : Statement (.qShrsat sh w) := fun h => by
  have all : ∀ sh < 64, ∀ w < 65, encode (.qShrsat sh w) &&& Format.SW.fixedMask =
      BitVec.ofNat 32 ((Instr.qShrsat sh w).opcode * 2 ^ 24) := by decide +kernel
  simp only [Instr.wf, Bool.and_eq_true, decide_eq_true_eq] at h
  exact all sh (by omega) w (by omega)

theorem qAddsat (w : Nat) : Statement (.qAddsat w) := fun h => by
  have all : ∀ w < 65, encode (.qAddsat w) &&& Format.W.fixedMask =
      BitVec.ofNat 32 ((Instr.qAddsat w).opcode * 2 ^ 24) := by decide +kernel
  simp only [Instr.wf, decide_eq_true_eq] at h
  exact all w (by omega)

theorem qInterp : Statement .qInterp := fun _ => by decide

theorem qTanh : Statement .qTanh := fun _ => by decide

theorem qSigmoid : Statement .qSigmoid := fun _ => by decide

theorem qRelu : Statement .qRelu := fun _ => by decide

theorem fTanh : Statement .fTanh := fun _ => by decide

theorem fSigmoid : Statement .fSigmoid := fun _ => by decide

theorem fRelu : Statement .fRelu := fun _ => by decide

theorem ppInit : Statement .ppInit := fun _ => by decide

theorem ppRun : Statement .ppRun := fun _ => by decide

end Sys2Proof.Laws.RowPattern
end

