-- ==== Sys2Proof/Tests/Slice0.lean ====
section
/-! SUPPORT. The model's own tests. Expected results are the spec's: its encodings (30_encoding.md), the
examples of its rules, and 95_test_vectors.md; the test of the constant π/2 is Machin's formula. The
last part gives, for every statement with hypotheses, states and operands that meet them. -/

namespace Sys2Proof.Test

open Machine Machine.F32 Spec

set_option Elab.async false

/-! ## Helpers -/

/-- The builds the spec's vectors use (95_test_vectors.md). -/
def c42 : Config := { Config.default with n := 4, r := 2 }
def c63 : Config := { Config.default with n := 6, r := 3 }
def c84 : Config := { Config.default with n := 8, r := 4 }

def put (s : State) (b : Buf) (ws : List Word) : State := s.fillBuf b fun i => ws.getD i 0#32

def show' (s : State) (b : Buf) : List Word := (List.range (b.len s.cfg)).map (s.elem b)

/-- What `f` reads in the next state of an outcome. -/
def got {α : Type} (o : Host.Outcome State Fault Refusal) (f : State → α) : Option α :=
  match o with
  | .next t => some (f t)
  | _ => none

def s0 : State := State.reset
def t42 : State := State.resetWith c42
def t63 : State := State.resetWith c63

/-! ## WellFormed: an ill-formed term for each check, refused -/

theorem test_wf_refuses_shift_64 : (Instr.qMul 64).wf = false ∧ (Instr.qMac 64).wf = false ∧
    (Instr.qAddsh 64).wf = false ∧ (Instr.qShrsat 64 16).wf = false := by decide
theorem test_wf_refuses_width_0 : (Instr.qSat 0).wf = false ∧ (Instr.qAddsat 0).wf = false ∧
    (Instr.qShrsat 0 0).wf = false := by decide
theorem test_wf_refuses_width_65 : (Instr.qSat 65).wf = false ∧ (Instr.qAddsat 65).wf = false ∧
    (Instr.qShrsat 0 65).wf = false := by decide
theorem test_wf_accepts_bounds : (Instr.qShrsat 63 64).wf = true ∧ (Instr.qShrsat 0 1).wf = true := by
  decide

/-! ## Decode: the words of 30_encoding.md R91, R94, R99 -/

theorem test_decode_nop : decode 0b00000000000000000000000000000000#32 = .ok .nop := by decide
theorem test_decode_stftInit : decode 0b00010000000000000000000000000000#32 = .ok .stftInit := by decide
theorem test_decode_stftAnalyze : decode 0b00010001000000000000000000000000#32 = .ok .stftAnalyze := by
  decide
theorem test_decode_stftMag : decode 0b00010010000000000000000000000000#32 = .ok .stftMag := by decide
theorem test_decode_stftLogmag : decode 0b00010011000000000000000000000000#32 = .ok .stftLogmag := by
  decide
theorem test_decode_stftMask : decode 0b00010100000000000000000000000000#32 = .ok (.stftMask .gainState) ∧
    decode 0b00010100000000000000000000000001#32 = .ok (.stftMask .gainIn) := by decide
theorem test_decode_stftSynth : decode 0b00010101000000000000000000000000#32 = .ok .stftSynth := by decide
theorem test_decode_qClr : decode 0b00100000000000000000000000000000#32 = .ok .qClr := by decide
theorem test_decode_qMul : decode 0b00100001000011110000000000000000#32 = .ok (.qMul 15) := by decide
theorem test_decode_qMac : decode 0b00100010001111110000000000000000#32 = .ok (.qMac 63) := by decide
theorem test_decode_qAddsh : decode 0b00100011000010000000000000000000#32 = .ok (.qAddsh 8) := by decide
theorem test_decode_qSat : decode 0b00100100000000000011111100000000#32 = .ok (.qSat 64) := by decide
theorem test_decode_qShrsat : decode 0b00100101000001100001001000000000#32 = .ok (.qShrsat 6 19) := by
  decide
theorem test_decode_qAddsat : decode 0b00100110000000000001111100000000#32 = .ok (.qAddsat 32) := by
  decide
theorem test_decode_qInterp : decode 0b00100111000000000000000000000000#32 = .ok .qInterp := by decide
theorem test_decode_qTanh : decode 0b00101000000000000000000000000000#32 = .ok .qTanh := by decide
theorem test_decode_qSigmoid : decode 0b00101001000000000000000000000000#32 = .ok .qSigmoid := by decide
theorem test_decode_qRelu : decode 0b00101010000000000000000000000000#32 = .ok .qRelu := by decide
theorem test_decode_fTanh : decode 0b00110000000000000000000000000000#32 = .ok .fTanh := by decide
theorem test_decode_fSigmoid : decode 0b00110001000000000000000000000000#32 = .ok .fSigmoid := by decide
theorem test_decode_fRelu : decode 0b00110010000000000000000000000000#32 = .ok .fRelu := by decide
theorem test_decode_ppInit : decode 0b01000000000000000000000000000000#32 = .ok .ppInit := by decide
theorem test_decode_ppRun : decode 0b01000001000000000000000000000000#32 = .ok .ppRun := by decide

/-- The rejected words of 95_test_vectors.md section 2.1. -/
theorem test_decode_rejects :
    [0x01000000#32, 0x16000000#32, 0x2B000000#32, 0x42000000#32, 0xFFFFFFFF#32].map decode =
      List.replicate 5 (.error .illegalOp) ∧
    [0x00000001#32, 0x12000001#32, 0x14000002#32, 0x14800000#32, 0x21400000#32, 0x210F0001#32,
      0x24400000#32, 0x24010000#32, 0x24004000#32, 0x25C01200#32, 0x28000100#32, 0x41000080#32].map decode =
      List.replicate 12 (.error .reservedBits) := by decide +kernel

/-- The expansions of R102 are the words of 95_test_vectors.md section 2.1. -/
theorem test_pseudo_words :
    (Pseudo.qMulq15.events ++ Pseudo.qSat16.events ++ Pseudo.qSat19.events ++
      (Pseudo.qShrsat19 6).events ++ Pseudo.stftMaskPp.events ++ Pseudo.stftMaskRaw.events) =
      [0x210F0000#32, 0x24000F00#32, 0x24001200#32, 0x25061200#32, 0x14000000#32, 0x14000001#32].map
        commandEvent := by decide +kernel

theorem test_table_word : decodeTableWord 32 0x22000000 = some (.qMac 0) ∧
    decodeTableWord 32 0x42000000 = none := by decide

theorem test_fetch_word_runs_next :
    got (step (State.reset.withFetchWord 32 0x2A000000)) (fun t => (t.acc, t.pending)) =
      some (0#64, []) := by decide +kernel

/-! ## Host port, errors, reset (95_test_vectors.md sections 2.1, 2.2; 60_exceptions.md R239) -/

def after (s : State) (es : List Event) : Option State :=
  match core.run es.length { s with pending := es } with
  | .next t => some t
  | _ => none

theorem test_error_example :
    (after s0 [wr 0x10#16 0x16000000#32, wr 0x10#16 0x12000001#32, cmd .stftMag]).map
      (fun t => (t.statusWord, t.errInfo)) = some (0x00000003#32, 0x16000000#32) ∧
    (after s0 [wr 0x10#16 0x16000000#32, wr 0x14#16 1#32, rd 0x22#16]).map
      (fun t => (t.statusWord, t.errInfo, t.hostData)) =
      some (0x00000007#32, 0x00000022#32, [0#32]) := by decide +kernel

theorem test_identification_reads :
    (after s0 [rd 0x0#16, rd 0x4#16, rd 0x8#16, rd 0xC#16, rd 0x10#16, rd 0x1200#16]).map
      (fun t => t.hostData.reverse) =
      some [0x524B5354#32, 0x100#32, 0x80#32, 0x81#32, 0#32, 0#32] := by decide +kernel

theorem test_window_reads_and_ignores_writes :
    (after s0 [wr 0x5004#16 0#32, rd 0x5000#16, rd 0x5004#16, rd 0x5100#16, rd 0x5200#16, rd 0x53FC#16]).map
      (fun t => t.hostData.reverse) =
      some [0#32, 0x3C490E90#32, 0x3F3504F3#32, 0x3F800000#32, 0x3C490E90#32] := by decide +kernel

theorem test_acc_halves :
    (after { s0 with acc := 5#64 } [wr 0x34#16 0xFFFFFFFF#32]).map (fun t => t.acc.toInt) =
      some (-4294967291) := by decide +kernel

theorem test_id_bytes_little_endian :
    Memory.bytesOfWord (State.reset.readReg .id) = [0x54#8, 0x53#8, 0x4B#8, 0x52#8] := by decide

theorem test_second_master_refused :
    step { s0 with pending := [.foreignAccess] } = .refused .secondMaster := rfl

/-! ## STFT (95_test_vectors.md sections 2.3.1 to 2.3.4 and program P2) -/

theorem test_window_n6 : (List.range 6).map (window c63) =
    [0x00000000#32, 0x3F000000#32, 0x3F5DB3D7#32, 0x3F800000#32, 0x3F5DB3D7#32, 0x3F000000#32] := by
  decide +kernel

theorem test_twiddles : twiddleForward 6 1 = (0x3F000000#32, 0xBF5DB3D7#32) ∧
    twiddleForward 8 1 = (0x3F3504F3#32, 0xBF3504F3#32) ∧
    twiddleForward 8 2 = (0x00000000#32, 0xBF800000#32) ∧
    twiddleInverse 4 1 = (0x00000000#32, 0x3F800000#32) := by decide +kernel

theorem test_inverse_n : [c42, c63, c84, Config.default].map invN =
    [0x3E800000#32, 0x3E2AAAAB#32, 0x3E000000#32, 0x3B800000#32] := by decide +kernel

/-- Program P2, hop 1. -/
theorem test_analyze_radix2 :
    got (exec .stftAnalyze (put t42 .inBuf [0x3F800000#32, 0x40000000#32]))
      (fun t => (show' t .anaBuf, show' t .specRe, show' t .specIm)) =
    some ([0#32, 0#32, 0x3F800000#32, 0x40000000#32], [0x3F9A827A#32, 0xBF000000#32, 0xBE5413CC#32],
      [0#32, 0x3F3504F3#32, 0#32]) := by decide +kernel

/-- Section 2.3.3. -/
theorem test_analyze_direct :
    got (exec .stftAnalyze (put t63 .inBuf [0x3F800000#32, 0x3F800000#32, 0x3F800000#32]))
      (fun t => (show' t .specRe, show' t .specIm)) =
    some ([0x3F976CF6#32, 0xBF176CF6#32, 0x3E224C28#32, 0xBEA24C29#32],
      [0x00000000#32, 0x3F176CF6#32, 0xBE224C29#32, 0x00000000#32]) := by decide +kernel

/-- Section 2.3.3: the spectrum's direct inverse, overlapped and shifted. -/
theorem test_synth_direct :
    got (exec .stftSynth (put (put t63 .specRe [0x3F976CF6#32, 0xBF176CF6#32, 0x3E224C28#32, 0xBEA24C29#32])
      .specIm [0x00000000#32, 0x3F176CF6#32, 0xBE224C29#32, 0x00000000#32]))
      (fun t => (show' t .outBuf, show' t .synAcc)) =
    some ([0x00000000#32, 0x00000000#32, 0xB113CD3A#32],
      [0x3F000000#32, 0x3EC00000#32, 0x3E000000#32, 0#32, 0#32, 0#32]) := by decide +kernel

/-- Program P2, hop 2. -/
theorem test_synth_radix2 :
    got (exec .stftSynth (put (put (put t42 .specRe [0x4067C3B6#32, 0xBFC00000#32, 0xBF1F0ED8#32])
      .specIm [0#32, 0x3F3504F3#32, 0#32]) .synAcc [0x3F000000#32, 0x3F000000#32, 0#32, 0#32]))
      (fun t => (show' t .outBuf, show' t .synAcc)) =
    some ([0x3F000000#32, 0x3F7FFFFF#32], [0x3FC00000#32, 0x3F7FFFFF#32, 0#32, 0#32]) := by
  decide +kernel

/-- R123's example. -/
theorem test_mag :
    got (exec .stftMag (put t42 .specRe [0x3F000000#32, 0xBF000000#32, 0x3F000000#32]))
      (fun t => show' t .mag) = some [0x3E800000#32, 0x3F000000#32, 0x3E800000#32] := by decide +kernel

/-- Section 2.3.4. -/
theorem test_logmag :
    got (exec .stftLogmag { put t42 .mag [0x3E800000#32, 0x3F000000#32, 0#32] with lmScale := 0x41200000#32 })
      (fun t => show' t .logmag) = some [0xC0C01ABB#32, 0xC0401A97#32, 0xC1F00000#32] := by
  decide +kernel

/-- R127's example, and the same with the other gain source. -/
theorem test_mask :
    got (exec (.stftMask .gainIn) (put (put t42 .specRe [0#32, 0xBF000000#32]) .gainIn [0#32, 0x3F000000#32]))
      (fun t => t.elem .specRe 1) = some 0xBE800000#32 ∧
    got (exec (.stftMask .gainState) (put (put t42 .specRe [0#32, 0xBF000000#32]) .gainIn [0#32, 0x3F000000#32]))
      (fun t => t.elem .specRe 1) = some 0x80000000#32 := by decide +kernel

theorem test_init :
    got (exec .stftInit (put (put (put t42 .synAcc [1#32, 2#32]) .mag [3#32]) .gainState [4#32]))
      (fun t => (show' t .synAcc, show' t .mag, t.elem .gainState 0)) =
    some ([0#32, 0#32, 0#32, 0#32], [0#32, 0#32, 0#32], 4#32) := by decide +kernel

/-! ## Q15 kernels (95_test_vectors.md sections 2.4, 2.5) -/

def acc (i : Instr) (s : State) : Option Int := got (exec i s) fun t => t.acc.toInt

/-- A state with OPA, OPB, OPC and ACC as given. -/
def kernel (a b c acc : Int) : State :=
  { s0 with opa := BitVec.ofInt 32 a, opb := BitVec.ofInt 32 b, opc := BitVec.ofInt 32 c, acc := BitVec.ofInt 64 acc }

theorem test_qClr : acc .qClr (kernel 0 0 0 0x100000000) = some 0 := by decide +kernel
theorem test_qMul : acc (.qMul 1) (kernel (-1) 1 0 0) = some (-1) ∧
    acc (.qMul 0) (kernel (-2 ^ 31) (-2 ^ 31) 0 0) = some (2 ^ 62) ∧
    acc (.qMul 63) (kernel (-2 ^ 31) (2 ^ 31 - 1) 0 0) = some (-1) := by decide +kernel
theorem test_qMac : acc (.qMac 0) (kernel 1 1 0 (2 ^ 63 - 1)) = some (-2 ^ 63) ∧
    acc (.qMac 1) (kernel (-1) 1 0 0) = some (-1) := by decide +kernel
theorem test_qAddsh : acc (.qAddsh 63) (kernel (-2 ^ 31) 0 0 0) = some 0 ∧
    acc (.qAddsh 63) (kernel 1 0 0 0) = some (-2 ^ 63) := by decide +kernel
theorem test_qSat : acc (.qSat 16) (kernel 0 0 0 (-40000)) = some (-32768) ∧
    acc (.qSat 1) (kernel 0 0 0 5) = some 0 ∧
    acc (.qSat 64) (kernel 0 0 0 (2 ^ 63 - 1)) = some (2 ^ 63 - 1) := by decide +kernel
theorem test_qShrsat : acc (.qShrsat 6 19) (kernel 0 0 0 4915100) = some 76798 ∧
    acc (.qShrsat 63 64) (kernel 0 0 0 (-2 ^ 63)) = some (-1) := by decide +kernel
theorem test_qAddsat : acc (.qAddsat 64) (kernel (2 ^ 31 - 1) (2 ^ 31 - 1) 0 0) = some 4294967294 ∧
    acc (.qAddsat 16) (kernel (-30000) (-10000) 0 0) = some (-32768) := by decide +kernel
theorem test_qInterp : acc .qInterp (kernel (-2 ^ 31) (2 ^ 31 - 1) (-2 ^ 31) 0) = some 281477124063231 ∧
    acc .qInterp (kernel 12000 (-5000) 24000 0) = some 7451 := by decide +kernel
theorem test_qTanh : acc .qTanh (kernel 98304 0 0 0) = some 29658 ∧
    acc .qTanh (kernel (-2 ^ 31) 0 0 0) = some (-32767) := by decide +kernel
theorem test_qTanh_clamp : acc .qTanh (kernel 524287 0 0 0) = some 32765 ∧
    acc .qTanh (kernel 524288 0 0 0) = some 32767 := by decide +kernel
theorem test_qSigmoid : acc .qSigmoid (kernel (-3) 0 0 0) = some 16383 ∧
    acc .qSigmoid (kernel 76798 0 0 0) = some 25017 := by decide +kernel
theorem test_qRelu : acc .qRelu (kernel (-5) 0 0 9) = some 0 ∧ acc .qRelu (kernel 7 0 0 0) = some 7 := by
  decide +kernel

/-- GQ at some indices of the table of R161, and the ends of TQ and TF. -/
theorem test_tables : [1, 49, 100, 199, 200].map gq = [2621, 128451, 262144, 521667, 524288] ∧
    (tqTable.length, tfTable.length, tq 99, tf 200) = (201, 201, 32744, 0x3F7FFFFC#32) := by
  decide +kernel

/-! ## Float activations (95_test_vectors.md section 2.6) -/

def fres (i : Instr) (x : Word) : Option Word := got (exec i { s0 with fOpa := x }) fun t => t.fRes

theorem test_fTanh : fres .fTanh 0x3CA3D70A#32 = some 0x3CA3CBE3#32 ∧
    fres .fTanh 0xBE99999A#32 = some 0xBE9526B3#32 := by decide +kernel
theorem test_fTanh_far : fres .fTanh 0xFF800000#32 = some 0xBF7FFFFC#32 ∧
    fres .fTanh 0x40FFAE14#32 = some 0x3F7FFFFC#32 := by decide +kernel
theorem test_fSigmoid : fres .fSigmoid 0xBF800000#32 = some 0x3E89B2BC#32 ∧
    fres .fSigmoid 0xFF800000#32 = some 0x34000000#32 := by decide +kernel
theorem test_fRelu : fres .fRelu 0x80000000#32 = some 0#32 ∧ fres .fRelu 0x40400000#32 = some 0x40400000#32 := by
  decide +kernel

/-! ## Gain post-processor (43_gain_postproc.md R209) -/

theorem test_ppInit : got (exec .ppInit (put t42 .gainState [0x3F800000#32, 0x3F000000#32, 0x3E800000#32]))
    (fun t => show' t .gainState) = some [0#32, 0#32, 0#32] := by decide +kernel

theorem test_ppRun :
    got (exec .ppRun (put { t42 with ppAlphaReverb := 0x3F000000#32 } .gainIn
      [0x3DCCCCCD#32, 0x3F400000#32, 0x40000000#32])) (fun t => show' t .gainState) =
    some [0x3C8026B0#32, 0x3F316286#32, 0x00000000#32] := by decide +kernel

/-- R206's steps where R207 and R208 remark otherwise (log entries 16, 17): with a boost of -1.0, the raw
gains +0.0, −0.0 and 1.5 give −0.0, +0.0 (fmax keeps the first zero) and the minimum gain 0; the shaped
gain of 1.5 is 1.5·sin(3π/4). -/
theorem test_ppRun_readings :
    got (exec .ppRun (put { t42 with ppGainBoost := 0xBF800000#32 } .gainIn
      [0x00000000#32, 0x80000000#32, 0x3FC00000#32])) (fun t => show' t .gainState) =
      some [0x80000000#32, 0x00000000#32, 0x00000000#32] ∧
    shapedGain (put t42 .gainIn [0x3FC00000#32]) 0 = 0x3F87C3B6#32 := by decide +kernel

/-- The speech-band example of R209, in both modes. -/
theorem test_ppRun_band : [SbRangeMode.explicitRange, .allBins].map (fun m =>
    got (exec .ppRun (put { State.resetWith { c63 with sbRangeMode := m } with
        sbEn := true, ppSbFactor := 0x3FC00000#32, ppSbStart := 1#32, ppSbEnd := 2#32 } .gainIn
        [0x3F000000#32, 0x3F000000#32, 0x3F000000#32, 0x3E99999A#32])) (fun t => show' t .gainState)) =
    [some [0x3EB504F3#32, 0x3F07C3B6#32, 0x3F07C3B6#32, 0x3E0B7745#32],
     some [0x3F07C3B6#32, 0x3F07C3B6#32, 0x3F07C3B6#32, 0x3E0B7745#32]] := by decide +kernel

/-! ## Constants -/

/-- `arctan(1/k)` in units of 2^-384, by `fuel` terms of its series. -/
def arctanInv (k : Nat) : Nat → Nat → Int
  | 0, _ => 0
  | fuel + 1, j => (2 ^ 384 / ((2 * j + 1) * k ^ (2 * j + 1)) : Nat) - arctanInv k fuel (j + 1)

/-- The constant π/2 agrees with Machin's formula, `π/2 = 8·arctan(1/5) − 2·arctan(1/239)`. -/
theorem test_halfPi_machin :
    ((halfPi384 : Int) - (8 * arctanInv 5 90 0 - 2 * arctanInv 239 30 0)).natAbs < 2 ^ 12 := by
  decide +kernel

/-- R203: the sine of HALF_PI is 1.0, and R207's sine for g = 2.0 is negative. -/
theorem test_sin32 : sin32 halfPi = one ∧ mul two (sin32 (mul halfPi two)) = 0xB43BBD2E#32 := by
  decide +kernel

/-- One try of the exact search: sin(0.5) = 0.47942554 rounds to 0x3EF57744. -/
theorem test_exact_sine : sinRoundsTo (fun _ => 1 / 2) (fun _ => 0) (Nat.pair 20 (2 * 0x3EF57744)) = true ∧
    sinRoundsTo (fun _ => 1 / 2) (fun _ => 0) (Nat.pair 20 (2 * 0x3EF57745)) = false := by decide +kernel

/-- Comparisons with the boundaries 1 and 3: the logarithm of 10 is on the first, below an odd magnitude;
that of 1000 on the second, below an even one. -/
theorem test_exact_log : logReaches 1 (10 * 2 ^ 149) 1 = false ∧ logReaches 1 (11 * 2 ^ 149) 1 = true ∧
    logReaches 1 (1000 * 2 ^ 149) 2 = true ∧ logReaches 1 (999 * 2 ^ 149) 2 = false := by decide +kernel

/-! ## Witnesses: for every statement with hypotheses, states and operands that meet them -/

def host (s : State) (es : List Event) : State := { s with pending := es }

/-- A legal state with every register and a byte of some buffers away from reset. -/
def messy : State :=
  { put (put (put (put (put t42 .inBuf [0x3F800000#32]) .anaBuf [0x40000000#32, 1#32, 2#32, 3#32]) .synAcc
      [0x3F800000#32, 5#32, 6#32, 7#32]) .specIm [8#32, 9#32, 10#32]) .gainState [0x3F000000#32] with
    err := true, errCode := 3#3, errInfo := 0x22#32, opa := 1#32, opb := 2#32, opc := 3#32, acc := 4#64,
    fOpa := 5#32, fRes := 6#32, lmScale := 7#32, sbEn := true, ppAlphaReverb := 8#32,
    ppAlphaLowLevel := 9#32, ppMinGain := 10#32, ppGainBoost := 11#32, ppSbFactor := 12#32,
    ppSbStart := 13#32, ppSbEnd := 14#32, hostData := [15#32] }

theorem witness_DecodeOfEncodeIsTheCommand : (Instr.qShrsat 63 64).wf = true ∧ (Instr.qSat 1).wf = true ∧
    (Instr.qMul 0).wf = true ∧ (Instr.stftMask .gainIn).wf = true := by decide

theorem witness_AcceptedWordIsTheEncoding : decode 0x253F3F00#32 = .ok (.qShrsat 63 64) ∧
    decode 0x14000001#32 = .ok (.stftMask .gainIn) := by decide

theorem witness_StepRunsTheDecodedCommand : ∃ i,
    next (host messy [.write 0x0010#16 .word 0x24003F00#32, rd 0#16]) (.write 0x0010#16 .word 0x24003F00#32)
      [rd 0#16] ∧ decode 0x24003F00#32 = .ok i := ⟨.qSat 64, rfl, by decide⟩

theorem witness_UndefinedOpcodeIsRejected :
    (∀ c, next (host messy [.write 0x0010#16 .word c]) (.write 0x0010#16 .word c) []) ∧
    (∀ row ∈ opcodeRows, opByte 0x01000000#32 ≠ row.1) ∧ (∀ row ∈ opcodeRows, opByte 0x42000000#32 ≠ row.1) ∧
    ∀ row ∈ opcodeRows, opByte 0xFF0F0F01#32 ≠ row.1 := by
  refine ⟨fun _ => rfl, ?_, ?_, ?_⟩ <;>
    exact List.forall_iff_forall_mem.mp (by unfold opcodeRows; decide +kernel)

theorem witness_ReservedBitsAreRejected :
    (∀ c, next (host messy [.write 0x0010#16 .word c]) (.write 0x0010#16 .word c) []) ∧
    ∀ c ∈ [0x00000001, 0x25C01200, 0x14000002, 0x41800000], ∃ row ∈ opcodeRows,
      opByte (BitVec.ofNat 32 c) = row.1 ∧ BitVec.ofNat 32 c &&& row.2 &&& 0x00FFFFFF#32 ≠ 0#32 :=
  ⟨fun _ => rfl, by decide +kernel⟩

theorem witness_BadAccessIsRejected :
    (∀ p ∈ [(0x0022#16, AccessSize.word), (0x0020#16, .half), (0x0013#16, .byte), (0xFFFD#16, .word)],
      p.1.toNat % 4 ≠ 0 ∨ p.2 ≠ .word) ∧
    next (host messy [.write 0x0022#16 .word 1#32]) (.write 0x0022#16 .word 1#32) [] ∧
    next (host messy [.read 0x0020#16 .half]) (.read 0x0020#16 .half) [] := by decide +kernel

theorem witness_FirstErrorIsKept : messy.err = true ∧
    ∀ e ∈ [Event.read 0x22#16 .word, .write 0x14#16 .word 1#32, .reset], ∃ t, step (host messy [e]) = .next t :=
  ⟨rfl, by
    intro e he
    simp only [List.mem_cons, List.not_mem_nil, or_false] at he
    rcases he with rfl | rfl | rfl <;> exact ⟨_, rfl⟩⟩

/-- A second master's access, another event, and nothing pending. -/
theorem witness_OnlyASecondMasterIsRefused :
    next (host messy [.foreignAccess, rd 0#16]) .foreignAccess [rd 0#16] ∧
    (∀ rest, ¬ next (host messy [rd 0#16, .foreignAccess]) .foreignAccess rest) ∧
    ∀ rest, ¬ next (host messy []) .foreignAccess rest :=
  ⟨rfl, fun _ h => absurd (List.cons.inj h).1 (by decide), fun _ h => absurd h (List.cons_ne_nil _ _).symm⟩

theorem witness_StatusRegister :
    (∀ v, next (host messy [.write 0x0014#16 .word v]) (.write 0x0014#16 .word v) []) ∧
    (1#32).getLsbD 0 = true ∧ (0xFFFFFFFE#32).getLsbD 0 = false := ⟨fun _ => rfl, by decide⟩

/-- Registers, both ends of WIN, both ends of a buffer, and an address with none of them. -/
theorem witness_ReadHasNoSideEffect : messy.cfg.wf ∧
    (∀ a, next (host messy [.read a .word]) (.read a .word) []) ∧
    (∀ p ∈ [(0x0014, 0x7#32), (0x0018, 0x22#32), (0x0044, 6#32), (0x006C, 1#32)],
      (BitVec.ofNat 16 p.1).toNat % 4 = 0 ∧ (BitVec.ofNat 16 p.1, p.2) ∈ registerWords messy) ∧
    ((0x5000#16).toNat = 0x5000 + 4 * 0 ∧ (0x500C#16).toNat = 0x5000 + 4 * 3 ∧ 3 < messy.cfg.n) ∧
    ((0xB008#16).toNat = Buf.gainState.base + 4 * 2 ∧ 2 < Buf.gainState.len messy.cfg) ∧
    (0xFFFC#16).toNat % 4 = 0 := by
  refine ⟨by decide, fun _ => rfl, by decide +kernel, by decide, by decide, by decide⟩

/-- For each of the five addresses, and in a configuration of its own. -/
theorem witness_IdentificationReads : ∀ a, next (host messy [.read a .word]) (.read a .word) [] := fun _ => rfl

theorem witness_RegisterReadsBackTheWordWritten :
    (∀ a v, next (host messy [.write a .word v, .read a .word]) (.write a .word v) [.read a .word]) ∧
    ∀ a ∈ [0x6C, 0x20, 0x70], BitVec.ofNat 16 a ∈ 0x6C#16 :: plainRegisters := ⟨fun _ _ => rfl, by decide⟩

theorem witness_AccHalvesAreWrittenApart :
    ∀ e ∈ [Event.write 0x0030#16 .word 0xFFFFFFFF#32, .write 0x0034#16 .word 0xFFFFFFFF#32,
      .read 0x0030#16 .word, .read 0x0034#16 .word], next (host messy [e]) e [] := fun _ _ => rfl

/-- The first and the last element of a buffer, and of the one with the highest addresses. -/
theorem witness_BufferElementReadsBackTheWordWritten : messy.cfg.wf ∧
    ∀ p ∈ [(Buf.inBuf, 0), (.inBuf, 1), (.gainState, 2)], p.2 < p.1.len messy.cfg ∧
      next (host messy [.write (BitVec.ofNat 16 (p.1.base + 4 * p.2)) .word 0#32,
          .read (BitVec.ofNat 16 (p.1.base + 4 * p.2)) .word])
        (.write (BitVec.ofNat 16 (p.1.base + 4 * p.2)) .word 0#32)
        [.read (BitVec.ofNat 16 (p.1.base + 4 * p.2)) .word] := by decide +kernel

/-- The ends of each clause for N = 4, R = 2: a hole of the registers, the block 0x74 to 0xFFC, the top
of the address space, the tail of WIN and the tail of a buffer. -/
theorem witness_ReservedSpaceIsZeroAndIgnoresWrites : messy.cfg.wf ∧
    (∀ a ∈ [0x001C#16, 0x004C#16, 0x0074#16, 0x0FFC#16, 0xC000#16, 0xFFFC#16, 0x5010#16, 0x5FFC#16],
      reservedAddr messy.cfg a.toNat) ∧
    reservedAddr messy.cfg 0x1008 ∧ reservedAddr messy.cfg 0x1FFC ∧ reservedAddr messy.cfg 0xB00C ∧
    next (host messy [.write 0x1008#16 .word 1#32]) (.write 0x1008#16 .word 1#32) [] ∧
    next (host messy [.read 0x1008#16 .word]) (.read 0x1008#16 .word) [] := by
  refine ⟨by decide, ?_, ?_, ?_, ?_, by decide, by decide⟩
  · intro a ha
    simp only [List.mem_cons, List.not_mem_nil, or_false] at ha
    rcases ha with rfl | rfl | rfl | rfl | rfl | rfl | rfl | rfl <;>
      refine ⟨by decide, by decide, ?_⟩
    · exact .inl (by decide)
    · exact .inl (by decide)
    · exact .inr (.inl (by decide))
    · exact .inr (.inl (by decide))
    · exact .inr (.inr (.inl (by decide)))
    · exact .inr (.inr (.inl (by decide)))
    · exact .inr (.inr (.inr (.inl (by decide))))
    · exact .inr (.inr (.inr (.inl (by decide))))
  · exact ⟨by decide, by decide, .inr (.inr (.inr (.inr ⟨.inBuf, by decide, by decide⟩)))⟩
  · exact ⟨by decide, by decide, .inr (.inr (.inr (.inr ⟨.inBuf, by decide, by decide⟩)))⟩
  · exact ⟨by decide, by decide, .inr (.inr (.inr (.inr ⟨.gainState, by decide, by decide⟩)))⟩

theorem witness_ReadOnlyLocationsIgnoreWrites : messy.cfg.wf ∧
    (∀ a, next (host messy [.write a .word 1#32]) (.write a .word 1#32) []) ∧
    ∀ a ∈ [0x0000, 0x0044, 0x5000, 0x500C], readOnlyAddr messy.cfg a := by
  refine ⟨by decide, fun _ => rfl, ?_⟩
  unfold readOnlyAddr
  decide +kernel

/-- The legal configurations at the bounds of R7; R does not divide N, and N < 2R. -/
theorem witness_Config_wf : ∀ p ∈ [(2, 1), (2, 2), (4, 2), (6, 5), (1024, 1), (1024, 1024)],
    (Config.mk p.1 p.2 .ref .explicitRange).wf ∧ (Config.mk p.1 p.2 .impl .allBins).wf := by decide

theorem witness_StateAfterReset : Config.default.wf ∧ 0 < Config.default.n := by decide

theorem witness_ResetEventRestoresTheResetState : next (host messy [.reset, rd 0#16]) .reset [rd 0#16] := rfl

theorem witness_EveryStepKeepsTheInvariant : (host messy [.write 0x1004#16 .word 0#32]).Inv ∧
    (host messy [cmd .stftAnalyze]).Inv ∧ State.reset.Inv := by decide +kernel

theorem witness_EveryStepKeepsTheInvariant_runs :
    ∃ t, step (host messy [.write 0x1004#16 .word 0#32]) = .next t := ⟨_, rfl⟩

theorem witness_NoStepChangesTheConfiguration : ∃ t, step (host messy [cmd .stftMag]) = .next t :=
  ⟨_, rfl⟩

/-- A state whose accumulator is nonzero but for its last R samples; the step is a command. -/
theorem witness_AccumulatorTailStaysZero : t42.cfg.wf ∧
    (∀ e ∈ (host (put t42 .synAcc [1#32, 2#32]) [cmd .stftSynth]).pending.head?,
      e.storesTo t42.cfg .synAcc = false) ∧
    (host (put t42 .synAcc [1#32, 2#32]) [cmd .stftSynth]).synTailZero := by decide +kernel

/-- Both sequences, from a state with F_RES not 0. -/
theorem witness_InitialisationReachesTheResetState : messy.fRes ≠ posZero ∧
    ∀ es ∈ [resetSequence messy.cfg, clearResult ++ resetSequence messy.cfg],
      (host messy es).Inv ∧ (host messy es).cfg = messy.cfg ∧ (host messy es).pending = es := by
  decide +kernel

/-- The state both sequences reach: they differ in F_RES only. -/
theorem test_reset_sequences : [resetSequence messy.cfg, clearResult ++ resetSequence messy.cfg].map
      (fun es => (after messy es).map fun t => { t with hostData := [] }) =
    [some { State.resetWith messy.cfg with fRes := messy.fRes }, some (State.resetWith messy.cfg)] := by
  decide +kernel

/-- Two states with the same operands that differ in what the command does not read. -/
theorem witness_CommandsDependOnlyOnTheirOperands :
    ∀ i ∈ [Instr.qTanh, .stftMag, .stftMask .gainIn], messy.cfg.wf ∧
      ({ messy.setElem .outBuf 0 1#32 with opb := 77#32, err := false }).cfg = messy.cfg ∧
      ({ messy.setElem .outBuf 0 1#32 with opb := 77#32, err := false }) ≠ messy ∧
      (∀ b ∈ i.reads, ∀ k < b.len messy.cfg,
        ({ messy.setElem .outBuf 0 1#32 with opb := 77#32, err := false }).elem b k = messy.elem b k) ∧
      sameOperands i messy { messy.setElem .outBuf 0 1#32 with opb := 77#32, err := false } := by
  intro i hi
  simp only [List.mem_cons, List.not_mem_nil, or_false] at hi
  rcases hi with rfl | rfl | rfl
  · exact ⟨by decide, rfl, by decide +kernel, by decide +kernel, rfl⟩
  · exact ⟨by decide, rfl, by decide +kernel, by decide +kernel, trivial⟩
  · exact ⟨by decide, rfl, by decide +kernel, by decide +kernel, trivial⟩

theorem witness_NopChangesNothing :
    (∀ c, next (host messy [.write 0x0010#16 .word c]) (.write 0x0010#16 .word c) []) ∧
    ∀ c ∈ [1, 0x00FFFFFF], BitVec.ofNat 32 c ≠ 0#32 ∧ opByte (BitVec.ofNat 32 c) = 0#32 := ⟨fun _ => rfl, by decide⟩

/-- The bins at the edges and in the interior exist: INIT, ANALYZE, MAG, MASK, SYNTH, PP_RUN. -/
theorem witness_Bins : messy.cfg.wf ∧ 0 < messy.cfg.k ∧ (1 ≤ 1 ∧ 1 ≤ messy.cfg.n / 2 - 1) ∧
    messy.cfg.n / 2 < messy.cfg.k ∧ 0 < messy.cfg.n - messy.cfg.r ∧ messy.cfg.n - 1 < messy.cfg.n ∧
    messy.cfg.n - messy.cfg.r ≤ messy.cfg.n - 1 := by decide

/-- A bin with a NaN part, and one without. -/
theorem witness_MagnitudesAreNonNegative :
    isNaN ((put t42 .specRe [0x7F800001#32]).elem .specRe 0) = true ∧
    isNaN ((put t42 .specRe [0x7F800001#32]).elem .specRe 1) = false := by decide +kernel

/-- Before the first sample and after it: N = 4, R = 2, hop 1. -/
theorem witness_RingBufferHoldsTheNewestSamples : t42.cfg.wf ∧
    (∀ p < t42.cfg.n, t42.elem .anaBuf p = posZero) ∧ 1 * t42.cfg.r + 1 < t42.cfg.n ∧
    ¬ 1 * t42.cfg.r + 2 < t42.cfg.n ∧ 2 < t42.cfg.n := by decide +kernel

/-- An all-zero windowed frame: the shifted buffer holds a sample under the window's zero only. -/
theorem witness_ForwardTransformOfZerosAndItsEdges :
    (got (exec .stftAnalyze (put t42 .anaBuf [0#32, 0#32, 0x3F800000#32])) fun t =>
      (List.range 4).map fun n => isZero (mul (t.elem .anaBuf n) (window t42.cfg n))) =
    some [true, true, true, true] := by decide +kernel

theorem witness_WindowFacts : c84.wf ∧ c84.n % 4 = 0 ∧ 1 ≤ 7 ∧ 7 ≤ c84.n - 1 ∧ c84.n = 8 ∧ c42.n = 4 := by
  decide

theorem witness_LogmagAndItsCorners : isNaN 0xFFC00000#32 = true ∧ value 0x80000001#32 < 0 ∧
    finite 0x7F7FFFFF#32 ∧ sign 0x7F7FFFFF#32 = false ∧ finite posZero := by
  refine ⟨by decide +kernel, by decide +kernel, ?_, by decide +kernel, ?_⟩ <;> (unfold finite; decide +kernel)

/-- Silent buffers with zeros of both signs, and gains that are not zero. -/
theorem witness_SilenceStaysSilent : ∃ s : State, s.cfg.wf ∧ silent s ∧
    ∀ k < s.cfg.k, finite (s.elem .gainState k) ∧ finite (s.elem .gainIn k) := by
  refine ⟨put (put (put t42 .specRe [0x80000000#32]) .gainState [0x3F800000#32, 0xBF000000#32])
    .gainIn [0x7F7FFFFF#32], by decide, ?_, ?_⟩
  · unfold silent; decide +kernel
  · unfold finite; decide +kernel

/-- Each of the three forms, below, above and in range. -/
theorem witness_SaturationClampsToTheWidth :
    ((Instr.qSat 16 = .qSat 16 ∧ (-32769 : Int) = (kernel 0 0 0 (-32769)).acc.toInt) ∧ (-32769 : Int) < -2 ^ (16 - 1)) ∧
    ((∃ sh, sh ≤ 63 ∧ Instr.qShrsat 0 16 = .qShrsat sh 16 ∧
      (32768 : Int) = ⌊((kernel 0 0 0 32768).acc.toInt : ℚ) / 2 ^ sh⌋) ∧ (2 : Int) ^ (16 - 1) ≤ 32768) ∧
    ((Instr.qAddsat 1 = .qAddsat 1 ∧
      (-1 : Int) = (kernel 1 (-2) 0 0).opa.toInt + (kernel 1 (-2) 0 0).opb.toInt) ∧
      -2 ^ (1 - 1) ≤ (-1 : Int) ∧ (-1 : Int) < 2 ^ (1 - 1)) := by
  have h : (kernel 0 0 0 32768).acc.toInt = 32768 := by decide +kernel
  refine ⟨by decide +kernel, ⟨⟨0, by decide, rfl, ?_⟩, by decide⟩, by decide +kernel⟩
  rw [h]
  norm_num

theorem witness_InterpolationIsExact :
    ∀ p ∈ [(-32768, 32767, 0), (32767, -32768, 0x7FFF)],
      0 ≤ (kernel p.1 p.2.1 p.2.2 0).opc.toInt ∧ (kernel p.1 p.2.1 p.2.2 0).opc.toInt ≤ 0x7FFF ∧
      -32768 ≤ (kernel p.1 p.2.1 p.2.2 0).opa.toInt ∧ (kernel p.1 p.2.1 p.2.2 0).opa.toInt ≤ 32767 ∧
      -32768 ≤ (kernel p.1 p.2.1 p.2.2 0).opb.toInt ∧ (kernel p.1 p.2.1 p.2.2 0).opb.toInt ≤ 32767 := by
  decide +kernel

theorem witness_FixedTanhIsOddAndBounded : (kernel 0 0 0 0).opa.toInt = 0 ∧
    524288 ≤ (kernel 524288 0 0 0).opa.toInt ∧ (kernel (-2 ^ 31) 0 0 0).opa.toInt = -2 ^ 31 ∧
    (BitVec.ofInt 32 (-98304) : Word).toInt = -(kernel 98304 0 0 0).opa.toInt := by decide +kernel

/-- Each clause at a boundary value; −Inf and −0.0 for the steps of R183. -/
theorem witness_FloatTanhCornersAndOddness : isNaN 0x7FC00001#32 = true ∧ isZero 0x80000000#32 = true ∧
    (isNaN 0x41000000#32 = false ∧ sign 0x41000000#32 = false ∧ magBits 0x41000000#32 ≤ magBits 0x7F800000#32) ∧
    (isZero 1#32 = false ∧ magBits 0xBCA3D709#32 < 0x3CA3D70A) ∧
    (isNaN 0xFF800000#32 = false ∧ isZero 0xFF800000#32 = false ∧ value 0xFF800000#32 < 0) ∧
    (isNaN 0x80000000#32 = false ∧ ¬ value 0x80000000#32 < 0) := by decide +kernel

theorem witness_FloatSigmoidIsTheTanhIdentity : isNaN 0xFF800001#32 = true ∧ isZero 0x80000000#32 = true := by
  decide +kernel

theorem witness_FloatRelu : isNaN 0xFFFFFFFF#32 = true ∧ (isNaN 0x7F800000#32 = false ∧ 0 < value 0x7F800000#32) ∧
    (isNaN 0x80000000#32 = false ∧ value 0x80000000#32 ≤ 0) := by decide +kernel

/-- A band test that is met by bin 0 and not by bin 1, and a bin that is boosted. -/
theorem witness_PostProcessorRunsItsFiveSteps :
    ((put { t42 with sbEn := true } .gainIn [0x3F800000#32, 0x3F800000#32]).sbEn = true ∧
      lt 0x3E800000#32 (mul one (sin32 (mul 0x3FC90FDB#32 one))) = true) ∧
    (t42.ppSbStart.toNat ≤ 0 ∧ 0 ≤ t42.ppSbEnd.toNat) ∧ ¬(1 ≤ t42.ppSbEnd.toNat) := by decide +kernel

/-- Gains 1.0, −0.0 and the least subnormal, a minimum gain of 1.0 and a negative boost. -/
theorem witness_PostProcessedGainsAreBounded : ∃ s : State, s.cfg.wf ∧
    (∀ k < s.cfg.k, isNaN (s.elem .gainIn k) = false ∧ 0 ≤ value (s.elem .gainIn k) ∧
      value (s.elem .gainIn k) ≤ value one ∧ finite (s.elem .gainState k)) ∧
    isNaN s.ppMinGain = false ∧ 0 ≤ value s.ppMinGain ∧ value s.ppMinGain ≤ value one ∧
    finite s.ppAlphaReverb ∧ finite s.ppAlphaLowLevel ∧ finite s.ppSbFactor ∧ finite s.ppGainBoost ∧
    isZero s.ppGainBoost = false := by
  refine ⟨{ put t42 .gainIn [0x3F800000#32, 0x80000000#32, 1#32] with
    ppMinGain := 0x3F800000#32, ppGainBoost := 0xBF800000#32 }, ?_⟩
  unfold finite
  decide +kernel

theorem witness_RoundingIsToTheNearestEven : 0 < 1 := by decide

/-- Finite operands whose sum and difference are not zero and are zero, zero divisors, infinite
operands of both signs, and a NaN. -/
theorem witness_OperatorsRoundOnce : (finite 0x7F7FFFFF#32 ∧ finite 0x80000000#32) ∧
    value 0x7F7FFFFF#32 + value 0x80000001#32 ≠ 0 ∧ value 0x80000000#32 + value 0x80000000#32 = 0 ∧
    value 0x7F7FFFFF#32 - value 0x80000001#32 ≠ 0 ∧ value 0x80000000#32 - value 0x00000000#32 = 0 ∧
    (isZero 0x80000001#32 = false ∧ isZero 0x80000000#32 = true) ∧
    (isInf 0xFF800000#32 = true ∧ isInf 0x7F800000#32 = true ∧ isNaN 0x7F800000#32 = false ∧
      sign 0x7F800000#32 ≠ sign 0xFF800000#32) ∧
    (isInf 0x7F7FFFFF#32 = false ∧ isNaN 0x7F7FFFFF#32 = false) ∧ isNaN 0x7F800001#32 = true := by
  unfold finite
  decide +kernel

/-- The end of the angles; an enclosure that decides; the least and the greatest finite operand, a zero,
an infinity; the least divisor; the last index of a window. -/
theorem witness_SineSeriesIsAccurate : halfPi192 ≤ halfPi192 ∧
    (((2 ^ 192 : Nat) : ℝ) ≤ 2 ^ 192 ∧ (2 ^ 192 : ℝ) ≤ ((2 ^ 192 + 1 : Nat) : ℝ) ∧
      decides (2 ^ 192) (2 ^ 192 + 1) = true) ∧
    (finite 0x80000001#32 ∧ finite 0x7F7FFFFF#32 ∧ isZero 0x80000000#32 = true ∧ isInf 0xFF800000#32 = true) ∧
    0 < 1 ∧ c63.wf ∧ 5 < c63.n := by
  refine ⟨Nat.le_refl _, ⟨by norm_num, by norm_num, by decide +kernel⟩, ?_, by decide, by decide, by decide⟩
  unfold finite
  decide +kernel

theorem witness_LogarithmSeriesIsAccurate : (0 < 1 ∧ 1 ≤ 2 ∧ 2 ≤ 2 * 1) ∧
    (finite 1#32 ∧ 0 < value 1#32) ∧ finite 0x7F7FFFFF#32 ∧ 0 < value 0x7F7FFFFF#32 := by
  unfold finite
  decide +kernel

/-- Both shift bounds, on the least operands. -/
theorem witness_MultiplyFloorsTheExactProduct : 0 ≤ 63 ∧ 63 ≤ 63 ∧ (kernel (-2 ^ 31) (-2 ^ 31) 0 0).opa.toInt = -2 ^ 31 := by
  decide +kernel

theorem witness_MultiplyAccumulateWraps : 63 ≤ 63 ∧ (kernel 1 1 0 (2 ^ 63 - 1)).acc.toInt = 2 ^ 63 - 1 := by
  decide +kernel

theorem witness_ShiftedAddWraps : 63 ≤ 63 ∧ (kernel (-1) 0 0 (-2 ^ 63)).acc.toInt = -2 ^ 63 := by
  decide +kernel

theorem witness_RadixTwoIsTheInPlaceLoop : 0 < 10 ∧ 9 < 10 := by decide

theorem witness_ResetMeetsTheInvariant : c63.wf := by decide

theorem witness_InitCommandsClearTheirBuffers : ∀ i ∈ [Instr.stftInit, .ppInit],
    messy.cfg.wf ∧ (i = .stftInit ∨ i = .ppInit) ∧ 0 < Buf.gainState.len messy.cfg := by decide

/-- A shifted sample, an appended one, a bin at each edge; REF, N a power of two and N not. -/
theorem witness_AnalyzeShiftsWindowsAndTransforms : messy.cfg.wf ∧ 1 < messy.cfg.n - messy.cfg.r ∧
    1 < messy.cfg.r ∧ 2 < messy.cfg.k ∧ messy.cfg.fftImpl = .ref ∧ messy.cfg.n = 2 ^ 2 ∧
    t63.cfg.wf ∧ t63.cfg.fftImpl = .ref ∧ ∀ l, t63.cfg.n ≠ 2 ^ l := by
  refine ⟨by decide, by decide, by decide, by decide, rfl, by decide, by decide, rfl, fun l h => ?_⟩
  have h6 : (6 : Nat) = 2 ^ l := h
  have hl : l < 3 := (Nat.pow_lt_pow_iff_right (by decide : 1 < 2)).mp (h6 ▸ by decide : 2 ^ l < 2 ^ 3)
  interval_cases l <;> omega

/-- An interior bin, and both edges. -/
theorem witness_MagIsTheSquaredMagnitude : messy.cfg.wf ∧ 1 < messy.cfg.k ∧ (1 ≤ 1 ∧ 1 ≤ messy.cfg.n / 2 - 1) ∧
    0 < messy.cfg.k ∧ messy.cfg.n / 2 < messy.cfg.k := by decide

theorem witness_MaskMultipliesEveryBin : messy.cfg.wf ∧ 0 < messy.cfg.k ∧ messy.cfg.n / 2 < messy.cfg.k := by decide

/-- An output sample, a shifted element, a refilled one; REF, N a power of two (for N not one, see
witness_AnalyzeShiftsWindowsAndTransforms). -/
theorem witness_SynthOverlapsAddsAndShifts : messy.cfg.wf ∧ 0 < messy.cfg.r ∧ 1 < messy.cfg.n - messy.cfg.r ∧
    (2 < messy.cfg.n ∧ messy.cfg.n - messy.cfg.r ≤ 2) ∧ messy.cfg.fftImpl = .ref ∧ messy.cfg.n = 2 ^ 2 := by
  refine ⟨by decide, by decide, by decide, by decide, rfl, by decide⟩

theorem witness_SynthIgnoresTheEdgeImaginaries : messy.cfg.wf ∧ messy.elem .specIm 0 ≠ 0#32 ∧
    messy.elem .specIm (messy.cfg.n / 2) ≠ 0#32 := by decide +kernel

theorem witness_PostProcessorLoopReadsThePreviousFrame : messy.cfg.wf ∧ messy.elem .gainState 0 ≠ 0#32 := by
  decide +kernel

end Sys2Proof.Test
end

section
/-! The machine invariant and the configuration: what each kind of step does to them (00_scope.md R6,
R7, R17; 60_exceptions.md R231), on top of `exec_cases` and `step_cases`. -/

namespace Sys2Proof.Machine

namespace State

/-- The invariant reads the configuration, the memory and the error record only. -/
theorem Inv.congr {s t : State} (h : s.Inv) (cfg : t.cfg = s.cfg) (mem : t.mem = s.mem)
    (err : t.err = s.err) (errCode : t.errCode = s.errCode) (errInfo : t.errInfo = s.errInfo) : t.Inv := by
  simpa only [Inv, errorRecordOk, cfg, mem, err, errCode, errInfo] using h

theorem Inv.setElem {s : State} (h : s.Inv) (b : Buf) {i : Nat} (hi : i < b.len s.cfg) (v : Word) :
    (s.setElem b i v).Inv := by
  obtain ⟨hcfg, hwf, hin, herr⟩ := h
  exact ⟨hcfg, wf_setElem hwf b i v, inBuffers_setElem hin b hi v, herr⟩

theorem Inv.fillAll {s : State} (h : s.Inv) (fs : List (Buf × (Nat → Word))) : (s.fillAll fs).Inv := by
  obtain ⟨hcfg, hwf, hin, herr⟩ := h
  rw [fillAll_eq]
  exact ⟨hcfg, wf_fillAll hwf, inBuffers_fillAll hin, herr⟩

/-- The codes the block records are legal, and a record that stands is not touched. -/
theorem Inv.raiseCmdError {s : State} (h : s.Inv) {code : BitVec 3}
    (hcode : code = 1#3 ∨ code = 2#3 ∨ code = 3#3) (info : Word) : (s.raiseCmdError code info).Inv := by
  cases he : s.err with
  | true => rwa [raiseCmdError_of_err _ _ _ he]
  | false =>
    obtain ⟨hcfg, hwf, hin, -⟩ := h
    rw [raiseCmdError_of_not_err _ _ _ he]
    exact ⟨hcfg, hwf, hin, hcode⟩

theorem Inv.writeStatus {s : State} (h : s.Inv) (v : Word) : (s.writeStatus v).Inv := by
  cases hv : v.getLsbD 0 with
  | false => rwa [writeStatus_of_clear _ _ hv]
  | true =>
    obtain ⟨hcfg, hwf, hin, -⟩ := h
    rw [writeStatus_of_set _ _ hv]
    exact ⟨hcfg, hwf, hin, rfl, rfl⟩

theorem Inv.writeReg {s : State} (h : s.Inv) (r : Reg) (v : Word) : (s.writeReg r v).Inv := by
  cases r
  case status => exact h.writeStatus v
  all_goals exact h.congr rfl rfl rfl rfl rfl

theorem Inv.busRead {s : State} (h : s.Inv) (addr : BitVec 16) (size : AccessSize) :
    (s.busRead addr size).Inv := by
  unfold State.busRead
  split
  · exact h.congr rfl rfl rfl rfl rfl
  · exact (h.raiseCmdError (.inr (.inr rfl)) _).congr rfl rfl rfl rfl rfl

/-- A write where the address map leads: an element inside its buffer, a register, or nothing. -/
theorem Inv.writeLoc {s : State} (h : s.Inv) (addr : BitVec 16) (v : Word) :
    (s.writeLoc (locate s.cfg addr) v).Inv := by
  rcases hl : locate s.cfg addr with r | ⟨b, i⟩ | i | _
  case reg => exact h.writeReg r v
  case elem =>
    rcases s.writeLoc_mem addr v with hm | ⟨b', i', hi, hl', -⟩
    · obtain ⟨hcfg, hwf, hin, herr⟩ := h
      rw [hl] at hm
      exact ⟨hcfg, hm ▸ hwf, by rw [hm]; exact hin, herr⟩
    · rw [hl] at hl'
      cases hl'
      exact h.setElem b hi v
  case win => exact h
  case reserved => exact h

/-- The state after reset meets the invariant in every legal configuration. -/
theorem Inv.resetWith {c : Config} (h : c.wf) : (State.resetWith c).Inv :=
  ⟨h, ⟨List.Pairwise.nil, by simp [State.resetWith]⟩, by simp [State.resetWith], rfl, rfl⟩

theorem Inv.resetBlock {s : State} (h : s.Inv) : s.resetBlock.Inv :=
  (Inv.resetWith h.1).congr rfl rfl rfl rfl rfl

end State

theorem exec_inv {i : Instr} {s t : State} (h : s.Inv) (he : exec i s = .next t) : t.Inv := by
  obtain ⟨fs, a, r, -, hx⟩ := exec_cases i s
  cases hx.symm.trans he
  exact (h.fillAll fs).congr rfl rfl rfl rfl rfl

theorem exec_cfg {i : Instr} {s t : State} (he : exec i s = .next t) : t.cfg = s.cfg := by
  obtain ⟨fs, a, r, -, hx⟩ := exec_cases i s
  cases hx.symm.trans he
  exact State.fillAll_cfg

theorem State.busRead_cfg (s : State) (addr : BitVec 16) (size : AccessSize) :
    (s.busRead addr size).cfg = s.cfg := by
  unfold State.busRead
  split
  · rfl
  · exact State.raiseCmdError_cfg ..

theorem step_inv {s t : State} (h : s.Inv) (hs : step s = .next t) : t.Inv := by
  rcases step_cases hs with ⟨-, rfl⟩ | ⟨e, rest, -, hcase⟩
  · exact h
  have h' : ({ s with pending := rest } : State).Inv := h.congr rfl rfl rfl rfl rfl
  rcases hcase with ⟨addr, size, -, rfl⟩ | ⟨addr, size, v, -, -, rfl⟩ | ⟨v, i, -, -, he⟩ | ⟨v, -, -, rfl⟩ |
    ⟨v, -, -, rfl⟩ | ⟨addr, v, -, -, -, rfl⟩ | ⟨-, rfl⟩
  · exact h'.busRead addr size
  · exact h'.raiseCmdError (.inr (.inr rfl)) _
  · exact exec_inv h' he
  · exact h'.raiseCmdError (.inl rfl) _
  · exact h'.raiseCmdError (.inr (.inl rfl)) _
  · exact h'.writeLoc addr v
  · exact h'.resetBlock

theorem step_cfg {s t : State} (hs : step s = .next t) : t.cfg = s.cfg := by
  rcases step_cases hs with ⟨-, rfl⟩ | ⟨e, rest, -, hcase⟩
  · rfl
  rcases hcase with ⟨addr, size, -, rfl⟩ | ⟨addr, size, v, -, -, rfl⟩ | ⟨v, i, -, -, he⟩ | ⟨v, -, -, rfl⟩ |
    ⟨v, -, -, rfl⟩ | ⟨addr, v, -, -, -, rfl⟩ | ⟨-, rfl⟩
  · exact State.busRead_cfg ..
  · exact State.raiseCmdError_cfg ..
  · exact (exec_cfg he).trans rfl
  · exact State.raiseCmdError_cfg ..
  · exact State.raiseCmdError_cfg ..
  · exact State.writeLoc_cfg ..
  · rfl

/-- A word written to CMD is admitted and goes to the decoder. -/
theorem serve_commandEvent (c : Word) (s : State) : serve (commandEvent c) s = runCommand c s := rfl

/-- A step whose oldest transaction writes an accepted word to CMD is that command. -/
theorem step_command {s : State} {c : Word} {i : Instr} {rest : List Event}
    (hn : s.pending = commandEvent c :: rest) (hd : decode c = .ok i) :
    step s = exec i { s with pending := rest } := by
  simp only [step, hn, serve_commandEvent, runCommand, hd]

end Sys2Proof.Machine

namespace Sys2Proof.Proofs

open Machine

/-- Settles O22: the invariant is kept by each of the seven kinds of step that `step_cases` lists. -/
theorem everyStepKeepsTheInvariant : Obligations.EveryStepKeepsTheInvariant :=
  fun _ _ h hs => step_inv h hs

/-- Settles O23: the words named read the configuration only, which no step changes. -/
theorem noStepChangesTheConfiguration : Obligations.NoStepChangesTheConfiguration := by
  intro s t hs
  have hc : t.cfg = s.cfg := step_cfg hs
  refine ⟨hc, fun r hr => ?_, fun i => by simp only [State.readLoc, hc]⟩
  simp only [List.mem_cons, List.not_mem_nil, or_false] at hr
  rcases hr with rfl | rfl | rfl | rfl <;> simp only [State.readReg, hc]

/-- Settles O21: nothing is listed in memory and no error is recorded after reset. -/
theorem resetMeetsTheInvariant : Obligations.ResetMeetsTheInvariant :=
  ⟨State.Inv.resetWith (by decide), fun _ h => State.Inv.resetWith h⟩

/-- Settles O5, by following the write through `serve` to the decoder. -/
theorem stepRunsTheDecodedCommand : Obligations.StepRunsTheDecodedCommand :=
  fun _ _ _ _ hn hd => step_command hn hd

end Sys2Proof.Proofs
end

section
/-! Rounding to binary32 (00_scope.md R13): a real rounds to the magnitude between whose two boundaries it
lies. `roundMag` and every exact search of the model are brought to this one form, which is convex in the
real, and the statements' nearest magnitude is derived from it once. -/

namespace Sys2Proof.Machine.F32

open Spec

/-- `x` units of 2^-149 lie above the boundary below the magnitude `m`, or on it where `m` is even. -/
def Reaches (m : Nat) (x : ℝ) : Prop :=
  m = 0 ∨ (boundary (m - 1) : ℝ) < 2 * x ∨ (boundary (m - 1) : ℝ) = 2 * x ∧ m % 2 = 0

/-- `m` is the greatest magnitude, +Inf included, that `x` units of 2^-149 reach. -/
structure RoundsTo (m : Nat) (x : ℝ) : Prop where
  le : m ≤ infBits
  reaches : Reaches m x
  not_reaches : m < infBits → ¬Reaches (m + 1) x

theorem Reaches.mono {m : Nat} {x y : ℝ} (h : Reaches m x) (hxy : x ≤ y) : Reaches m y := by
  rcases h with h | h | ⟨h, he⟩
  · exact .inl h
  · exact .inr (.inl (by linarith))
  · rcases hxy.lt_or_eq with hlt | rfl
    · exact .inr (.inl (by linarith))
    · exact .inr (.inr ⟨h, he⟩)

theorem Reaches.boundary_le {m : Nat} {x : ℝ} (h : Reaches (m + 1) x) : (boundary m : ℝ) ≤ 2 * x := by
  rcases h with h | h | ⟨h, -⟩
  · omega
  · exact h.le
  · exact h.le

theorem le_boundary_of_not_reaches {m : Nat} {x : ℝ} (h : ¬Reaches (m + 1) x) : 2 * x ≤ boundary m :=
  not_lt.mp fun hlt => h (.inr (.inl hlt))

/-- A real between two that round alike rounds as they do. -/
theorem RoundsTo.between {m : Nat} {x y z : ℝ} (hx : RoundsTo m x) (hz : RoundsTo m z) (hxy : x ≤ y)
    (hyz : y ≤ z) : RoundsTo m y :=
  ⟨hx.le, hx.reaches.mono hxy, fun hm h => hz.not_reaches hm (h.mono hyz)⟩

/-- A real strictly between the boundaries of a finite magnitude rounds to it. -/
theorem roundsTo_of_between {m : Nat} {x : ℝ} (hm : m < infBits) (hl : m = 0 ∨ (boundary (m - 1) : ℝ) < 2 * x)
    (hu : 2 * x < boundary m) : RoundsTo m x := by
  refine ⟨hm.le, hl.imp id .inl, fun _ h => ?_⟩
  linarith [h.boundary_le]

/-! ## The nearest magnitude -/

theorem unitsOf_lt_unitsOf {m m' : Nat} (h : m < m') (h' : m' ≤ infBits) : unitsOf m < unitsOf m' :=
  units_ofNat_lt h (h'.trans_lt infBits_lt)

theorem unitsOf_le_unitsOf {m m' : Nat} (h : m ≤ m') (h' : m' ≤ infBits) : unitsOf m ≤ unitsOf m' := by
  rcases h.lt_or_eq with hlt | rfl
  · exact (unitsOf_lt_unitsOf hlt h').le
  · exact le_rfl

theorem boundary_eq (m : Nat) : boundary m = unitsOf m + unitsOf (m + 1) := rfl

/-- The last boundary: halfway between the greatest finite magnitude and the next power of two. -/
theorem boundary_last : boundary (infBits - 1) = 2 * ((2 ^ 25 - 1) * 2 ^ 252) := by decide +kernel

/-- From the midpoint of `u < v` on, `v` is at least as near, and equally near at the midpoint only. -/
theorem upper_nearer {u v x : ℝ} (huv : u < v) (h : u + v ≤ 2 * x) :
    |v - x| ≤ |u - x| ∧ (|v - x| = |u - x| → u + v = 2 * x) := by
  rw [abs_of_neg (show u - x < 0 by linarith)]
  refine ⟨abs_le.mpr ⟨by linarith, by linarith⟩, fun e => ?_⟩
  rcases abs_choice (v - x) with e' | e' <;> linarith

/-- Up to the midpoint of `u < v`, `u` is at least as near, and equally near at the midpoint only. -/
theorem lower_nearer {u v x : ℝ} (huv : u < v) (h : 2 * x ≤ u + v) :
    |u - x| ≤ |v - x| ∧ (|u - x| = |v - x| → u + v = 2 * x) := by
  rw [abs_of_pos (show 0 < v - x by linarith)]
  refine ⟨abs_le.mpr ⟨by linarith, by linarith⟩, fun e => ?_⟩
  rcases abs_choice (u - x) with e' | e' <;> linarith

/-- No smaller magnitude is nearer than one that is reached, and one as near is its odd neighbour. -/
theorem Reaches.nearer {m m' : Nat} {x : ℝ} (h : Reaches m x) (hm : m ≤ infBits) (hlt : m' < m) :
    |(unitsOf m : ℝ) - x| ≤ |(unitsOf m' : ℝ) - x| ∧
      (|(unitsOf m : ℝ) - x| = |(unitsOf m' : ℝ) - x| → m % 2 = 0) := by
  obtain ⟨k, rfl⟩ : ∃ k, m = k + 1 := ⟨m - 1, by omega⟩
  have hk : (unitsOf m' : ℝ) ≤ unitsOf k := by
    exact_mod_cast unitsOf_le_unitsOf (show m' ≤ k by omega) (by omega)
  have hu : (unitsOf m' : ℝ) < unitsOf (k + 1) := by exact_mod_cast unitsOf_lt_unitsOf hlt hm
  have hb : (unitsOf k + unitsOf (k + 1) : ℝ) ≤ 2 * x := by exact_mod_cast h.boundary_le
  obtain ⟨h1, h2⟩ := upper_nearer hu (by linarith)
  refine ⟨h1, fun e => ?_⟩
  rcases h with h | h | ⟨-, h⟩
  · omega
  · rw [Nat.add_sub_cancel, boundary_eq] at h
    push_cast at h
    linarith [h2 e]
  · exact h

/-- No greater magnitude is nearer than the last one reached, and one as near is its odd neighbour. -/
theorem nearer_of_not_reaches {m m' : Nat} {x : ℝ} (h : ¬Reaches (m + 1) x) (hm : m' ≤ infBits) (hlt : m < m') :
    |(unitsOf m : ℝ) - x| ≤ |(unitsOf m' : ℝ) - x| ∧
      (|(unitsOf m : ℝ) - x| = |(unitsOf m' : ℝ) - x| → m % 2 = 0) := by
  have hk : (unitsOf (m + 1) : ℝ) ≤ unitsOf m' := by exact_mod_cast unitsOf_le_unitsOf hlt hm
  have hu : (unitsOf m : ℝ) < unitsOf m' := by exact_mod_cast unitsOf_lt_unitsOf hlt hm
  have hb : 2 * x ≤ (unitsOf m + unitsOf (m + 1) : ℝ) := by
    exact_mod_cast le_boundary_of_not_reaches h
  obtain ⟨h1, h2⟩ := lower_nearer hu (by linarith)
  refine ⟨h1, fun e => ?_⟩
  by_contra hodd
  refine h (.inr (.inr ⟨?_, by omega⟩))
  rw [Nat.add_sub_cancel, boundary_eq]
  push_cast
  linarith [h2 e]

/-- Beyond the last boundary only +Inf is rounded to; the last finite magnitude is odd. -/
theorem RoundsTo.overflow_iff {m : Nat} {x : ℝ} (h : RoundsTo m x) :
    (2 ^ 25 - 1) * 2 ^ 252 ≤ x ↔ m = infBits := by
  have hlast : (boundary (infBits - 1) : ℝ) = 2 * ((2 ^ 25 - 1) * 2 ^ 252) := by
    rw [boundary_last]; norm_num
  constructor
  · intro hx
    by_contra hne
    have hm : m < infBits := lt_of_le_of_ne h.le hne
    have hb := le_boundary_of_not_reaches (h.not_reaches hm)
    rcases Nat.lt_or_ge m (infBits - 1) with hlt | hge
    · have : (boundary m : ℝ) < boundary (infBits - 1) := by
        exact_mod_cast boundary_lt_boundary hlt (by decide)
      linarith
    · obtain rfl : m = infBits - 1 := by omega
      exact h.not_reaches hm (.inr (.inr ⟨by rw [Nat.add_sub_cancel]; linarith, by decide⟩))
  · rintro rfl
    have := Reaches.boundary_le (m := infBits - 1) h.reaches
    linarith

theorem RoundsTo.isNearestReal {m : Nat} {x : ℝ} (h : RoundsTo m x) : IsNearestReal m x := by
  unfold IsNearestReal
  split
  next hx => exact h.overflow_iff.mp hx
  next hx =>
    have hm : m < infBits := lt_of_le_of_ne h.le fun e => hx (h.overflow_iff.mpr e)
    refine ⟨hm, fun m' hm' => ?_⟩
    rcases Nat.lt_trichotomy m' m with hlt | rfl | hgt
    · obtain ⟨h1, h2⟩ := h.reaches.nearer h.le hlt
      exact ⟨h1, fun e _ => h2 e⟩
    · exact ⟨le_rfl, fun _ hne => absurd rfl hne⟩
    · obtain ⟨h1, h2⟩ := nearer_of_not_reaches (h.not_reaches hm) hm'.le hgt
      exact ⟨h1, fun e _ => h2 e⟩

/-- For a ratio, the nearest magnitude over the integers is the nearest one over the reals. -/
theorem isNearest_of_isNearestReal {m n d : Nat} (hd : 0 < d) (h : IsNearestReal m ((n : ℝ) / d)) :
    IsNearest m n d := by
  have hd' : (0 : ℝ) < d := by exact_mod_cast hd
  have key : ∀ u : Nat, ((|(u * d : Int) - n| : Int) : ℝ) = |(u : ℝ) - n / d| * d := by
    intro u
    rw [← abs_of_pos hd', ← abs_mul, abs_of_pos hd', sub_mul, div_mul_cancel₀ _ hd'.ne']
    push_cast
    rfl
  have hle : ∀ u v : Nat, |(u * d : Int) - n| ≤ |(v * d : Int) - n| ↔ |(u : ℝ) - n / d| ≤ |(v : ℝ) - n / d| := by
    intro u v
    rw [← mul_le_mul_iff_left₀ hd', ← key u, ← key v, Int.cast_le]
  have hover : (2 ^ 25 - 1) * 2 ^ 252 * d ≤ n ↔ ((2 ^ 25 - 1) * 2 ^ 252 : ℝ) ≤ n / d := by
    rw [le_div_iff₀ hd', ← Nat.cast_le (α := ℝ)]
    norm_num
  unfold IsNearestReal at h
  unfold IsNearest
  simp only [hover, hle, le_antisymm_iff] at h ⊢
  exact h

/-! ## The model's rounding -/

/-- The pattern of `m · 2^s`, a significand that rounds up to 2^24 included. -/
theorem unitsOf_pattern {s m : Nat} (hs : s ≤ 253) (hm : m ≤ 2 ^ 24) (h : s = 0 ∨ 2 ^ 23 ≤ m) :
    unitsOf (s * 2 ^ 23 + m) = m * 2 ^ s := by
  have hbits := magBits_ofNat (show s * 2 ^ 23 + m < 2 ^ 31 by omega)
  rcases Nat.lt_or_ge m (2 ^ 23) with hlt | hge
  · obtain rfl : s = 0 := by omega
    rw [unitsOf, units_subnormal (by omega), hbits]
    omega
  · rw [unitsOf, units_normal (by omega), hbits]
    rcases hm.lt_or_eq with hlt | rfl
    · rw [show (s * 2 ^ 23 + m) / 2 ^ 23 - 1 = s by omega, show 2 ^ 23 + (s * 2 ^ 23 + m) % 2 ^ 23 = m by omega]
    · rw [show (s * 2 ^ 23 + 2 ^ 24) / 2 ^ 23 - 1 = s + 1 by omega,
        show 2 ^ 23 + (s * 2 ^ 23 + 2 ^ 24) % 2 ^ 23 = 2 ^ 23 by omega, pow_succ]
      ring

/-- The lower half of `roundsTo_pattern`: `m · 2^s` is reached. Below the least significand the spacing is finer,
and the real lies in the binade. -/
theorem reaches_pattern {s m : Nat} {x : ℝ} (hs : s ≤ 253) (hm : m ≤ 2 ^ 24) (hsm : s = 0 ∨ 2 ^ 23 ≤ m)
    (hlow : s = 0 ∨ 2 ^ 23 * 2 ^ s ≤ x) (hl : (2 * m - 1) * 2 ^ s ≤ 2 * x)
    (htie : (2 * m - 1) * 2 ^ s = 2 * x → m % 2 = 0) : Reaches (s * 2 ^ 23 + m) x := by
  have hi : infBits = 253 * 2 ^ 23 + 2 ^ 24 := by decide
  rcases Nat.eq_zero_or_pos (s * 2 ^ 23 + m) with h0 | hpos
  · exact .inl h0
  rw [Reaches, boundary_eq, Nat.sub_add_cancel hpos]
  by_cases hm23 : s = 0 ∨ 2 ^ 23 < m
  · have hb : ((unitsOf (s * 2 ^ 23 + m - 1) + unitsOf (s * 2 ^ 23 + m) : ℕ) : ℝ) = (2 * m - 1) * 2 ^ s := by
      rw [show s * 2 ^ 23 + m - 1 = s * 2 ^ 23 + (m - 1) by omega, unitsOf_pattern hs (by omega) (by omega),
        unitsOf_pattern hs hm hsm]
      push_cast [show 1 ≤ m by omega]
      ring
    rw [hb]
    rcases hl.lt_or_eq with hlt | heq
    · exact .inr (.inl hlt)
    · have := htie heq
      exact .inr (.inr ⟨heq, by omega⟩)
  · obtain rfl : m = 2 ^ 23 := by omega
    have hx : (2 ^ 23 * 2 ^ s : ℝ) ≤ x := hlow.resolve_left fun h => hm23 (.inl h)
    have hp := unitsOf_pattern hs hm hsm
    have hlt := unitsOf_lt_unitsOf (show s * 2 ^ 23 + 2 ^ 23 - 1 < s * 2 ^ 23 + 2 ^ 23 by omega) (by omega)
    have hb : ((unitsOf (s * 2 ^ 23 + 2 ^ 23 - 1) + unitsOf (s * 2 ^ 23 + 2 ^ 23) : ℕ) : ℝ) <
        2 * (2 ^ 23 * 2 ^ s) := by
      exact_mod_cast (show _ < 2 * (2 ^ 23 * 2 ^ s) by omega)
    exact .inr (.inl (by linarith))

/-- The upper half: what follows `m · 2^s` is not reached. Above a significand of 2^24 the spacing is coarser, and
the real lies in the binade. -/
theorem not_reaches_pattern {s m : Nat} {x : ℝ} (hs : s ≤ 253) (hm : m ≤ 2 ^ 24) (hsm : s = 0 ∨ 2 ^ 23 ≤ m)
    (hhigh : x < 2 ^ 24 * 2 ^ s) (hu : 2 * x ≤ (2 * m + 1) * 2 ^ s)
    (htie : 2 * x = (2 * m + 1) * 2 ^ s → m % 2 = 0) (hlt : s * 2 ^ 23 + m < infBits) :
    ¬Reaches (s * 2 ^ 23 + m + 1) x := by
  intro h
  rcases hm.lt_or_eq with hm24 | rfl
  · have hb : (boundary (s * 2 ^ 23 + m) : ℝ) = (2 * m + 1) * 2 ^ s := by
      rw [boundary_eq, Nat.add_assoc, unitsOf_pattern hs hm hsm, unitsOf_pattern hs (by omega) (by omega)]
      push_cast
      ring
    rw [Reaches, Nat.add_sub_cancel, hb] at h
    rcases h with h | h | ⟨h, ho⟩
    · omega
    · linarith
    · have := htie h.symm
      omega
  · have hp := unitsOf_pattern hs hm hsm
    have hnext := unitsOf_lt_unitsOf (Nat.lt_add_one (s * 2 ^ 23 + 2 ^ 24)) hlt
    have hb : (2 * (2 ^ 24 * 2 ^ s) : ℝ) < boundary (s * 2 ^ 23 + 2 ^ 24) := by
      exact_mod_cast (show 2 * (2 ^ 24 * 2 ^ s) < _ by rw [boundary_eq]; omega)
    linarith [h.boundary_le]

/-- A real of the binade `s` rounds to the pattern of `m · 2^s` when `m` is its nearest multiple of `2^s`,
even on a tie. -/
theorem roundsTo_pattern {s m : Nat} {x : ℝ} (hs : s ≤ 253) (hm : m ≤ 2 ^ 24) (hsm : s = 0 ∨ 2 ^ 23 ≤ m)
    (hlow : s = 0 ∨ 2 ^ 23 * 2 ^ s ≤ x) (hhigh : x < 2 ^ 24 * 2 ^ s)
    (hl : (2 * m - 1) * 2 ^ s ≤ 2 * x) (hu : 2 * x ≤ (2 * m + 1) * 2 ^ s)
    (htie : (2 * m - 1) * 2 ^ s = 2 * x ∨ 2 * x = (2 * m + 1) * 2 ^ s → m % 2 = 0) :
    RoundsTo (s * 2 ^ 23 + m) x where
  le := by
    have hi : infBits = 253 * 2 ^ 23 + 2 ^ 24 := by decide
    omega
  reaches := reaches_pattern hs hm hsm hlow hl fun h => htie (.inl h)
  not_reaches := not_reaches_pattern hs hm hsm hhigh hu fun h => htie (.inr h)

/-- A real beyond every finite magnitude rounds to +Inf. -/
theorem roundsTo_infBits {x : ℝ} (h : 2 ^ 23 * 2 ^ 254 ≤ x) : RoundsTo infBits x := by
  refine ⟨le_rfl, .inr (.inl ?_), fun h => absurd h (lt_irrefl _)⟩
  rw [boundary_last]
  norm_num at h ⊢
  linarith

theorem divNearest_bounds (n d : Nat) : n / d ≤ divNearest n d ∧ divNearest n d ≤ n / d + 1 := by
  simp only [divNearest]
  split_ifs <;> omega

/-- The spacing `2^s` that `roundMag` chooses is that of the binade of the quotient. -/
theorem quotient_binade {q s : Nat} (hs : s = q.log2 - 23) :
    q < 2 ^ 24 * 2 ^ s ∧ (s = 0 ∨ 2 ^ 23 * 2 ^ s ≤ q) := by
  constructor
  · calc q < 2 ^ (q.log2 + 1) := Nat.lt_log2_self
      _ ≤ 2 ^ (24 + s) := Nat.pow_le_pow_right (by decide) (by omega)
      _ = 2 ^ 24 * 2 ^ s := pow_add ..
  · rcases Nat.eq_zero_or_pos s with h0 | hpos
    · exact .inl h0
    · have hne : q ≠ 0 := fun h => by simp [hs, h] at hpos
      rw [← pow_add, show 23 + s = q.log2 by omega]
      exact .inr (Nat.log2_self_le hne)

/-- `divNearest_spec` for the spacing `2^s`, over the reals. -/
theorem divNearest_spec_real (n : Nat) {d s m : Nat} (hd : 0 < d) (hm : m = divNearest n (d * 2 ^ s)) :
    (2 * m - 1 : ℝ) * 2 ^ s ≤ 2 * (n / d) ∧ (2 * (n / d) : ℝ) ≤ (2 * m + 1) * 2 ^ s ∧
      ((2 * m - 1 : ℝ) * 2 ^ s = 2 * (n / d) ∨ (2 * (n / d) : ℝ) = (2 * m + 1) * 2 ^ s → m % 2 = 0) := by
  have hd' : (0 : ℝ) < d := by exact_mod_cast hd
  obtain ⟨h1, h2, h3⟩ := divNearest_spec n (Nat.mul_pos hd (Nat.two_pow_pos s))
  rw [← hm] at h1 h2 h3
  have h1' : (2 * n : ℝ) ≤ (2 * m + 1) * (d * 2 ^ s) := by exact_mod_cast h1
  have h2' : (2 * m * (d * 2 ^ s) : ℝ) ≤ 2 * n + d * 2 ^ s := by exact_mod_cast h2
  rw [← mul_div_assoc, le_div_iff₀ hd', div_le_iff₀ hd', eq_div_iff hd'.ne', div_eq_iff hd'.ne']
  refine ⟨by linarith, by linarith, fun h => h3 (h.symm.imp (fun h => ?_) fun h => ?_)⟩
  · have : (2 * n : ℝ) = (2 * m + 1) * (d * 2 ^ s) := by linarith
    exact_mod_cast this
  · have : (2 * m * (d * 2 ^ s) : ℝ) = 2 * n + d * 2 ^ s := by linarith
    exact_mod_cast this

theorem roundMag_roundsTo (n : Nat) {d : Nat} (hd : 0 < d) : RoundsTo (roundMag n d) (n / d) := by
  have hi : infBits = 253 * 2 ^ 23 + 2 ^ 24 := by decide
  have hd' : (0 : ℝ) < d := by exact_mod_cast hd
  rw [roundMag]
  generalize hs : Nat.log2 (n / d) - 23 = s
  generalize hm : divNearest n (d * 2 ^ s) = m
  obtain ⟨hlt, hge⟩ := quotient_binade hs.symm
  obtain ⟨hmlo, hmhi⟩ := divNearest_bounds n (d * 2 ^ s)
  rw [← Nat.div_div_eq_div_mul, hm] at hmlo hmhi
  have hm24 : m ≤ 2 ^ 24 := by
    have : n / d / 2 ^ s < 2 ^ 24 := (Nat.div_lt_iff_lt_mul (Nat.two_pow_pos s)).mpr hlt
    omega
  have hm23 : s = 0 ∨ 2 ^ 23 ≤ m :=
    hge.imp id fun h => ((Nat.le_div_iff_mul_le (Nat.two_pow_pos s)).mpr h).trans hmlo
  have hgeR : s = 0 ∨ (2 ^ 23 * 2 ^ s : ℝ) ≤ n / d := hge.imp id fun h => by
    rw [le_div_iff₀ hd']
    exact_mod_cast (Nat.le_div_iff_mul_le hd).mp h
  rcases Nat.lt_or_ge 253 s with hbig | hsmall
  · rw [Nat.min_eq_right (by omega)]
    refine roundsTo_infBits (le_trans ?_ (hgeR.resolve_left (by omega)))
    gcongr
    · norm_num
    · exact hbig
  · rw [Nat.min_eq_left (by omega)]
    obtain ⟨h1, h2, h3⟩ := divNearest_spec_real n hd hm.symm
    refine roundsTo_pattern hsmall hm24 hm23 hgeR ?_ h1 h2 h3
    rw [div_lt_iff₀ hd']
    exact_mod_cast (Nat.div_lt_iff_lt_mul hd).mp hlt

theorem roundMag_isNearest (n : Nat) {d : Nat} (hd : 0 < d) : IsNearest (roundMag n d) n d :=
  isNearest_of_isNearestReal hd (roundMag_roundsTo n hd).isNearestReal

end Sys2Proof.Machine.F32

namespace Sys2Proof.Proofs

open Machine.F32

/-- Settles O57: `roundMag` finds the binade of the quotient and rounds to its spacing, so the quotient lies
between the boundaries of the result. -/
theorem roundingIsToTheNearestEven : Obligations.RoundingIsToTheNearestEven :=
  fun n _ hd => roundMag_isNearest n hd

end Sys2Proof.Proofs
end

section
/-! The operators of binary32 (00_scope.md R13, R14): one equation per kind of operand, and from them the
rounding of the exact result. -/

namespace Sys2Proof.Machine.F32

open Spec

section classes
variable {a : Word}

theorem isNaN_of_finite (h : finite a) : isNaN a = false := decide_eq_false h.le.not_gt
theorem isInf_of_finite (h : finite a) : isInf a = false := decide_eq_false h.ne
theorem isNaN_of_isInf (h : isInf a = true) : isNaN a = false :=
  decide_eq_false (of_decide_eq_true h).not_gt
theorem isZero_of_isInf (h : isInf a = true) : isZero a = false :=
  decide_eq_false (by rw [of_decide_eq_true h]; decide)

theorem units_pos (h : isZero a = false) : 0 < units a := by
  have h0 : magBits 0x00000000#32 < magBits a := Nat.pos_of_ne_zero (of_decide_eq_false h)
  exact Nat.zero_lt_of_lt (units_lt_units h0)

theorem eq_of_sign_of_magBits {a b : Word} (hs : sign a = sign b) (hm : magBits a = magBits b) : a = b := by
  rw [← pack_sign_magBits a, ← pack_sign_magBits b, hs, hm]

/-- Two infinities of one sign are the same pattern. -/
theorem eq_of_isInf {a b : Word} (ha : isInf a = true) (hb : isInf b = true) (hs : sign a = sign b) : a = b :=
  eq_of_sign_of_magBits hs ((of_decide_eq_true ha).trans (of_decide_eq_true hb).symm)

theorem sign_pack_inf (s : Bool) : sign (pack s infBits) = s := sign_pack s infBits_lt
theorem magBits_pack_inf (s : Bool) : magBits (pack s infBits) = infBits := magBits_pack s infBits_lt

end classes

/-! ## Addition and subtraction -/

section add
variable {a b : Word}

theorem add_of_isNaN (h : isNaN a = true ∨ isNaN b = true) : add a b = qNaN :=
  if_pos (by simpa using h)

theorem add_of_finite (ha : finite a) (hb : finite b) :
    add a b = if value a + value b = 0 then (if sign a && sign b then negZero else posZero)
      else roundInt (value a + value b) := by
  simp [add, isNaN_of_finite, isInf_of_finite, ha, hb]

theorem add_isInf_left (ha : isInf a = true) (hb : isNaN b = false) :
    add a b = if isInf b && (sign a != sign b) then qNaN else a := by
  simp [add, isNaN_of_isInf ha, hb, ha]

theorem add_isInf_right (ha : isInf a = false) (ha' : isNaN a = false) (hb : isInf b = true) :
    add a b = b := by
  simp [add, isNaN_of_isInf hb, ha', ha, hb]

theorem add_isInf_opposite (ha : isInf a = true) (hb : isInf b = true) (hs : sign b ≠ sign a) :
    add a b = qNaN := by
  rw [add_isInf_left ha (isNaN_of_isInf hb), if_pos (by simpa [hb] using hs.symm)]

/-- An infinity absorbs every operand but the other infinity and a NaN, on either side. -/
theorem add_isInf_absorbs (ha : isInf a = true) (hb : isNaN b = false) (h : isInf b = false ∨ sign b = sign a) :
    add a b = a ∧ add b a = a := by
  rw [add_isInf_left ha hb, if_neg (by rcases h with h | h <;> simp [h])]
  refine ⟨rfl, ?_⟩
  cases hi : isInf b with
  | false => exact add_isInf_right hi hb ha
  | true =>
    have hs : sign b = sign a := h.resolve_left (by simp [hi])
    rw [eq_of_isInf hi ha hs, add_isInf_left ha (isNaN_of_isInf ha), if_neg (by simp)]

theorem sign_magBits_add_zero (ha : finite a) (hb : finite b) (h : value a + value b = 0) :
    magBits (add a b) = 0 ∧ sign (add a b) = (sign a && sign b) := by
  rw [add_of_finite ha hb, if_pos h]
  cases sign a && sign b <;> decide

theorem sign_magBits_add (ha : finite a) (hb : finite b) (h : value a + value b ≠ 0) :
    sign (add a b) = decide (value a + value b < 0) ∧
      IsNearest (magBits (add a b)) (value a + value b).natAbs 1 := by
  rw [add_of_finite ha hb, if_neg h, roundInt, sign_pack_roundMag, magBits_pack_roundMag]
  exact ⟨rfl, roundMag_isNearest _ one_pos⟩

theorem finite_neg (h : finite a) : finite (neg a) := by
  rwa [finite, magBits_neg]

theorem value_sub_eq (a b : Word) : value a - value b = value a + value (neg b) := by
  rw [value_neg, sub_eq_add_neg]

theorem sign_magBits_sub (ha : finite a) (hb : finite b) (h : value a - value b ≠ 0) :
    sign (sub a b) = decide (value a - value b < 0) ∧
      IsNearest (magBits (sub a b)) (value a - value b).natAbs 1 := by
  rw [value_sub_eq] at h ⊢
  exact sign_magBits_add ha (finite_neg hb) h

theorem sign_magBits_sub_zero (ha : finite a) (hb : finite b) (h : value a - value b = 0) :
    magBits (sub a b) = 0 ∧ sign (sub a b) = (sign a && !sign b) := by
  rw [value_sub_eq] at h
  rw [← sign_neg]
  exact sign_magBits_add_zero ha (finite_neg hb) h

theorem sub_isInf_same (ha : isInf a = true) (hb : isInf b = true) (hs : sign b = sign a) : sub a b = qNaN :=
  add_isInf_opposite ha (by simpa using hb) (by simp [sign_neg, hs])

theorem sub_isInf_absorbs (ha : isInf a = true) (hb : isNaN b = false) (h : isInf b = false ∨ sign b ≠ sign a) :
    sub a b = a ∧ sub b a = neg a := by
  have hs : isInf b = false ∨ sign (neg b) = sign a := h.imp id fun h => by
    rw [sign_neg]; exact Bool.not_eq.mpr h
  have hs' : isInf b = false ∨ sign b = sign (neg a) := h.imp id fun h => by
    rw [sign_neg]; exact Bool.eq_not.mpr h
  exact ⟨(add_isInf_absorbs ha (by simpa using hb) (by simpa using hs)).1,
    (add_isInf_absorbs (by simpa using ha) hb hs').2⟩

end add

/-! ## Multiplication and division -/

section mul
variable {a b : Word}

theorem mul_of_isNaN (h : isNaN a = true ∨ isNaN b = true) : mul a b = qNaN :=
  if_pos (by simpa using h)

theorem mul_of_finite (ha : finite a) (hb : finite b) :
    mul a b = pack (sign a != sign b) (roundMag (units a * units b) (2 ^ 149)) := by
  simp [mul, isNaN_of_finite, isInf_of_finite, ha, hb]

theorem mul_of_isInf (ha : isNaN a = false) (hb : isNaN b = false) (h : isInf a = true ∨ isInf b = true) :
    mul a b = if isZero a || isZero b then qNaN else pack (sign a != sign b) infBits := by
  rw [mul, if_neg (by simp [ha, hb]), if_pos (by simpa using h)]

theorem div_of_isNaN (h : isNaN a = true ∨ isNaN b = true) : div a b = qNaN :=
  if_pos (by simpa using h)

theorem div_of_finite (ha : finite a) (hb : finite b) :
    div a b = if isZero b then (if isZero a then qNaN else pack (sign a != sign b) infBits)
      else pack (sign a != sign b) (roundMag (units a * 2 ^ 149) (units b)) := by
  simp [div, isNaN_of_finite, isInf_of_finite, ha, hb]

theorem div_isInf_left (ha : isInf a = true) (hb : isNaN b = false) :
    div a b = if isInf b then qNaN else pack (sign a != sign b) infBits := by
  simp [div, isNaN_of_isInf ha, hb, ha]

theorem div_isInf_isInf (ha : isInf a = true) (hb : isInf b = true) : div a b = qNaN := by
  rw [div_isInf_left ha (isNaN_of_isInf hb), if_pos hb]

theorem div_isInf_right (ha : isInf a = false) (ha' : isNaN a = false) (hb : isInf b = true) :
    div a b = pack (sign a != sign b) 0 := by
  simp [div, isNaN_of_isInf hb, ha', ha, hb]

theorem sign_magBits_mul (ha : finite a) (hb : finite b) :
    sign (mul a b) = (sign a != sign b) ∧ IsNearest (magBits (mul a b)) (units a * units b) (2 ^ 149) := by
  rw [mul_of_finite ha hb, sign_pack_roundMag, magBits_pack_roundMag]
  exact ⟨rfl, roundMag_isNearest _ (by positivity)⟩

theorem sign_magBits_div (ha : finite a) (hb : finite b) (h : isZero b = false) :
    sign (div a b) = (sign a != sign b) ∧ IsNearest (magBits (div a b)) (units a * 2 ^ 149) (units b) := by
  rw [div_of_finite ha hb, if_neg (by simp [h]), sign_pack_roundMag, magBits_pack_roundMag]
  exact ⟨rfl, roundMag_isNearest _ (units_pos h)⟩

theorem div_zero_zero (ha : finite a) (hb : finite b) (hb0 : isZero b = true) (ha0 : isZero a = true) :
    div a b = qNaN := by
  rw [div_of_finite ha hb, if_pos hb0, if_pos ha0]

theorem sign_magBits_div_zero (ha : finite a) (hb : finite b) (hb0 : isZero b = true) (ha0 : isZero a = false) :
    sign (div a b) = (sign a != sign b) ∧ magBits (div a b) = infBits := by
  rw [div_of_finite ha hb, if_pos hb0, if_neg (by simp [ha0])]
  exact ⟨sign_pack_inf _, magBits_pack_inf _⟩

theorem mul_isInf_zero (ha : isInf a = true) (hb : isNaN b = false) (h : isZero b = true) :
    mul a b = qNaN ∧ mul b a = qNaN := by
  rw [mul_of_isInf (isNaN_of_isInf ha) hb (.inl ha), mul_of_isInf hb (isNaN_of_isInf ha) (.inr ha)]
  simp [h]

theorem sign_magBits_mul_isInf (ha : isInf a = true) (hb : isNaN b = false) (h : isZero b = false) :
    sign (mul a b) = (sign a != sign b) ∧ magBits (mul a b) = infBits ∧ mul b a = mul a b := by
  rw [mul_of_isInf (isNaN_of_isInf ha) hb (.inl ha), mul_of_isInf hb (isNaN_of_isInf ha) (.inr ha),
    if_neg (by simp [h, isZero_of_isInf ha]), if_neg (by simp [h, isZero_of_isInf ha])]
  exact ⟨sign_pack_inf _, magBits_pack_inf _, by rw [bne_comm]⟩

theorem sign_magBits_div_isInf (ha : isInf a = true) (hb : isNaN b = false) (h : isInf b = false) :
    sign (div a b) = (sign a != sign b) ∧ magBits (div a b) = infBits ∧
      sign (div b a) = (sign a != sign b) ∧ magBits (div b a) = 0 := by
  rw [div_isInf_left ha hb, if_neg (by simp [h]), div_isInf_right h hb ha]
  exact ⟨sign_pack_inf _, magBits_pack_inf _, by rw [sign_pack _ (by decide), bne_comm],
    magBits_pack _ (by decide)⟩

end mul

end Sys2Proof.Machine.F32

namespace Sys2Proof.Proofs

open Machine.F32

/-- Settles O58: the equations of the operators for finite, infinite and NaN operands, subtraction being the
addition of the operand with its sign flipped. -/
theorem operatorsRoundOnce : Obligations.OperatorsRoundOnce := by
  refine ⟨fun a b ha hb => ?_, fun a b ha hb => ?_, fun a b h => ?_⟩
  · exact ⟨sign_magBits_mul ha hb, sign_magBits_div ha hb, sign_magBits_add ha hb, sign_magBits_add_zero ha hb,
      sign_magBits_sub ha hb, sign_magBits_sub_zero ha hb, div_zero_zero ha hb, sign_magBits_div_zero ha hb⟩
  · exact ⟨add_isInf_opposite ha, add_isInf_absorbs ha hb, sub_isInf_same ha, sub_isInf_absorbs ha hb,
      mul_isInf_zero ha hb, sign_magBits_mul_isInf ha hb, div_isInf_isInf ha, sign_magBits_div_isInf ha hb⟩
  · exact ⟨add_of_isNaN h, add_of_isNaN (by simpa using h), mul_of_isNaN h, div_of_isNaN h⟩

end Sys2Proof.Proofs
end

section
/-! The sine (00_scope.md R15; 40_stft.md R112, R118; 43_gain_postproc.md R203): the constant π/2, the error of
the fixed-point series, the reduction of the angle, and so RN32 of every sine and cosine the model computes. -/

namespace Sys2Proof.Machine.F32

open Spec
open scoped Nat

/-! ## The constant π/2 -/

/-- Term `i` of the series of `arctan(1/k)`, without its sign. -/
def arctanTerm (k i : Nat) : ℚ := (1 / k) ^ (2 * i + 1) / (2 * i + 1)

/-- `arctan(1/k)` by `n` terms of its series. -/
def arctanSum (k n : Nat) : ℚ := ∑ i ∈ Finset.range n, (-1) ^ i * arctanTerm k i

theorem arctanTerm_cast (k i : Nat) : (arctanTerm k i : ℝ) = (1 / k) ^ (2 * i + 1) / (2 * i + 1) := by
  rw [arctanTerm]
  push_cast
  rfl

theorem antitone_arctanTerm {k : Nat} (hk : 1 < k) : Antitone fun i => (arctanTerm k i : ℝ) := by
  intro i j hij
  have hk' : (1 / k : ℝ) ≤ 1 := by
    rw [div_le_one (by positivity)]
    exact_mod_cast hk.le
  have hpow : (1 / k : ℝ) ^ (2 * j + 1) ≤ (1 / k) ^ (2 * i + 1) :=
    pow_le_pow_of_le_one (by positivity) hk' (by omega)
  simp only [arctanTerm_cast]
  gcongr

theorem hasSum_arctanTerm {k : Nat} (hk : 1 < k) :
    HasSum (fun i => (-1) ^ i * (arctanTerm k i : ℝ)) (Real.arctan (k : ℝ)⁻¹) := by
  have hk' : (k : ℝ)⁻¹ < 1 := inv_lt_one_of_one_lt₀ (by exact_mod_cast hk)
  refine (Real.hasSum_arctan (by rwa [Real.norm_of_nonneg (by positivity)])).congr_fun fun i => ?_
  rw [arctanTerm_cast, one_div, mul_div_assoc]
  push_cast
  rfl

/-- The error is at most the first term left out. -/
theorem arctanSum_error {k : Nat} (hk : 1 < k) (n : Nat) :
    |Real.arctan (k : ℝ)⁻¹ - arctanSum k n| ≤ arctanTerm k n := by
  have hsum := hasSum_arctanTerm hk
  have hs : Summable fun i => (arctanTerm k i : ℝ) := hsum.summable.abs.congr fun i => by
    rw [abs_mul, abs_pow, abs_neg, abs_one, one_pow, one_mul, abs_of_nonneg]
    rw [arctanTerm_cast]
    positivity
  have hb := alternating_series_error_bound _ (antitone_arctanTerm hk) hs n
  rw [hsum.tsum_eq] at hb
  rw [arctanSum]
  push_cast
  exact hb

/-- π/2 by Machin's formula. -/
def machinSum : ℚ := 2 * (4 * arctanSum 5 90 - arctanSum 239 30)

/-- The error of `machinSum`, at most. -/
def machinRest : ℚ := 2 * (4 * arctanTerm 5 90 + arctanTerm 239 30)

theorem machinSum_error : |Real.pi / 2 - machinSum| ≤ machinRest := by
  have h5 := arctanSum_error (k := 5) (by decide) 90
  have h239 := arctanSum_error (k := 239) (by decide) 30
  have hpi := Real.four_mul_arctan_inv_5_sub_arctan_inv_239
  simp only [machinSum, machinRest, Rat.cast_mul, Rat.cast_sub, Rat.cast_add, Rat.cast_ofNat,
    Nat.cast_ofNat, abs_le] at h5 h239 ⊢
  constructor <;> linarith

/-- The constant `halfPi384` against Machin's formula, both in units of 2^-384. -/
theorem machinSum_close : |2 ^ 192 * machinSum - halfPi384 / 2 ^ 192| + 2 ^ 192 * machinRest ≤ 2 / 2 ^ 192 := by
  decide +kernel

/-- The constant `halfPi384` is π/2 to within two of its units of 2^-384. -/
theorem halfPi384_error : |2 ^ 192 * (Real.pi / 2) - (halfPi384 : ℝ) / 2 ^ 192| ≤ 2 / 2 ^ 192 := by
  have h1 : |2 ^ 192 * (machinSum : ℝ) - (halfPi384 : ℝ) / 2 ^ 192| + 2 ^ 192 * (machinRest : ℝ) ≤ 2 / 2 ^ 192 := by
    have h := (Rat.cast_le (K := ℝ)).mpr machinSum_close
    push_cast at h
    exact h
  have h2 : |2 ^ 192 * (Real.pi / 2) - 2 ^ 192 * (machinSum : ℝ)| ≤ 2 ^ 192 * (machinRest : ℝ) := by
    rw [← mul_sub, abs_mul, abs_of_pos (show (0 : ℝ) < 2 ^ 192 by positivity)]
    exact mul_le_mul_of_nonneg_left machinSum_error (by positivity)
  have h3 := abs_sub_le (2 ^ 192 * (Real.pi / 2)) (2 ^ 192 * (machinSum : ℝ)) ((halfPi384 : ℝ) / 2 ^ 192)
  linarith

/-! ## The fixed-point series -/

/-- A floor division is within one of the quotient. -/
theorem natDiv_bounds {K : Type*} [Field K] [LinearOrder K] [IsStrictOrderedRing K] (a : ℕ) {b : ℕ} (hb : 0 < b) :
    ((a / b : ℕ) : K) ≤ a / b ∧ (a : K) / b < (a / b : ℕ) + 1 := by
  refine ⟨Nat.cast_div_le, ?_⟩
  rw [div_lt_iff₀ (by exact_mod_cast hb)]
  exact_mod_cast (Nat.div_lt_iff_lt_mul hb).mp (Nat.lt_succ_self (a / b))

theorem fixOne_pos {K : Type*} [Field K] [LinearOrder K] [IsStrictOrderedRing K] : (0 : K) < fixOne := by
  norm_num [fixOne]

theorem halfPi192_sq_le : 2 * (halfPi192 * halfPi192) ≤ 5 * (fixOne * fixOne) := by decide +kernel
theorem halfPi192_le : 5 * halfPi192 ≤ 8 * fixOne := by decide +kernel

/-- `sinTail` over the rationals, with no rounding and `y = x²`. -/
def sinTailQ (y : ℚ) : Nat → Nat → ℚ
  | 0, _ => 1
  | fuel + 1, k => 1 - y * sinTailQ y fuel (k + 1) / (2 * k * (2 * k + 1))

theorem sinTerm_even (x : ℚ) (k : Nat) : sinTerm x (2 * k) = 0 := by
  rw [sinTerm, if_neg (by omega), if_neg (by omega), zero_mul, zero_div]

theorem sinTerm_odd (x : ℚ) (k : Nat) :
    sinTerm x (2 * k + 1) = (-1) ^ k * x ^ (2 * k + 1) / (2 * k + 1)! := by
  rw [sinTerm]
  rcases Nat.even_or_odd' k with ⟨j, rfl | rfl⟩
  · rw [if_pos (by omega), pow_mul, neg_one_sq, one_pow]
  · rw [if_neg (by omega), if_pos (by omega), pow_succ (-1), pow_mul (-1), neg_one_sq, one_pow, one_mul]

/-- The nested form from degree `2k + 1` on is the rest of the power series. -/
theorem sinSum_add_sinTailQ (x : ℚ) (fuel k : Nat) :
    sinSum x (2 * k + 1) + (-1) ^ k * x ^ (2 * k + 1) / (2 * k + 1)! * sinTailQ (x ^ 2) fuel (k + 1) =
      sinSum x (2 * (k + fuel) + 3) := by
  have hstep : ∀ j, sinSum x (2 * j + 3) = sinSum x (2 * j + 1) + (-1) ^ j * x ^ (2 * j + 1) / (2 * j + 1)! := by
    intro j
    rw [sinSum, Finset.sum_range_succ, Finset.sum_range_succ, show 2 * j + 1 + 1 = 2 * (j + 1) by ring,
      sinTerm_even, sinTerm_odd, add_zero, sinSum]
  induction fuel generalizing k with
  | zero => rw [sinTailQ, mul_one, Nat.add_zero k, hstep]
  | succ fuel ih =>
    rw [show 2 * (k + (fuel + 1)) + 3 = 2 * (k + 1 + fuel) + 3 by ring, ← ih, show 2 * (k + 1) + 1 = 2 * k + 3 by ring,
      hstep, sinTailQ, show (2 * k + 3)! = (2 * k + 3) * ((2 * k + 2) * (2 * k + 1)!) by rfl]
    push_cast
    field_simp
    ring

/-- One level of the nested form: an error of two units below becomes one of at most one unit. -/
theorem sinTail_step_error {F x2 T y τ D : ℚ} (hF : 0 < F) (hD : 6 ≤ D) (hy0 : 0 ≤ y) (hy : y ≤ 5 / 2)
    (hlo : x2 ≤ F * y) (hhi : F * y ≤ x2 + 1) (hT0 : 0 ≤ T) (hT : T ≤ F) (ih : |T - F * τ| ≤ 2) :
    |x2 * T / (F * D) - F * (y * τ / D)| ≤ 1 := by
  have e : x2 * T / (F * D) - F * (y * τ / D) = (y * (T - F * τ) - (F * y - x2) * (T / F)) / D := by
    field_simp
    ring
  have h1 : |y * (T - F * τ)| ≤ 5 / 2 * 2 := by
    rw [abs_mul, abs_of_nonneg hy0]
    gcongr
  have h2 : |(F * y - x2) * (T / F)| ≤ 1 * 1 := by
    rw [abs_mul, abs_of_nonneg (div_nonneg hT0 hF.le)]
    gcongr
    · exact abs_le.mpr ⟨by linarith, by linarith⟩
    · rwa [div_le_one hF]
  rw [e, abs_div, abs_of_pos (show 0 < D by linarith), div_le_one (by linarith)]
  exact (abs_sub _ _).trans (by linarith)

/-- The subtraction in `sinTail` is not cut off at 0. -/
theorem sinTail_quotient_le {x2 : Nat} (hx2 : x2 ≤ 6 * fixOne) (fuel : Nat) {k : Nat} (hk : 1 ≤ k) :
    x2 * sinTail x2 fuel (k + 1) / (fixOne * (2 * k * (2 * k + 1))) ≤ fixOne := by
  have hD : 6 ≤ 2 * k * (2 * k + 1) := Nat.mul_le_mul (show 2 ≤ 2 * k by omega) (show 3 ≤ 2 * k + 1 by omega)
  apply Nat.div_le_of_le_mul
  calc x2 * sinTail x2 fuel (k + 1) ≤ 6 * fixOne * fixOne := Nat.mul_le_mul hx2 (sinTail_le _ _ _)
    _ = fixOne * 6 * fixOne := by rw [Nat.mul_comm 6]
    _ ≤ fixOne * (2 * k * (2 * k + 1)) * fixOne := Nat.mul_le_mul_right _ (Nat.mul_le_mul_left _ hD)

/-- Every level of the computed nested form is within two units of the exact one. -/
theorem sinTail_error {x2 : Nat} {y : ℚ} (hlo : x2 ≤ fixOne * y) (hhi : fixOne * y < x2 + 1) (hy0 : 0 ≤ y)
    (hy : y ≤ 5 / 2) (fuel : Nat) {k : Nat} (hk : 1 ≤ k) :
    |sinTail x2 fuel k - fixOne * sinTailQ y fuel k| ≤ 2 := by
  induction fuel generalizing k with
  | zero => simp [sinTail, sinTailQ]
  | succ fuel ih =>
    have hx2 : x2 ≤ 6 * fixOne := by
      have : (x2 : ℚ) ≤ 6 * fixOne := hlo.trans (by nlinarith [fixOne_pos (K := ℚ)])
      exact_mod_cast this
    have hD : (6 : ℚ) ≤ 2 * k * (2 * k + 1) := by
      have : (1 : ℚ) ≤ k := by exact_mod_cast hk
      nlinarith
    have hstep := sinTail_step_error fixOne_pos hD hy0 hy hlo hhi.le (Nat.cast_nonneg _)
      (by exact_mod_cast sinTail_le x2 fuel (k + 1)) (ih (k := k + 1) (by omega))
    obtain ⟨h1, h2⟩ := natDiv_bounds (K := ℚ) (x2 * sinTail x2 fuel (k + 1))
      (show 0 < fixOne * (2 * k * (2 * k + 1)) from Nat.mul_pos (by decide) (by positivity))
    rw [sinTail, sinTailQ, Nat.cast_sub (sinTail_quotient_le hx2 fuel hk), mul_sub, mul_one]
    push_cast at h1 h2
    rw [abs_le] at hstep ⊢
    constructor <;> linarith

/-- What is used of an angle up to π/2. -/
theorem angle_bounds {x : Nat} (hx : x ≤ halfPi192) :
    (x / fixOne : ℚ) ≤ 8 / 5 ∧ (x / fixOne : ℚ) ^ 2 ≤ 5 / 2 := by
  have hF := fixOne_pos (K := ℚ)
  rw [div_pow, div_le_div_iff₀ hF (by norm_num), div_le_div_iff₀ (by positivity) (by norm_num)]
  have h1 := halfPi192_le
  have h2 := (Nat.mul_le_mul_left 2 (Nat.mul_le_mul hx hx)).trans halfPi192_sq_le
  constructor
  · exact_mod_cast (show x * 5 ≤ 8 * fixOne by omega)
  · exact_mod_cast (show x ^ 2 * 2 ≤ 5 * fixOne ^ 2 by rw [sq, sq]; linarith)

/-- The terms the model sums reach far below one unit. -/
theorem sinRest_59 : fixOne * sinRest (8 / 5) 59 ≤ 1 := by decide +kernel

theorem sinFix_error_rat {x : Nat} (hx : x ≤ halfPi192) :
    |sinFix x - fixOne * sinSum (x / fixOne) 59| ≤ 5 := by
  have hF := fixOne_pos (K := ℚ)
  obtain ⟨hX, hy⟩ := angle_bounds hx
  have hs : sinSum (x / fixOne) 59 = x / fixOne * sinTailQ ((x / fixOne) ^ 2) 28 1 := by
    have := sinSum_add_sinTailQ (x / fixOne) 28 0
    simpa [sinSum, sinTerm] using this.symm
  have e : (fixOne * (x / fixOne : ℚ) ^ 2) = (x * x : ℕ) / fixOne := by
    push_cast
    field_simp
  obtain ⟨h1, h2⟩ := natDiv_bounds (K := ℚ) (x * x) (show 0 < fixOne by decide)
  have hT := sinTail_error (e ▸ h1) (e ▸ h2) (by positivity) hy 28 le_rfl
  obtain ⟨h3, h4⟩ := natDiv_bounds (K := ℚ) (x * sinTail (x * x / fixOne) 28 1) (show 0 < fixOne by decide)
  rw [hs, sinFix]
  have hp : |(x * sinTail (x * x / fixOne) 28 1 : ℕ) / fixOne -
      fixOne * (x / fixOne * sinTailQ ((x / fixOne) ^ 2) 28 1)| ≤ 8 / 5 * 2 := by
    have e' : ∀ T τ : ℚ, x * T / fixOne - fixOne * (x / fixOne * τ) = x / fixOne * (T - fixOne * τ) := by
      intro T τ
      ring
    rw [Nat.cast_mul, e', abs_mul, abs_of_nonneg (by positivity)]
    gcongr
  rw [abs_le] at hp ⊢
  constructor <;> linarith

theorem sinFix_error {x : Nat} (hx : x ≤ halfPi192) :
    |sinFix x - fixOne * Real.sin (x / fixOne)| ≤ 8 := by
  obtain ⟨hX, -⟩ := angle_bounds hx
  have hX0 : (0 : ℚ) ≤ x / fixOne := by positivity
  have h1 : |(sinFix x : ℝ) - fixOne * (sinSum (x / fixOne) 59 : ℚ)| ≤ 5 := by
    exact_mod_cast sinFix_error_rat hx
  have h2 := sinSum_error (x / fixOne) 59 (by rw [abs_of_nonneg hX0]; norm_num; linarith)
  have h3 : fixOne * sinRest (x / fixOne) 59 ≤ 1 := by
    refine le_trans ?_ sinRest_59
    rw [sinRest, sinRest, abs_of_nonneg hX0, abs_of_nonneg (by norm_num)]
    gcongr
  have h4 : |fixOne * Real.sin (x / fixOne) - fixOne * (sinSum (x / fixOne) 59 : ℚ)| ≤ 1 := by
    rw [← mul_sub, abs_mul, abs_of_nonneg (Nat.cast_nonneg _)]
    push_cast at h2
    refine (mul_le_mul_of_nonneg_left h2 (Nat.cast_nonneg _)).trans ?_
    exact_mod_cast h3
  rw [abs_le] at h1 h4 ⊢
  constructor <;> linarith

/-! ## RN32 of a real -/

theorem isRN32_posZero : IsRN32 posZero 0 := by
  rw [IsRN32, if_pos rfl, posZero]

theorem isRN32_pack {neg : Bool} {m : Nat} {x : ℝ} (hx : x ≠ 0) (hs : neg = true ↔ x < 0)
    (hr : RoundsTo m (|x| * 2 ^ 149)) : IsRN32 (pack neg m) x := by
  have hm : m < 2 ^ 31 := hr.le.trans_lt infBits_lt
  rw [IsRN32, if_neg hx, sign_pack neg hm, magBits_pack neg hm]
  exact ⟨hs, hr.isNearestReal⟩

theorem isRN32_neg {w : Word} {x : ℝ} (hx : x ≠ 0) (h : IsRN32 w x) : IsRN32 (neg w) (-x) := by
  rw [IsRN32, if_neg hx] at h
  obtain ⟨hs, hn⟩ := h
  rw [IsRN32, if_neg (neg_ne_zero.mpr hx), abs_neg, magBits_neg, sign_neg]
  refine ⟨?_, hn⟩
  rw [Bool.not_eq_true', ← Bool.not_eq_true, hs, not_lt, neg_lt_zero]
  exact ⟨fun h => lt_of_le_of_ne h hx.symm, le_of_lt⟩

/-- A real as large as the smallest subnormal does not round to a zero. -/
theorem isZero_of_isRN32 {w : Word} {x : ℝ} (h : IsRN32 w x) (hx : 1 ≤ |x| * 2 ^ 149) : isZero w = false := by
  rw [IsRN32, if_neg (by rintro rfl; norm_num at hx)] at h
  obtain ⟨-, hn⟩ := h
  refine decide_eq_false fun h0 => ?_
  unfold IsNearestReal at hn
  split at hn
  · exact absurd (h0.symm.trans hn) (by decide)
  · have h1 := (hn.2 1 (by decide)).1
    rw [h0, show unitsOf 0 = 0 by decide, show unitsOf 1 = 1 by decide, Nat.cast_zero, Nat.cast_one] at h1
    generalize |x| * 2 ^ 149 = y at hx h1
    rw [zero_sub, abs_neg, abs_of_pos (by linarith), abs_of_nonpos (by linarith)] at h1
    linarith

/-- The rounding that an enclosure decides is that of every real in it. -/
theorem roundsTo_of_decides {lo hi : Nat} {x : ℝ} (hlo : (lo : ℝ) ≤ x) (hhi : x ≤ hi)
    (h : decides lo hi = true) : RoundsTo (roundFix lo) (x / 2 ^ 43) := by
  obtain ⟨-, he⟩ := decides_iff.mp h
  have h1 : RoundsTo (roundFix lo) (lo / (2 ^ 43 : ℕ)) := roundMag_roundsTo lo (Nat.two_pow_pos 43)
  have h2 : RoundsTo (roundFix hi) (hi / (2 ^ 43 : ℕ)) := roundMag_roundsTo hi (Nat.two_pow_pos 43)
  rw [← he] at h2
  simp only [Nat.cast_pow, Nat.cast_ofNat] at h1 h2
  exact h1.between h2 (by gcongr) (by gcongr)

/-! ## The enclosure of a sine -/

theorem fixOne_cast : (fixOne : ℝ) = 2 ^ 192 := by norm_num [fixOne]

/-- An angle known to within 56 units lies, with its sine, in the enclosure the model computes. -/
theorem sin_of_decides {angle : Nat} {θ : ℝ} (ha : angle ≤ halfPi192) (hθ : |2 ^ 192 * θ - angle| ≤ 56)
    (h : decides (sinLow angle) (sinHigh angle) = true) :
    0 < Real.sin θ ∧ RoundsTo (roundFix (sinLow angle)) (Real.sin θ * 2 ^ 149) := by
  have hF : (0 : ℝ) < 2 ^ 192 := by positivity
  have h1 := sinFix_error ha
  rw [fixOne_cast] at h1
  have h2 : |2 ^ 192 * Real.sin θ - 2 ^ 192 * Real.sin (angle / 2 ^ 192)| ≤ 56 := by
    refine le_trans ?_ hθ
    rw [← mul_sub, abs_mul]
    calc |(2 : ℝ) ^ 192| * |Real.sin θ - Real.sin (angle / 2 ^ 192)| ≤ |(2 : ℝ) ^ 192| * |θ - angle / 2 ^ 192| :=
          mul_le_mul_of_nonneg_left (Real.abs_sin_sub_sin_le _ _) (abs_nonneg _)
      _ = |2 ^ 192 * θ - angle| := by
          rw [← abs_mul, mul_sub, mul_div_cancel₀ _ hF.ne']
  rw [abs_le] at h1 h2
  have hpos : 0 < sinLow angle := (decides_iff.mp h).1
  have hlow : (sinLow angle : ℝ) = sinFix angle - 64 := by
    rw [sinLow, Nat.cast_sub (by rw [sinLow] at hpos; omega)]
    norm_num [sinError]
  have hhigh : (sinHigh angle : ℝ) = sinFix angle + 64 := by
    rw [sinHigh, Nat.cast_add]
    norm_num [sinError]
  have hlo : (sinLow angle : ℝ) ≤ 2 ^ 192 * Real.sin θ := by linarith
  have hp : (0 : ℝ) < sinLow angle := by exact_mod_cast hpos
  refine ⟨pos_of_mul_pos_right (hp.trans_le hlo) hF.le, ?_⟩
  have := roundsTo_of_decides hlo (by linarith) h
  rwa [show 2 ^ 192 * Real.sin θ / 2 ^ 43 = Real.sin θ * 2 ^ 149 by ring] at this

/-- The exact search gives RN32 of the sine of the angle it encloses. -/
theorem searchSin_isRN32 {c r : ℕ → ℚ} {θ : ℝ} (hθ : ∀ n, |θ - c n| ≤ r n)
    (h : ∃ k, sinRoundsTo c r k = true) : IsRN32 (searchSin c r h) (Real.sin θ) := by
  obtain ⟨m, hm, he, h0, hl, hu⟩ := searchSin_spec hθ h
  rw [he]
  have e : |Real.sin θ| * 2 ^ 150 = 2 * (|Real.sin θ| * 2 ^ 149) := by ring
  rw [e] at hl hu
  exact isRN32_pack h0 decide_eq_true_iff (roundsTo_of_between hm hl hu)

/-! ## Sine and cosine of a part of a turn -/

/-- The reduction of `sinPi`: whole turns, the sign of the second half turn, and `sin(π − x) = sin x`. -/
theorem sin_pi_reduced (p : ℕ) {q : ℕ} (hq : 0 < q) :
    Real.sin (Real.pi * p / q) = (if q ≤ p % (2 * q) then -1 else 1) *
      Real.sin (Real.pi * (min (p % (2 * q) % q) (q - p % (2 * q) % q) : ℕ) / q) := by
  have hq' : (q : ℝ) ≠ 0 := by exact_mod_cast hq.ne'
  have hturns : Real.sin (Real.pi * p / q) = Real.sin (Real.pi * (p % (2 * q) : ℕ) / q) := by
    have hp : (p : ℝ) = (p % (2 * q) : ℕ) + (p / (2 * q) : ℕ) * (2 * q) := by
      exact_mod_cast (Nat.mod_add_div' p (2 * q)).symm
    have e : Real.pi * p / q = Real.pi * (p % (2 * q) : ℕ) / q + (p / (2 * q) : ℕ) * (2 * Real.pi) := by
      generalize p % (2 * q) = t at hp
      rw [hp]
      field_simp
    rw [e, Real.sin_add_nat_mul_two_pi]
  have hfold : ∀ u : ℕ, u ≤ q → Real.sin (Real.pi * (min u (q - u) : ℕ) / q) = Real.sin (Real.pi * u / q) := by
    intro u hu
    rcases le_total u (q - u) with h | h
    · rw [min_eq_left h]
    · rw [min_eq_right h, Nat.cast_sub hu, ← Real.sin_pi_sub (Real.pi * u / q)]
      congr 1
      field_simp
  have ht : p % (2 * q) < 2 * q := Nat.mod_lt _ (by omega)
  rw [hturns, hfold _ (Nat.mod_lt _ hq).le]
  generalize p % (2 * q) = t at ht
  split_ifs with h
  · rw [Nat.mod_eq_sub_mod h, Nat.mod_eq_of_lt (by omega), Nat.cast_sub h, neg_one_mul,
      ← Real.sin_add_pi]
    congr 1
    field_simp
    ring
  · rw [Nat.mod_eq_of_lt (by omega), one_mul]

/-- The angle that `sinPi` computes, to within its floor and the error of `halfPi384`. -/
theorem sinPi_angle {v q : ℕ} (hq : 0 < q) (hv : 2 * v ≤ q) :
    2 * halfPi384 * v / (q * 2 ^ 192) ≤ halfPi192 ∧
      |2 ^ 192 * (Real.pi * v / q) - (2 * halfPi384 * v / (q * 2 ^ 192) : ℕ)| ≤ 56 := by
  have hq' : (0 : ℝ) < q := by exact_mod_cast hq
  have hr : (2 * v / q : ℝ) ≤ 1 := by
    rw [div_le_one hq']
    exact_mod_cast hv
  constructor
  · rw [halfPi192, ← Nat.div_div_eq_div_mul]
    apply Nat.div_le_div_right
    apply Nat.div_le_of_le_mul
    calc 2 * halfPi384 * v = halfPi384 * (2 * v) := by ring
      _ ≤ halfPi384 * q := Nat.mul_le_mul_left _ hv
      _ = q * halfPi384 := Nat.mul_comm _ _
  · obtain ⟨h1, h2⟩ := natDiv_bounds (K := ℝ) (2 * halfPi384 * v) (show 0 < q * 2 ^ 192 by positivity)
    have e1 : ((2 * halfPi384 * v : ℕ) / (q * 2 ^ 192 : ℕ) : ℝ) = 2 * v / q * ((halfPi384 : ℝ) / 2 ^ 192) := by
      push_cast
      field_simp
      ring
    have e2 : 2 ^ 192 * (Real.pi * v / q) = 2 * v / q * (2 ^ 192 * (Real.pi / 2)) := by
      field_simp
    have h3 : |2 * v / q * (2 ^ 192 * (Real.pi / 2)) - 2 * v / q * ((halfPi384 : ℝ) / 2 ^ 192)| ≤ 1 := by
      rw [← mul_sub, abs_mul, abs_of_nonneg (by positivity)]
      exact mul_le_one₀ hr (abs_nonneg _) (halfPi384_error.trans (by norm_num))
    rw [e1] at h1 h2
    rw [e2]
    rw [abs_le] at h3 ⊢
    constructor <;> linarith

theorem piSum_angle_error (t q n : ℕ) :
    |Real.pi * t / q - ((piSum n * t / q : ℚ) : ℝ)| ≤ ((piRest n * t / q : ℚ) : ℝ) := by
  have e : Real.pi * t / q - ((piSum n * t / q : ℚ) : ℝ) = (Real.pi - piSum n) * (t / q) := by push_cast; ring
  have e' : ((piRest n * t / q : ℚ) : ℝ) = piRest n * (t / q) := by push_cast; ring
  rw [e, e', abs_mul, abs_of_nonneg (show (0 : ℝ) ≤ t / q by positivity)]
  exact mul_le_mul_of_nonneg_right (piSum_error n) (by positivity)

theorem sinPi_isRN32 (p : ℕ) {q : ℕ} (hq : 0 < q) : IsRN32 (sinPi p q) (Real.sin (Real.pi * p / q)) := by
  have hred := sin_pi_reduced p hq
  simp only [sinPi]
  split_ifs with h hd
  · generalize p % (2 * q) = t at hred hd h ⊢
    obtain ⟨ha, hθ⟩ := sinPi_angle hq (show 2 * min (t % q) (q - t % q) ≤ q by omega)
    obtain ⟨hpos, hr⟩ := sin_of_decides ha hθ hd
    rw [← abs_of_pos hpos] at hr
    rw [hred]
    split_ifs with hqt
    · refine isRN32_pack (by linarith) (by simpa [hqt] using hpos) (by rwa [neg_one_mul, abs_neg])
    · refine isRN32_pack (by linarith) (by simpa [hqt] using hpos.le) (by rwa [one_mul])
  · have hsame : Real.sin (Real.pi * p / q) = Real.sin (Real.pi * (p % (2 * q) : ℕ) / q) := by
      rw [hred, sin_pi_reduced (p % (2 * q)) hq, Nat.mod_mod]
    rw [hsame]
    exact searchSin_isRN32 (piSum_angle_error _ q) _
  · have hu : p % (2 * q) % q = 0 := by
      by_contra hne
      exact h ⟨hq, hne⟩
    rw [hred, hu, Nat.zero_min]
    simpa using isRN32_posZero

theorem cosPi_isRN32 (p : ℕ) {q : ℕ} (hq : 0 < q) : IsRN32 (cosPi p q) (Real.cos (Real.pi * p / q)) := by
  have h := sinPi_isRN32 (2 * p + q) (show 0 < 2 * q by omega)
  have hq' : (q : ℝ) ≠ 0 := by exact_mod_cast hq.ne'
  have e : Real.pi * (2 * p + q : ℕ) / (2 * q : ℕ) = Real.pi * p / q + Real.pi / 2 := by
    push_cast
    field_simp
  rwa [e, Real.sin_add_pi_div_two] at h

/-- The sine of a part of a turn is 0 or not small. -/
theorem sin_pi_eq_zero_or_ge (p : ℕ) {q : ℕ} (hq : 0 < q) :
    Real.sin (Real.pi * p / q) = 0 ∨ 2 / q ≤ |Real.sin (Real.pi * p / q)| := by
  have hq' : (0 : ℝ) < q := by exact_mod_cast hq
  rw [sin_pi_reduced p hq]
  generalize p % (2 * q) = t
  rcases Nat.eq_zero_or_pos (min (t % q) (q - t % q)) with h0 | hpos
  · exact .inl (by simp [h0])
  · right
    have h2 : 2 * min (t % q) (q - t % q) ≤ q := by omega
    generalize min (t % q) (q - t % q) = v at hpos h2
    have h2' : (2 * v : ℝ) ≤ q := by exact_mod_cast h2
    have hle : Real.pi * v / q ≤ Real.pi / 2 := by
      rw [div_le_div_iff₀ hq' two_pos]
      nlinarith [Real.pi_pos]
    have hs := Real.mul_le_sin (show 0 ≤ Real.pi * v / q by positivity) hle
    have e : 2 / Real.pi * (Real.pi * v / q) = 2 * v / q := by
      field_simp
    have h1 : (1 : ℝ) ≤ v := by exact_mod_cast hpos
    have : (2 / q : ℝ) ≤ 2 * v / q := by
      gcongr
      linarith
    have hge : 2 / q ≤ Real.sin (Real.pi * v / q) := by linarith
    rw [abs_mul]
    have hsign : |(if q ≤ t then -1 else 1 : ℝ)| = 1 := by split_ifs <;> simp
    rw [hsign, one_mul]
    exact hge.trans (le_abs_self _)

/-! ## The sine of a binary32 value -/

/-- The reduction of `sin32`: by `n` quarter turns. -/
theorem sin_quarters (x : ℝ) (n : ℕ) :
    Real.sin x = (if 2 ≤ n % 4 then -1 else 1) *
      Real.sin (if n % 2 = 0 then x - n * (Real.pi / 2) else Real.pi / 2 - (x - n * (Real.pi / 2))) := by
  have hn : (n : ℝ) = (n % 4 : ℕ) + (n / 4 : ℕ) * 4 := by exact_mod_cast (Nat.mod_add_div' n 4).symm
  have hx : x = x - n * (Real.pi / 2) + (n % 4 : ℕ) * (Real.pi / 2) + (n / 4 : ℕ) * (2 * Real.pi) := by
    rw [hn]; ring
  have hlt : n % 4 < 4 := Nat.mod_lt _ (by decide)
  have h2 : n % 2 = n % 4 % 2 := by omega
  rw [h2]
  generalize x - n * (Real.pi / 2) = ρ at hx
  rw [hx, Real.sin_add_nat_mul_two_pi]
  generalize n % 4 = j at hlt
  interval_cases j
  · simp
  · simp [Real.sin_add_pi_div_two, Real.sin_pi_div_two_sub]
  · simp [Real.sin_add_pi, show (2 : ℝ) * (Real.pi / 2) = Real.pi by ring]
  · have : ρ + (3 : ℕ) * (Real.pi / 2) = ρ + Real.pi + Real.pi / 2 := by push_cast; ring
    rw [this, Real.sin_add_pi_div_two, Real.cos_add_pi]
    simp [Real.sin_pi_div_two_sub]

theorem units_lt_of_finite {a : Word} (h : finite a) : units a < 2 ^ 277 := by
  have : magBits (0x7F800000#32) = infBits := by decide
  have h1 : units a < units 0x7F800000#32 := units_lt_units (by rw [this]; exact h)
  have h2 : units 0x7F800000#32 = 2 ^ 277 := by decide +kernel
  omega

/-- The angle that `sin32` computes from the magnitude of a finite operand. -/
theorem sin32_angle {u n r : ℕ} (hu : u < 2 ^ 277) (hn : n = u * 2 ^ 235 / halfPi384)
    (hr : r = u * 2 ^ 235 % halfPi384 / 2 ^ 192) :
    r ≤ halfPi192 ∧ |2 ^ 192 * (u / 2 ^ 149 - n * (Real.pi / 2)) - r| ≤ 2 := by
  have hH : 0 < halfPi384 := by decide +kernel
  have hnlt : n < 2 ^ 128 := by
    rw [hn]
    apply (Nat.div_lt_iff_lt_mul hH).mpr
    calc u * 2 ^ 235 < 2 ^ 277 * 2 ^ 235 := Nat.mul_lt_mul_of_pos_right hu (by positivity)
      _ ≤ 2 ^ 128 * halfPi384 := by decide +kernel
  refine ⟨hr ▸ Nat.div_le_div_right (Nat.mod_lt _ hH).le, ?_⟩
  obtain ⟨h1, h2⟩ := natDiv_bounds (K := ℝ) (u * 2 ^ 235 % halfPi384) (show 0 < 2 ^ 192 by positivity)
  have hx : ((u * 2 ^ 235 % halfPi384 : ℕ) : ℝ) = u * 2 ^ 235 - halfPi384 * n := by
    rw [eq_sub_iff_add_eq, hn]
    exact_mod_cast Nat.mod_add_div (u * 2 ^ 235) halfPi384
  rw [← hr, hx] at h1 h2
  have e : 2 ^ 192 * (u / 2 ^ 149 - n * (Real.pi / 2)) = (u * 2 ^ 235 - halfPi384 * n) / (2 ^ 192 : ℕ) -
      n * (2 ^ 192 * (Real.pi / 2) - (halfPi384 : ℝ) / 2 ^ 192) := by
    push_cast
    ring
  have h3 : |n * (2 ^ 192 * (Real.pi / 2) - (halfPi384 : ℝ) / 2 ^ 192)| ≤ 1 := by
    rw [abs_mul, abs_of_nonneg (Nat.cast_nonneg _)]
    have hn' : (n : ℝ) ≤ 2 ^ 128 := by exact_mod_cast hnlt.le
    calc (n : ℝ) * _ ≤ 2 ^ 128 * (2 / 2 ^ 192) :=
          mul_le_mul hn' halfPi384_error (abs_nonneg _) (by positivity)
      _ ≤ 1 := by norm_num
  rw [e]
  rw [abs_le] at h3 ⊢
  constructor <;> linarith

theorem halfPi192_error : |2 ^ 192 * (Real.pi / 2) - halfPi192| ≤ 2 := by
  obtain ⟨h1, h2⟩ := natDiv_bounds (K := ℝ) halfPi384 (show 0 < 2 ^ 192 by positivity)
  have h3 := halfPi384_error.trans (show (2 / 2 ^ 192 : ℝ) ≤ 1 by norm_num)
  rw [← halfPi192] at h1 h2
  push_cast at h1 h2
  rw [abs_le] at h3 ⊢
  constructor <;> linarith

theorem realOf_eq (a : Word) : realOf a = (if sign a then -1 else 1) * (units a / 2 ^ 149) := by
  rw [realOf, value]
  split_ifs <;> push_cast <;> ring

theorem ratOf_cast (a : Word) : (ratOf a : ℝ) = realOf a := by
  rw [ratOf, realOf]
  push_cast
  rfl

theorem value_of_isZero {a : Word} (h : isZero a = true) : value a = 0 := by
  have h0 : magBits a = 0 := of_decide_eq_true h
  have : units a = 0 := (units_subnormal (by omega)).trans h0
  simp [value, this]

theorem sin32_of_isZero {a : Word} (h : isZero a = true) : sin32 a = posZero := by
  have h0 : magBits a = 0 := of_decide_eq_true h
  have h1 : isNaN a = false := decide_eq_false (by rw [h0]; decide)
  have h2 : isInf a = false := decide_eq_false (by rw [h0]; decide)
  simp [sin32, h1, h2, h]

theorem sin32_isRN32 {a : Word} (hf : finite a) : IsRN32 (sin32 a) (Real.sin (realOf a)) := by
  by_cases h0 : isZero a = true
  · rw [sin32_of_isZero h0, realOf, value_of_isZero h0]
    simpa using isRN32_posZero
  obtain ⟨hr, hρ⟩ := sin32_angle (units_lt_of_finite hf) rfl rfl
  have hred : Real.sin (realOf a) = (if sign a then -1 else 1) * Real.sin (units a / 2 ^ 149) := by
    rw [realOf_eq]
    split_ifs <;> simp
  rw [sin_quarters (units a / 2 ^ 149) (units a * 2 ^ 235 / halfPi384)] at hred
  rw [sin32, if_neg (by simp [isNaN_of_finite hf, isInf_of_finite hf]), dif_neg h0]
  simp only
  set n := units a * 2 ^ 235 / halfPi384
  set r := units a * 2 ^ 235 % halfPi384 / 2 ^ 192
  set angle := if n % 2 = 0 then r else halfPi192 - r with hangle
  set θ := if n % 2 = 0 then units a / 2 ^ 149 - n * (Real.pi / 2)
    else Real.pi / 2 - (units a / 2 ^ 149 - n * (Real.pi / 2)) with hθ
  split_ifs with hd
  · have ha : angle ≤ halfPi192 := by
      rw [hangle]; split_ifs <;> omega
    have he : |2 ^ 192 * θ - angle| ≤ 56 := by
      rw [hangle, hθ]
      have h1 := halfPi192_error
      split_ifs
      · linarith
      · rw [Nat.cast_sub hr]
        rw [abs_le] at h1 hρ ⊢
        constructor <;> linarith
    obtain ⟨hpos, hround⟩ := sin_of_decides ha he hd
    have habs : |Real.sin (realOf a)| = Real.sin θ := by
      rw [hred]
      split_ifs <;> simp [abs_of_pos hpos]
    refine isRN32_pack (abs_pos.mp (habs ▸ hpos)) ?_ (habs ▸ hround)
    rw [hred]
    by_cases hs : sign a = true <;> by_cases hq : 2 ≤ n % 4 <;> simp [hs, hq, hpos, hpos.le]
  · rw [← ratOf_cast]
    exact searchSin_isRN32 (by simp) _

/-! ## The window and the twiddle factors -/

theorem neg_sinPi_isRN32 (p : ℕ) {q : ℕ} (hq : 0 < q) (hq' : q ≤ 2 ^ 149) :
    IsRN32 (if isZero (sinPi p q) then posZero else neg (sinPi p q)) (-Real.sin (Real.pi * p / q)) := by
  have h := sinPi_isRN32 p hq
  rcases sin_pi_eq_zero_or_ge p hq with h0 | hge
  · rw [h0, IsRN32, if_pos rfl] at h
    rw [h0, h, if_pos (by decide), neg_zero]
    exact isRN32_posZero
  · have hpos : (0 : ℝ) < q := by exact_mod_cast hq
    have hne : Real.sin (Real.pi * p / q) ≠ 0 := abs_pos.mp (lt_of_lt_of_le (by positivity) hge)
    have h1 : 1 ≤ |Real.sin (Real.pi * p / q)| * 2 ^ 149 := by
      have : (q : ℝ) ≤ 2 ^ 149 := by exact_mod_cast hq'
      rw [div_le_iff₀ hpos] at hge
      nlinarith [abs_nonneg (Real.sin (Real.pi * p / q))]
    rw [if_neg (by simp [isZero_of_isRN32 h h1])]
    exact isRN32_neg hne h

theorem window_isRN32 {c : Config} {n : ℕ} (hn : n < c.n) :
    IsRN32 (window c n) (Real.sqrt (0.5 - 0.5 * Real.cos (2 * Real.pi * n / c.n))) := by
  rw [window_half_angle n c.n hn.le]
  exact sinPi_isRN32 n (by omega)

theorem two_pi_mul_div (n N : ℕ) : 2 * Real.pi * n / N = Real.pi * (2 * n : ℕ) / N := by
  push_cast
  ring

end Sys2Proof.Machine.F32

namespace Sys2Proof.Proofs

open Machine Machine.F32

/-- Settles O59: the enclosure of `sin_of_decides` where it decides, the exact search where it does not, after a
reduction of the angle that is exact on reals. -/
theorem sineSeriesIsAccurate : Obligations.SineSeriesIsAccurate := by
  refine ⟨fun x hx => ?_, fun lo hi x hlo hhi hd => (roundsTo_of_decides hlo hhi hd).isNearestReal,
    fun a ha => sin32_isRN32 ha, fun a ha => sin32_of_isZero ha, fun a ha => if_pos (by simpa using ha), ?_,
    fun p q hq => ⟨sinPi_isRN32 p hq, cosPi_isRN32 p hq⟩, fun c hc n hn => ?_⟩
  · rw [← fixOne_cast]
    exact sinFix_error hx
  · decide +kernel
  · obtain ⟨-, hpos, hmax, -⟩ := hc
    have h0 : 0 < c.n := by omega
    rw [two_pi_mul_div]
    refine ⟨?_, cosPi_isRN32 _ h0, neg_sinPi_isRN32 _ h0 (by omega), cosPi_isRN32 _ h0, sinPi_isRN32 _ h0⟩
    rw [← two_pi_mul_div]
    exact window_isRN32 hn

end Sys2Proof.Proofs
end

section
/-! The decimal logarithm (00_scope.md R15; 40_stft.md R125): the error of the fixed-point series, of the natural
logarithm and of its quotient by `ln 10`, and so RN32 of the exact logarithm. -/

namespace Sys2Proof.Machine.F32

open Spec

/-! ## The fixed-point series -/

/-- `atanhTail` over the reals, with no rounding and `y = z²`. -/
noncomputable def atanhTailR (y : ℝ) : Nat → Nat → ℝ
  | 0, _ => 0
  | fuel + 1, k => 1 / (2 * k + 1) + y * atanhTailR y fuel (k + 1)

/-- The power series of `artanh` up to `n` terms. -/
noncomputable def atanhSum (z : ℝ) (n : Nat) : ℝ := ∑ i ∈ Finset.range n, z ^ (2 * i + 1) / (2 * i + 1)

/-- The nested form from term `k` on is the rest of the power series. -/
theorem atanhSum_add_atanhTailR (z : ℝ) (fuel k : Nat) :
    atanhSum z k + z ^ (2 * k + 1) * atanhTailR (z ^ 2) fuel k = atanhSum z (k + fuel) := by
  induction fuel generalizing k with
  | zero => rw [atanhTailR, mul_zero, add_zero, Nat.add_zero]
  | succ fuel ih =>
    rw [show k + (fuel + 1) = k + 1 + fuel by ring, ← ih, atanhTailR, atanhSum, atanhSum, Finset.sum_range_succ]
    ring

theorem atanhTailR_bounds {y : ℝ} (hy0 : 0 ≤ y) (hy : y ≤ 1 / 9) (fuel k : Nat) :
    0 ≤ atanhTailR y fuel k ∧ atanhTailR y fuel k ≤ 9 / 8 := by
  induction fuel generalizing k with
  | zero => norm_num [atanhTailR]
  | succ fuel ih =>
    obtain ⟨h0, h1⟩ := ih (k + 1)
    have hk : (1 / (2 * k + 1) : ℝ) ≤ 1 := by
      rw [div_le_one (by positivity)]
      linarith [(Nat.cast_nonneg k : (0 : ℝ) ≤ k)]
    rw [atanhTailR]
    exact ⟨by positivity, by nlinarith⟩

/-- Every level of the computed nested form is at most 9/2 units below the exact one. -/
theorem atanhTail_error {z2 : Nat} {y : ℝ} (hlo : z2 ≤ fixOne * y) (hhi : fixOne * y ≤ z2 + 5 / 3) (hy0 : 0 ≤ y)
    (hy : y ≤ 1 / 9) (fuel k : Nat) :
    atanhTail z2 fuel k ≤ fixOne * atanhTailR y fuel k ∧
      fixOne * atanhTailR y fuel k ≤ atanhTail z2 fuel k + 9 / 2 := by
  have hF := fixOne_pos (K := ℝ)
  induction fuel generalizing k with
  | zero => norm_num [atanhTail, atanhTailR]
  | succ fuel ih =>
    obtain ⟨i1, i2⟩ := ih (k + 1)
    obtain ⟨b0, b1⟩ := atanhTailR_bounds hy0 hy fuel (k + 1)
    obtain ⟨c1, c2⟩ := natDiv_bounds (K := ℝ) fixOne (show 0 < 2 * k + 1 by omega)
    obtain ⟨d1, d2⟩ := natDiv_bounds (K := ℝ) (z2 * atanhTail z2 fuel (k + 1)) (show 0 < fixOne by decide)
    rw [atanhTail, atanhTailR, Nat.cast_add, mul_add, mul_one_div]
    push_cast at c1 c2 d1 d2
    have hA0 : (0 : ℝ) ≤ atanhTail z2 fuel (k + 1) := Nat.cast_nonneg _
    generalize (atanhTail z2 fuel (k + 1) : ℝ) = A at *
    generalize atanhTailR y fuel (k + 1) = τ at *
    have hA : A / fixOne ≤ 9 / 8 := by
      rw [div_le_iff₀ hF]
      nlinarith
    have hA0' : 0 ≤ A / fixOne := div_nonneg hA0 hF.le
    have e : fixOne * (y * τ) - z2 * A / fixOne = y * (fixOne * τ - A) + (fixOne * y - z2) * (A / fixOne) := by
      field_simp
      ring
    have e1 : 0 ≤ y * (fixOne * τ - A) := mul_nonneg hy0 (by linarith)
    have e2 : y * (fixOne * τ - A) ≤ 1 / 9 * (9 / 2) := mul_le_mul hy (by linarith) (by linarith) (by norm_num)
    have e3 : 0 ≤ (fixOne * y - z2) * (A / fixOne) := mul_nonneg (by linarith) hA0'
    have e4 : (fixOne * y - z2) * (A / fixOne) ≤ 5 / 3 * (9 / 8) :=
      mul_le_mul (by linarith) hA hA0' (by norm_num)
    constructor <;> linarith

/-- The ratio `z = (n − d)/(n + d)` of `lnFix`. -/
theorem artanh_ratio {n d : Nat} (hd : 0 < d) (hdn : d ≤ n) (hn : n ≤ 2 * d) :
    0 ≤ ((n - d : ℕ) / (n + d : ℕ) : ℝ) ∧ ((n - d : ℕ) / (n + d : ℕ) : ℝ) ≤ 1 / 3 ∧
      (1 + (n - d : ℕ) / (n + d : ℕ)) / (1 - (n - d : ℕ) / (n + d : ℕ)) = (n : ℝ) / d := by
  have hd' : (0 : ℝ) < d := by exact_mod_cast hd
  refine ⟨by positivity, ?_, ?_⟩
  · rw [div_le_div_iff₀ (by exact_mod_cast (show 0 < n + d by omega)) (by norm_num)]
    exact_mod_cast (show (n - d) * 3 ≤ 1 * (n + d) by omega)
  · have hnd : (0 : ℝ) < n + d := by positivity
    push_cast [hdn]
    rw [one_add_div hnd.ne', one_sub_div hnd.ne', div_div_div_cancel_right₀ hnd.ne']
    rw [show (n + d + (n - d) : ℝ) = 2 * n by ring, show (n + d - (n - d) : ℝ) = 2 * d by ring,
      mul_div_mul_left _ _ two_ne_zero]

/-- The series, summed exactly, against the logarithm. -/
theorem atanhSum_log {z : ℝ} (h0 : 0 ≤ z) (h1 : z ≤ 1 / 3) :
    2 * fixOne * atanhSum z 64 ≤ fixOne * Real.log ((1 + z) / (1 - z)) ∧
      fixOne * Real.log ((1 + z) / (1 - z)) ≤ 2 * fixOne * atanhSum z 64 + 1 := by
  have hF := fixOne_pos (K := ℝ)
  have hlo := Real.sum_range_le_log_div h0 (by linarith) 64
  have hhi := Real.log_div_le_sum_range_add h0 (by linarith) 64
  rw [← atanhSum] at hlo hhi
  have hrest : z ^ (2 * 64 + 1) / (1 - z ^ 2) ≤ (1 / 3) ^ (2 * 64 + 1) / (1 - (1 / 3) ^ 2) := by
    have : (0 : ℝ) < 1 - (1 / 3) ^ 2 := by norm_num
    gcongr
  have hsmall : fixOne * ((1 / 3 : ℝ) ^ (2 * 64 + 1) / (1 - (1 / 3) ^ 2)) ≤ 1 / 2 := by
    rw [fixOne_cast]
    norm_num
  constructor <;> nlinarith

/-- The square of the computed ratio, from the error of the ratio. -/
theorem artanh_square {Z : Nat} {z : ℝ} (z0 : 0 ≤ z) (z1 : z ≤ 1 / 3) (hlo : Z ≤ fixOne * z)
    (hhi : fixOne * z < Z + 1) :
    ((Z * Z / fixOne : ℕ) : ℝ) ≤ fixOne * z ^ 2 ∧ fixOne * z ^ 2 ≤ ((Z * Z / fixOne : ℕ) : ℝ) + 5 / 3 := by
  have hF := fixOne_pos (K := ℝ)
  have hZ : (0 : ℝ) ≤ Z := Nat.cast_nonneg Z
  obtain ⟨b1, b2⟩ := natDiv_bounds (K := ℝ) (Z * Z) (show 0 < fixOne by decide)
  have e : fixOne * z ^ 2 - (Z * Z : ℕ) / fixOne = (fixOne * z - Z) * ((fixOne * z + Z) / fixOne) := by
    push_cast
    field_simp
    ring
  have h0 : 0 ≤ (fixOne * z + Z) / fixOne := by positivity
  have h1 : (fixOne * z + Z) / fixOne ≤ 2 / 3 := by
    rw [div_le_iff₀ hF]
    nlinarith
  have h2 : 0 ≤ (fixOne * z - Z) * ((fixOne * z + Z) / fixOne) := mul_nonneg (by linarith) h0
  have h3 : (fixOne * z - Z) * ((fixOne * z + Z) / fixOne) ≤ 1 * (2 / 3) :=
    mul_le_mul (by linarith) h1 h0 zero_le_one
  constructor <;> linarith

/-- Half of `lnFix`, from the error of the ratio. -/
theorem artanh_error {Z : Nat} {z : ℝ} (z0 : 0 ≤ z) (z1 : z ≤ 1 / 3) (hlo : Z ≤ fixOne * z)
    (hhi : fixOne * z < Z + 1) :
    ((Z * atanhTail (Z * Z / fixOne) 64 0 / fixOne : ℕ) : ℝ) ≤ fixOne * atanhSum z 64 ∧
      fixOne * atanhSum z 64 ≤ ((Z * atanhTail (Z * Z / fixOne) 64 0 / fixOne : ℕ) : ℝ) + 4 := by
  have hF := fixOne_pos (K := ℝ)
  have hy : z ^ 2 ≤ 1 / 9 := by nlinarith
  obtain ⟨s1, s2⟩ := artanh_square z0 z1 hlo hhi
  obtain ⟨t1, t2⟩ := atanhTail_error s1 s2 (sq_nonneg z) hy 64 0
  obtain ⟨-, r1⟩ := atanhTailR_bounds (sq_nonneg z) hy 64 0
  obtain ⟨q1, q2⟩ := natDiv_bounds (K := ℝ) (Z * atanhTail (Z * Z / fixOne) 64 0) (show 0 < fixOne by decide)
  have hsum : z * atanhTailR (z ^ 2) 64 0 = atanhSum z 64 := by
    have := atanhSum_add_atanhTailR z 64 0
    simpa [atanhSum] using this
  rw [← hsum]
  rw [Nat.cast_mul] at q1 q2
  have hA0 : (0 : ℝ) ≤ atanhTail (Z * Z / fixOne) 64 0 := Nat.cast_nonneg _
  generalize (atanhTail (Z * Z / fixOne) 64 0 : ℝ) = A at *
  generalize atanhTailR (z ^ 2) 64 0 = τ at *
  have hA : A / fixOne ≤ 9 / 8 := by
    rw [div_le_iff₀ hF]
    nlinarith
  have hA0' : 0 ≤ A / fixOne := div_nonneg hA0 hF.le
  have e : fixOne * (z * τ) - Z * A / fixOne = z * (fixOne * τ - A) + (fixOne * z - Z) * (A / fixOne) := by
    field_simp
    ring
  have e1 : 0 ≤ z * (fixOne * τ - A) := mul_nonneg z0 (by linarith)
  have e2 : z * (fixOne * τ - A) ≤ 1 / 3 * (9 / 2) := mul_le_mul z1 (by linarith) (by linarith) (by norm_num)
  have e3 : 0 ≤ (fixOne * z - Z) * (A / fixOne) := mul_nonneg (by linarith) hA0'
  have e4 : (fixOne * z - Z) * (A / fixOne) ≤ 1 * (9 / 8) := mul_le_mul (by linarith) hA hA0' zero_le_one
  constructor <;> linarith

theorem lnFix_error {n d : Nat} (hd : 0 < d) (hdn : d ≤ n) (hn : n ≤ 2 * d) :
    |lnFix n d - fixOne * Real.log ((n : ℝ) / d)| ≤ 16 := by
  obtain ⟨z0, z1, hz⟩ := artanh_ratio hd hdn hn
  obtain ⟨l1, l2⟩ := atanhSum_log z0 z1
  rw [hz] at l1 l2
  obtain ⟨a1, a2⟩ := natDiv_bounds (K := ℝ) ((n - d) * fixOne) (show 0 < n + d by omega)
  rw [Nat.cast_mul, mul_div_right_comm, mul_comm (_ / _ : ℝ)] at a1 a2
  obtain ⟨h1, h2⟩ := artanh_error z0 z1 a1 a2
  simp only [lnFix, Nat.cast_mul, Nat.cast_ofNat]
  rw [abs_le]
  constructor <;> linarith

/-! ## The natural logarithm of a binary32 value -/

theorem ln2_error : |ln2 - fixOne * Real.log 2| ≤ 16 := by
  have h := lnFix_error (n := 2) (d := 1) (by decide) (by decide) (by decide)
  rwa [Nat.cast_ofNat, Nat.cast_one, div_one, ← ln2] at h

theorem ln10_error : |ln10 - fixOne * Real.log 10| ≤ 64 := by
  have h2 := ln2_error
  have h54 := lnFix_error (n := 5) (d := 4) (by decide) (by decide) (by decide)
  have e : Real.log 10 = 3 * Real.log 2 + Real.log (5 / 4) := by
    rw [show (10 : ℝ) = 2 ^ 3 * (5 / 4) by norm_num, Real.log_mul (by norm_num) (by norm_num), Real.log_pow]
    norm_num
  rw [e, ln10, Nat.cast_add, Nat.cast_mul]
  generalize lnFix 5 4 = a at h54 ⊢
  generalize ln2 = b at h2 ⊢
  push_cast at h54 ⊢
  rw [abs_le] at h2 h54 ⊢
  constructor <;> linarith

/-- The two ways `lnUnits` splits off a power of two. -/
theorem lnUnits_error {m : Nat} (hm : 0 < m) (hlt : m < 2 ^ 277) :
    |lnUnits m - fixOne * Real.log (m / 2 ^ 149)| ≤ 2400 := by
  have h2 := ln2_error
  have hlo : 2 ^ m.log2 ≤ m := Nat.log2_self_le hm.ne'
  have hhi : m < 2 ^ (m.log2 + 1) := Nat.lt_log2_self
  have hlog2 : ∀ b, m < 2 ^ b → m.log2 < b := fun b h => (Nat.log2_lt hm.ne').mpr h
  have he : m.log2 < 277 := hlog2 277 hlt
  have hm' : (0 : ℝ) < m := by exact_mod_cast hm
  have hlog : Real.log (m / 2 ^ 149) = Real.log m - 149 * Real.log 2 := by
    rw [Real.log_div hm'.ne' (by positivity), Real.log_pow]
    norm_num
  rw [hlog]
  simp only [lnUnits]
  generalize m.log2 = e at hlo hhi he
  have heR : (e : ℝ) < 277 := by exact_mod_cast he
  have he0 : (0 : ℝ) ≤ e := Nat.cast_nonneg e
  split_ifs with h
  · have h1 := lnFix_error (Nat.two_pow_pos e) hlo (by omega)
    rw [Real.log_div hm'.ne' (by positivity), Nat.cast_pow, Real.log_pow] at h1
    push_cast at h1 ⊢
    have h3 : |((e : ℝ) - 149) * (ln2 - fixOne * Real.log 2)| ≤ 149 * 16 := by
      rw [abs_mul]
      exact mul_le_mul (abs_le.mpr ⟨by linarith, by linarith⟩) h2 (abs_nonneg _) (by norm_num)
    rw [abs_le] at h1 h3 ⊢
    constructor <;> linarith
  · have h1 := lnFix_error hm hhi.le (by rw [pow_succ]; omega)
    rw [Real.log_div (by positivity) hm'.ne', Nat.cast_pow, Real.log_pow] at h1
    push_cast at h1 ⊢
    have h3 : |((e : ℝ) - 148) * (ln2 - fixOne * Real.log 2)| ≤ 148 * 16 := by
      rw [abs_mul]
      exact mul_le_mul (abs_le.mpr ⟨by linarith, by linarith⟩) h2 (abs_nonneg _) (by norm_num)
    rw [abs_le] at h1 h3 ⊢
    constructor <;> linarith

/-! ## The quotient -/

/-- A quotient of computed logarithms, against the exact one. -/
theorem quotient_error {l d F T lam : ℝ} (hF : 0 < F) (hd : 2 * F ≤ d) (hT : 0 < T) (hl0 : 0 ≤ lam)
    (hl : |l - lam| ≤ 2400) (hdT : |d - T| ≤ 64) (hq : lam / T ≤ 50) :
    |l * F / d - lam / T * F| ≤ 2800 := by
  have hd0 : 0 < d := by linarith
  have e : l * F / d - lam / T * F = (l - lam) * (F / d) + lam / T * (T - d) * (F / d) := by
    field_simp
    ring
  have hr : F / d ≤ 1 / 2 := by
    rw [div_le_div_iff₀ hd0 two_pos]
    linarith
  have hr0 : 0 ≤ F / d := by positivity
  have hq0 : 0 ≤ lam / T := by positivity
  have h1 : |(l - lam) * (F / d)| ≤ 2400 * (1 / 2) := by
    rw [abs_mul, abs_of_nonneg hr0]
    exact mul_le_mul hl hr hr0 (by norm_num)
  have h2 : |lam / T * (T - d) * (F / d)| ≤ 50 * 64 * (1 / 2) := by
    rw [abs_mul, abs_mul, abs_of_nonneg hr0, abs_of_nonneg hq0, abs_sub_comm]
    exact mul_le_mul (mul_le_mul hq hdT (abs_nonneg _) (by norm_num)) hr hr0 (by norm_num)
  rw [e]
  exact (abs_add_le _ _).trans (by linarith)

theorem ln10_ge : 2 * fixOne ≤ ln10 := by decide +kernel

/-- The decimal logarithm of a finite value is at most 50 in magnitude. -/
theorem abs_log_div_log_ten_le {m : Nat} (hm : 0 < m) (hlt : m < 2 ^ 277) :
    |Real.log (m / 2 ^ 149)| / Real.log 10 ≤ 50 := by
  have hm' : (0 : ℝ) < m := by exact_mod_cast hm
  have h2 : 0 < Real.log 2 := Real.log_pos one_lt_two
  have h10 : 3 * Real.log 2 ≤ Real.log 10 := by
    have : Real.log (2 ^ 3) ≤ Real.log 10 := Real.log_le_log (by norm_num) (by norm_num)
    rwa [Real.log_pow, Nat.cast_ofNat] at this
  have h0 : 0 ≤ Real.log m := Real.log_nonneg (by exact_mod_cast hm)
  have h1 : Real.log m ≤ 277 * Real.log 2 := by
    have : Real.log m ≤ Real.log (2 ^ 277) := Real.log_le_log hm' (by exact_mod_cast hlt.le)
    rwa [Real.log_pow, Nat.cast_ofNat] at this
  rw [div_le_iff₀ (by linarith), Real.log_div hm'.ne' (by positivity), Real.log_pow, Nat.cast_ofNat]
  exact abs_le.mpr ⟨by linarith, by linarith⟩

/-- What `log10` computes before its rounding is within its error of the exact logarithm. -/
theorem log10_error {m : Nat} (hm : 0 < m) (hlt : m < 2 ^ 277) :
    |((lnUnits m).natAbs * fixOne / ln10 : ℕ) - |Real.logb 10 (m / 2 ^ 149)| * 2 ^ 192| ≤ 2801 := by
  have hT : 0 < Real.log 10 := Real.log_pos (by norm_num)
  have hF := fixOne_pos (K := ℝ)
  have hd : (2 * fixOne : ℝ) ≤ ln10 := by exact_mod_cast ln10_ge
  have hl : |(|(lnUnits m : ℝ)| - fixOne * |Real.log (m / 2 ^ 149)|)| ≤ 2400 := by
    rw [← abs_of_pos hF, ← abs_mul]
    exact (abs_abs_sub_abs_le _ _).trans (lnUnits_error hm hlt)
  have hq : fixOne * |Real.log (m / 2 ^ 149)| / (fixOne * Real.log 10) = |Real.log (m / 2 ^ 149)| / Real.log 10 :=
    mul_div_mul_left _ _ hF.ne'
  have h1 := quotient_error hF hd (mul_pos hF hT) (by positivity) hl ln10_error
    (hq ▸ abs_log_div_log_ten_le hm hlt)
  obtain ⟨h2, h3⟩ := natDiv_bounds (K := ℝ) ((lnUnits m).natAbs * fixOne)
    (show 0 < ln10 from Nat.lt_of_lt_of_le (by decide) ln10_ge)
  rw [Nat.cast_mul, Nat.cast_natAbs, Int.cast_abs] at h2 h3
  have e : |Real.logb 10 (m / 2 ^ 149)| * 2 ^ 192 = |Real.log (m / 2 ^ 149)| / Real.log 10 * fixOne := by
    rw [Real.logb, abs_div, abs_of_pos hT, fixOne_cast]
  rw [e, ← hq]
  rw [abs_le] at h1 ⊢
  constructor <;> linarith

/-! ## RN32 of the logarithm -/

theorem logError_cast : (logError : ℝ) = 16384 := by norm_num [logError]

/-- A computed logarithm beyond its error has the sign of the exact one. -/
theorem lnUnits_neg_iff {m : Nat} (hm : 0 < m) (hlt : m < 2 ^ 277)
    (h : logError < (lnUnits m).natAbs * fixOne / ln10) : lnUnits m < 0 ↔ Real.logb 10 (m / 2 ^ 149) < 0 := by
  have hF := fixOne_pos (K := ℝ)
  have hT : 0 < Real.log 10 := Real.log_pos (by norm_num)
  have hbig : (2400 : ℝ) < |(lnUnits m : ℝ)| := by
    have h1 : (logError + 1) * ln10 ≤ (lnUnits m).natAbs * fixOne :=
      (Nat.le_div_iff_mul_le (Nat.lt_of_lt_of_le (by decide) ln10_ge)).mp h
    have h2 : (logError + 1) * 2 ≤ (lnUnits m).natAbs := by
      refine Nat.le_of_mul_le_mul_right (Nat.le_trans ?_ h1) (show 0 < fixOne by decide)
      rw [Nat.mul_assoc]
      exact Nat.mul_le_mul_left _ ln10_ge
    have h3 : ((logError : ℝ) + 1) * 2 ≤ (lnUnits m).natAbs := by exact_mod_cast h2
    rw [logError_cast, Nat.cast_natAbs, Int.cast_abs] at h3
    linarith
  have herr := lnUnits_error hm hlt
  rw [Real.logb, div_lt_iff₀ hT, zero_mul, ← Int.cast_lt (R := ℝ), Int.cast_zero]
  rw [abs_le] at herr
  rcases lt_abs.mp hbig with hp | hn
  · have : 0 < Real.log (m / 2 ^ 149) := pos_of_mul_pos_right (by linarith) hF.le
    exact iff_of_false (by linarith) (by linarith)
  · have : 0 < -Real.log (m / 2 ^ 149) := pos_of_mul_pos_right (by linarith) hF.le
    exact iff_of_true (by linarith) (by linarith)

theorem log10_of_decides {m : Nat} (hm : 0 < m) (hlt : m < 2 ^ 277)
    (h : decides ((lnUnits m).natAbs * fixOne / ln10 - logError)
      ((lnUnits m).natAbs * fixOne / ln10 + logError) = true) :
    logError < (lnUnits m).natAbs * fixOne / ln10 ∧
    RoundsTo (roundFix ((lnUnits m).natAbs * fixOne / ln10 - logError))
      (|Real.logb 10 (m / 2 ^ 149)| * 2 ^ 149) := by
  have herr := log10_error hm hlt
  generalize (lnUnits m).natAbs * fixOne / ln10 = x at h herr ⊢
  have hx : logError < x := Nat.lt_of_sub_pos (decides_iff.mp h).1
  refine ⟨hx, ?_⟩
  rw [abs_le] at herr
  have hE := logError_cast
  have := roundsTo_of_decides (x := |Real.logb 10 (m / 2 ^ 149)| * 2 ^ 192)
    (by rw [Nat.cast_sub hx.le]; linarith) (by rw [Nat.cast_add]; linarith) h
  rwa [show |Real.logb 10 (m / 2 ^ 149)| * 2 ^ 192 / 2 ^ 43 = |Real.logb 10 (m / 2 ^ 149)| * 2 ^ 149 by ring] at this

theorem logReaches_iff_reaches {u m : ℕ} (hu : 0 < u) :
    logReaches (2 ^ 150) u m = true ↔ Reaches m (|Real.logb 10 (u / 2 ^ 149)| * 2 ^ 149) := by
  have e : |Real.logb 10 (u / 2 ^ 149)| * (2 ^ 150 : ℕ) = 2 * (|Real.logb 10 (u / 2 ^ 149)| * 2 ^ 149) := by
    rw [Nat.cast_pow]
    push_cast
    ring
  rw [logReaches_iff hu, e, Reaches]

theorem searchLog_roundsTo {u : ℕ} (hu : 0 < u) :
    RoundsTo (searchLog u) (|Real.logb 10 (u / 2 ^ 149)| * 2 ^ 149) := by
  refine ⟨Nat.findGreatest_le _, (logReaches_iff_reaches hu).mp ?_, fun h hr => ?_⟩
  · exact Nat.findGreatest_spec (P := fun m => logReaches (2 ^ 150) u m = true) (Nat.zero_le _)
      ((logReaches_iff_reaches hu).mpr (.inl rfl))
  · exact Nat.findGreatest_is_greatest (P := fun m => logReaches (2 ^ 150) u m = true) (Nat.lt_succ_self _) h
      ((logReaches_iff_reaches hu).mpr hr)

/-- A finite positive operand, as its magnitude. -/
theorem realOf_of_pos {v : Word} (hv : 0 < value v) :
    sign v = false ∧ 0 < units v ∧ realOf v = units v / 2 ^ 149 := by
  cases hs : sign v with
  | true =>
    rw [value, if_pos hs] at hv
    omega
  | false =>
    rw [value, if_neg (by simp [hs])] at hv
    exact ⟨rfl, by omega, by rw [realOf_eq, if_neg (by simp [hs]), one_mul]⟩

theorem logb_eq_zero_iff {m : ℕ} (hm : 0 < m) : Real.logb 10 (m / 2 ^ 149) = 0 ↔ m = 2 ^ 149 := by
  have hm' : (0 : ℝ) < m := by exact_mod_cast hm
  have hx : (0 : ℝ) < m / 2 ^ 149 := by positivity
  have h10 : Real.log 10 ≠ 0 := (Real.log_pos (by norm_num)).ne'
  rw [Real.logb, div_eq_zero_iff, or_iff_left h10, Real.log_eq_zero, or_iff_right hx.ne',
    or_iff_left (by linarith), div_eq_one_iff_eq (by positivity)]
  exact_mod_cast Iff.rfl

theorem logb_neg_iff {m : ℕ} (hm : 0 < m) : Real.logb 10 (m / 2 ^ 149) < 0 ↔ m < 2 ^ 149 := by
  have hm' : (0 : ℝ) < m := by exact_mod_cast hm
  rw [Real.logb_neg_iff (by norm_num) (by positivity), div_lt_one (by positivity)]
  exact_mod_cast Iff.rfl

theorem log10_isRN32 {v : Word} (hf : finite v) (hv : 0 < value v) :
    IsRN32 (log10 v) (Real.logb 10 (realOf v)) := by
  obtain ⟨hs, hm, he⟩ := realOf_of_pos hv
  have hlt := units_lt_of_finite hf
  have hz : isZero v = false := by
    by_contra h
    rw [value_of_isZero (by simpa using h)] at hv
    exact lt_irrefl _ hv
  rw [he, log10, if_neg (by simp [isNaN_of_finite hf]), if_neg (by simp [hz]), if_neg (by simp [hs]),
    if_neg (by simp [isInf_of_finite hf])]
  simp only
  split_ifs with h1 hd
  · rw [(logb_eq_zero_iff hm).mpr h1]
    exact isRN32_posZero
  · obtain ⟨hbig, hr⟩ := log10_of_decides hm hlt hd
    exact isRN32_pack (mt (logb_eq_zero_iff hm).mp h1) (by rw [decide_eq_true_iff, lnUnits_neg_iff hm hlt hbig]) hr
  · exact isRN32_pack (mt (logb_eq_zero_iff hm).mp h1) (by rw [decide_eq_true_iff, logb_neg_iff hm])
      (searchLog_roundsTo hm)

end Sys2Proof.Machine.F32

namespace Sys2Proof.Proofs

open Machine.F32

/-- Settles O60: the error of the series for every ratio, and for LOG10 the enclosure where it decides and the
comparison of integers where it does not. -/
theorem logarithmSeriesIsAccurate : Obligations.LogarithmSeriesIsAccurate := by
  refine ⟨fun n d hd hdn hn => ?_, fun v hf hv => log10_isRN32 hf hv⟩
  rw [← fixOne_cast]
  exact lnFix_error hd hdn hn

end Sys2Proof.Proofs
end

section
/-! The register file behind the host port (10_state.md R23 to R33; 20_memory.md R62, R63, R66): the address of
each register, what a register reads after a write to the same and to another register, and the step that
reads or writes a register. -/

namespace Sys2Proof.Machine

/-- The offset of a register (20_memory.md R66): the inverse of `regAt`. -/
def Reg.addr : Reg → BitVec 16
  | .id => 0x0000#16
  | .cfgN => 0x0004#16
  | .cfgR => 0x0008#16
  | .cfgK => 0x000C#16
  | .cmd => 0x0010#16
  | .status => 0x0014#16
  | .errInfo => 0x0018#16
  | .opa => 0x0020#16
  | .opb => 0x0024#16
  | .opc => 0x0028#16
  | .accLo => 0x0030#16
  | .accHi => 0x0034#16
  | .fOpa => 0x0040#16
  | .fRes => 0x0044#16
  | .ppAlphaReverb => 0x0050#16
  | .ppAlphaLowLevel => 0x0054#16
  | .ppMinGain => 0x0058#16
  | .ppGainBoost => 0x005C#16
  | .ppSbFactor => 0x0060#16
  | .ppSbStart => 0x0064#16
  | .ppSbEnd => 0x0068#16
  | .ppCtrl => 0x006C#16
  | .lmScale => 0x0070#16

theorem Reg.admitted_addr (r : Reg) : admitted r.addr .word = true := by cases r <;> rfl

theorem Reg.locate_addr (c : Config) (r : Reg) : locate c r.addr = .reg r := by cases r <;> rfl

theorem Reg.addr_injective : Function.Injective Reg.addr := fun r r' h => by
  have := locate_addr .default r
  rw [h, locate_addr] at this
  exact (Loc.reg.inj this).symm

/-- The registers that hold what a host writes: PP_CTRL, then the plain ones (R27, R29, R31, R33). -/
def Reg.stored : List Reg :=
  [.ppCtrl, .opa, .opb, .opc, .fOpa, .ppAlphaReverb, .ppAlphaLowLevel, .ppMinGain, .ppGainBoost, .ppSbFactor,
    .ppSbStart, .ppSbEnd, .lmScale]

theorem Reg.mem_stored_iff {a : BitVec 16} :
    a ∈ 0x6C#16 :: Spec.plainRegisters ↔ ∃ r ∈ Reg.stored, r.addr = a :=
  List.mem_map (f := Reg.addr) (l := Reg.stored)

/-! ## The two words of ACC (R28) -/

theorem toNat_append_words (hi lo : Word) : (hi ++ lo).toNat = hi.toNat * 2 ^ 32 + lo.toNat := by
  rw [BitVec.toNat_append, ← Nat.shiftLeft_add_eq_or_of_lt lo.isLt, Nat.shiftLeft_eq]

theorem lowWord_toNat (x : BitVec 64) : (x.extractLsb' 0 32).toNat = x.toNat % 2 ^ 32 := by
  rw [BitVec.extractLsb'_toNat, Nat.shiftRight_zero]

theorem highWord_toNat (x : BitVec 64) : (x.extractLsb' 32 32).toNat = x.toNat / 2 ^ 32 := by
  rw [BitVec.extractLsb'_toNat, Nat.shiftRight_eq_div_pow]
  exact Nat.mod_eq_of_lt (Nat.div_lt_of_lt_mul x.isLt)

namespace State

/-! ## What a write to a register leaves unchanged -/

section writeReg
variable (s : State) (r : Reg) (v : Word)
@[simp] theorem writeReg_mem : (s.writeReg r v).mem = s.mem := by cases r <;> simp [writeReg]
@[simp] theorem writeReg_fRes : (s.writeReg r v).fRes = s.fRes := by cases r <;> simp [writeReg]
@[simp] theorem writeReg_pending : (s.writeReg r v).pending = s.pending := by cases r <;> simp [writeReg]
@[simp] theorem writeReg_hostData : (s.writeReg r v).hostData = s.hostData := by cases r <;> simp [writeReg]
end writeReg

theorem writeReg_acc {s : State} {r : Reg} (hlo : r ≠ .accLo) (hhi : r ≠ .accHi) (v : Word) :
    (s.writeReg r v).acc = s.acc := by
  cases r
  case accLo => contradiction
  case accHi => contradiction
  case status => exact writeStatus_acc ..
  all_goals rfl

theorem writeReg_errorRecord {s : State} {r : Reg} (h : r ≠ .status) (v : Word) :
    (s.writeReg r v).err = s.err ∧ (s.writeReg r v).errCode = s.errCode ∧
      (s.writeReg r v).errInfo = s.errInfo := by
  cases r
  case status => contradiction
  all_goals exact ⟨rfl, rfl, rfl⟩

/-! ## Reading a register after a write -/

/-- The transactions still to be served are in no register. -/
theorem readReg_pending (s : State) (es : List Event) (r : Reg) :
    ({ s with pending := es } : State).readReg r = s.readReg r := by cases r <;> rfl

theorem readLoc_pending (s : State) (es : List Event) (l : Loc) :
    ({ s with pending := es } : State).readLoc l = s.readLoc l := by
  cases l
  case reg r => exact readReg_pending s es r
  all_goals rfl

/-- PP_CTRL keeps bit 0 of the word (R32), every other register of these the whole word. -/
theorem readReg_writeReg_same (s : State) {r : Reg} (hr : r ∈ Reg.stored) (v : Word) :
    (s.writeReg r v).readReg r = if r = .ppCtrl then v &&& 1#32 else v := by
  simp only [Reg.stored, List.mem_cons, List.not_mem_nil, or_false] at hr
  rcases hr with rfl | hr
  · change (if v.getLsbD 0 then 1#32 else 0#32) = v &&& 1#32
    rw [BitVec.and_one_eq_setWidth_ofBool_getLsbD]
    cases v.getLsbD 0 <;> rfl
  · rcases hr with rfl | rfl | rfl | rfl | rfl | rfl | rfl | rfl | rfl | rfl | rfl | rfl <;> rfl

/-- Registers are written apart, the halves of ACC too (R28); only STATUS clears another one, ERRINFO. -/
theorem readReg_writeReg_ne (s : State) {r r' : Reg} (hs : r ≠ .status) (h : r' ≠ r) (v : Word) :
    (s.writeReg r v).readReg r' = s.readReg r' := by
  cases r
  case status => contradiction
  case accLo =>
    cases r'
    case accLo => contradiction
    case accHi => exact BitVec.extractLsb'_append_eq_left
    all_goals rfl
  case accHi =>
    cases r'
    case accHi => contradiction
    case accLo => exact BitVec.extractLsb'_append_eq_right
    all_goals rfl
  all_goals cases r' <;> simp at h <;> rfl

/-- STATUS as its fields, the highest bits first (R25). -/
theorem statusWord_eq_append (s : State) : s.statusWord = 0#28 ++ (s.errCode ++ BitVec.ofBool s.err) := by
  unfold statusWord
  generalize s.errCode = c
  revert c
  cases s.err <;> decide

end State

/-! ## The step that serves an access to a register -/

section
variable {s : State} {rest : List Event} {v : Word}

theorem step_read {addr : BitVec 16} (ha : admitted addr .word = true)
    (hn : s.pending = .read addr .word :: rest) :
    step s = .next { s with pending := rest, hostData := s.readLoc (locate s.cfg addr) :: s.hostData } := by
  simp [step, hn, serve, State.busRead, ha, State.answer, State.readLoc_pending]

theorem step_write {addr : BitVec 16} (ha : admitted addr .word = true) (hc : addr ≠ cmdAddr)
    (hn : s.pending = .write addr .word v :: rest) :
    step s = .next ({ s with pending := rest }.writeLoc (locate s.cfg addr) v) := by
  simp [step, hn, serve, busWrite, ha, hc]

theorem step_readReg (r : Reg) (hn : s.pending = .read r.addr .word :: rest) :
    step s = .next { s with pending := rest, hostData := s.readReg r :: s.hostData } := by
  rw [step_read r.admitted_addr hn, r.locate_addr, State.readLoc]

theorem step_writeReg {r : Reg} (hr : r ≠ .cmd) (hn : s.pending = .write r.addr .word v :: rest) :
    step s = .next ({ s with pending := rest }.writeReg r v) := by
  rw [step_write r.admitted_addr (Reg.addr_injective.ne hr) hn, r.locate_addr, State.writeLoc]

end

end Sys2Proof.Machine

namespace Sys2Proof.Proofs

open Machine Spec

/-- Settles O13: the write and the read back are `step_writeReg` and `step_readReg`, and the registers are
written apart. -/
theorem registerReadsBackTheWordWritten : Obligations.RegisterReadsBackTheWordWritten := by
  intro s a v rest ha hn
  obtain ⟨r, hr, rfl⟩ := Reg.mem_stored_iff.mp ha
  have ne {x : Reg} (hx : x ∉ Reg.stored) : r ≠ x := fun h => hx (h ▸ hr)
  have hstatus : r ≠ .status := ne (by decide)
  obtain ⟨herr, herrCode, herrInfo⟩ :=
    State.writeReg_errorRecord (s := { s with pending := .read r.addr .word :: rest }) hstatus v
  refine ⟨_, _, step_writeReg (ne (by decide)) hn, step_readReg r (State.writeReg_pending ..), ?_,
    State.writeReg_mem .., State.writeReg_acc (ne (by decide)) (ne (by decide)) v, State.writeReg_fRes ..,
    herr, herrCode, herrInfo, State.writeReg_cfg .., fun a' ha' hne => ?_⟩
  · rw [State.readReg_writeReg_same _ hr, State.writeReg_hostData]
    exact congrArg (· :: s.hostData) (if_congr (Reg.addr_injective.eq_iff (b := .ppCtrl)).symm rfl rfl)
  · obtain ⟨r', -, rfl⟩ := Reg.mem_stored_iff.mp ha'
    have hr' : r' ≠ r := fun h => hne (congrArg Reg.addr h)
    rw [r'.locate_addr, r'.locate_addr]
    exact (State.readReg_writeReg_ne _ hstatus hr' v).trans (s.readReg_pending _ r')

/-- Settles O14: a write puts the word beside the other half, and a read takes one half. -/
theorem accHalvesAreWrittenApart : Obligations.AccHalvesAreWrittenApart := by
  intro s v rest
  refine ⟨fun hn => ⟨_, step_writeReg (r := .accLo) (by decide) hn, rfl, ?_⟩,
    fun hn => ⟨_, step_writeReg (r := .accHi) (by decide) hn, rfl, ?_⟩, fun hn => ?_, fun hn => ?_⟩
  · exact (toNat_append_words _ v).trans (by rw [highWord_toNat])
  · exact (toNat_append_words v _).trans (by rw [lowWord_toNat])
  · rw [step_readReg .accLo hn, State.readReg, ← lowWord_toNat, BitVec.ofNat_toNat, BitVec.setWidth_eq]
  · rw [step_readReg .accHi hn, State.readReg, ← highWord_toNat, BitVec.ofNat_toNat, BitVec.setWidth_eq]

/-- Settles O10: the fields are those of `statusWord_eq_append`. -/
theorem statusRegister : Obligations.StatusRegister := by
  refine ⟨fun s => ?_, fun _ => rfl, fun s v rest hn => ?_⟩
  · rw [s.statusWord_eq_append]
    refine ⟨?_, ?_, ?_⟩
    · exact BitVec.getLsbD_append.trans (BitVec.getLsbD_append.trans (by simp))
    · rw [BitVec.extractLsb'_append_eq_of_add_le (by decide), BitVec.extractLsb'_append_eq_left]
    · exact BitVec.extractLsb'_append_eq_left
  · exact step_writeReg (r := .status) (by decide) hn

/-- Settles O12: each address is a register's, and `step_readReg` answers the word it shows. -/
theorem identificationReads : Obligations.IdentificationReads := by
  intro s rest p hp hn
  simp only [List.mem_cons, List.not_mem_nil, or_false] at hp
  rcases hp with rfl | rfl | rfl | rfl | rfl
  · exact step_readReg .id hn
  · exact step_readReg .cfgN hn
  · exact step_readReg .cfgR hn
  · exact step_readReg .cfgK hn
  · exact step_readReg .cmd hn

end Sys2Proof.Proofs
end

section
/-! The address map (20_memory.md R66 to R69) read by address, and the steps that serve a rejected access
(R65), a reserved or read-only location, and an element of a buffer. -/

namespace Sys2Proof.Machine

open Spec

/-! ## The map, one lemma per region -/

theorem Reg.addr_of_regAt {off : Nat} {r : Reg} (h : regAt off = some r) : r.addr.toNat = off := by
  unfold regAt at h
  split at h <;> cases h <;> rfl

theorem Reg.addr_le (r : Reg) : r.addr.toNat ≤ 0x70 := by cases r <;> decide

theorem Buf.base_of_bufAt {w : Nat} {b : Buf} (h : bufAt w = some b) : b.base = 0x1000 * w := by
  unfold bufAt at h
  split at h <;> cases h <;> rfl

/-- A window starts at a multiple of 0x1000, above the registers and below reserved space. -/
theorem Buf.base_spec (b : Buf) : b.base % 0x1000 = 0 ∧ 0x1000 ≤ b.base ∧ b.base ≤ 0xB000 := by
  cases b <;> decide

theorem Buf.bufAt_base (b : Buf) : bufAt (b.base / 0x1000) = some b := by cases b <;> rfl

section
variable {c : Config} {a : BitVec 16}

theorem locate_below (h : a.toNat < 0x1000) :
    locate c a = (regAt a.toNat).elim .reserved .reg := by
  have hw : a.toNat / 0x1000 = 0 := by omega
  have ho : a.toNat % 0x1000 = a.toNat := by omega
  simp only [locate, hw, ho]
  cases regAt a.toNat <;> rfl

theorem locate_window (h : 0x5000 ≤ a.toNat) (h' : a.toNat < 0x6000) : locate c a =
    if (a.toNat - 0x5000) / 4 < c.n then .win ((a.toNat - 0x5000) / 4) else .reserved := by
  have hw : a.toNat / 0x1000 = 5 := by omega
  have ho : a.toNat % 0x1000 = a.toNat - 0x5000 := by omega
  simp [locate, hw, ho]

theorem locate_buffer {b : Buf} (h : b.base ≤ a.toNat) (h' : a.toNat < b.base + 0x1000) : locate c a =
    if (a.toNat - b.base) / 4 < b.len c then .elem b ((a.toNat - b.base) / 4) else .reserved := by
  have hw : bufAt (a.toNat / 0x1000) = some b := by
    obtain ⟨hm, -, -⟩ := b.base_spec
    rw [show a.toNat / 0x1000 = b.base / 0x1000 by omega, b.bufAt_base]
  have ho : a.toNat % 0x1000 = a.toNat - b.base := by have := Buf.base_of_bufAt hw; omega
  have h0 : a.toNat / 0x1000 ≠ 0 := fun e => by rw [e] at hw; cases hw
  have h5 : a.toNat / 0x1000 ≠ 5 := fun e => by rw [e] at hw; cases hw
  simp only [locate, if_neg h0, if_neg h5, hw, ho]

theorem locate_above (h : 0xC000 ≤ a.toNat) : locate c a = .reserved := by
  have hw : bufAt (a.toNat / 0x1000) = none := by
    refine Option.eq_none_iff_forall_ne_some.mpr fun b hb => ?_
    obtain ⟨-, -, hle⟩ := b.base_spec
    have := Buf.base_of_bufAt hb
    omega
  have h0 : a.toNat / 0x1000 ≠ 0 := by omega
  have h5 : a.toNat / 0x1000 ≠ 5 := by omega
  simp only [locate, if_neg h0, if_neg h5, hw]

/-- Element `i` of a buffer lies at `base + 4i` (R67). -/
theorem locate_elem (hc : c.wf) {b : Buf} {i : Nat} (hi : i < b.len c) (ha : a.toNat = b.base + 4 * i) :
    locate c a = .elem b i := by
  have hlen := Buf.len_le hc b
  have hidx : (a.toNat - b.base) / 4 = i := by omega
  rw [locate_buffer (b := b) (by omega) (by omega), hidx, if_pos hi]

/-- `WIN[i]` lies at `0x5000 + 4i` (R38, R67). -/
theorem locate_win (hc : c.wf) {i : Nat} (hi : i < c.n) (ha : a.toNat = 0x5000 + 4 * i) :
    locate c a = .win i := by
  obtain ⟨-, -, hn, -, -⟩ := hc
  have hidx : (a.toNat - 0x5000) / 4 = i := by omega
  rw [locate_window (by omega) (by omega), hidx, if_pos hi]

theorem locate_reserved (h : reservedAddr c a.toNat) : locate c a = .reserved := by
  obtain ⟨halign, -, hlist | ⟨hlo, hhi⟩ | hhi | ⟨hlo, hhi⟩ | ⟨b, hlo, hhi⟩⟩ := h
  · have hgap : ∀ off ∈ [0x1C, 0x2C, 0x38, 0x3C, 0x48, 0x4C], off < 0x1000 ∧ regAt off = none := by decide
    obtain ⟨hlt, hnone⟩ := hgap _ hlist
    rw [locate_below hlt, hnone, Option.elim]
  · have hnone : regAt a.toNat = none := by
      refine Option.eq_none_iff_forall_ne_some.mpr fun r hr => ?_
      have := r.addr_le
      rw [Reg.addr_of_regAt hr] at this
      omega
    rw [locate_below hhi, hnone, Option.elim]
  · exact locate_above hhi
  · rw [locate_window (by omega) hhi, if_neg (by omega)]
  · rw [locate_buffer (b := b) (by omega) hhi, if_neg (by omega)]

/-- The locations a host write leaves alone (R69): read-only registers and WIN. -/
def Loc.readOnly : Loc → Bool
  | .reg r => r ∈ [Reg.id, .cfgN, .cfgR, .cfgK, .errInfo, .fRes]
  | .win _ => true
  | .elem _ _ => false
  | .reserved => false

theorem locate_readOnly (hc : c.wf) (h : readOnlyAddr c a.toNat) : (locate c a).readOnly = true := by
  rcases h with hlist | ⟨halign, hlo, hhi⟩
  · have hreg : ∀ off ∈ [0x00, 0x04, 0x08, 0x0C, 0x18, 0x44], off < 0x1000 ∧
        ((regAt off).elim Loc.reserved .reg).readOnly = true := by decide
    obtain ⟨hlt, hro⟩ := hreg _ hlist
    rwa [locate_below hlt]
  · rw [locate_win hc (i := (a.toNat - 0x5000) / 4) (by omega) (by omega), Loc.readOnly]

/-- Only CMD's own address is mapped to CMD. -/
theorem ne_cmdAddr_of_locate (h : locate c a ≠ .reg .cmd) : a ≠ cmdAddr := fun e =>
  h (e ▸ Reg.locate_addr c .cmd)

end

theorem admitted_word {a : BitVec 16} : admitted a .word = true ↔ a.toNat % 4 = 0 := by simp [admitted]

theorem not_admitted_iff {a : BitVec 16} {size : AccessSize} :
    admitted a size = false ↔ a.toNat % 4 ≠ 0 ∨ size ≠ .word := by simp [admitted]; tauto

theorem State.writeLoc_of_readOnly (s : State) {l : Loc} (h : l.readOnly = true) (v : Word) :
    s.writeLoc l v = s := by
  cases l with
  | win i => rfl
  | elem b i => cases h
  | reserved => cases h
  | reg r =>
    simp only [Loc.readOnly, List.mem_cons, List.not_mem_nil, or_false, decide_eq_true_eq] at h
    rcases h with rfl | rfl | rfl | rfl | rfl | rfl <;> rfl

/-! ## A rejected access (R65, R238) -/

theorem step_pending {s : State} {e : Event} {rest : List Event} (hn : s.pending = e :: rest) :
    step s = serve e { s with pending := rest } := by simp only [step, hn]

/-- The statements' recording procedure is the model's. -/
theorem raiseCmdError_eq_cmdError (s : State) (code : BitVec 3) (info : Word) :
    s.raiseCmdError code info = cmdError s code info := by
  cases he : s.err <;> simp [State.raiseCmdError, cmdError, he]

/-- The data a read hands over and the error it records are apart. -/
theorem badAccess_answer (s : State) (addr : BitVec 16) (v : Word) :
    (s.badAccess addr).answer v = (s.answer v).badAccess addr := by
  cases he : s.err <;> simp [State.badAccess, State.raiseCmdError, State.answer, he]

theorem badAccess_eq_cmdError (s : State) (addr : BitVec 16) :
    s.badAccess addr = cmdError s 3#3 (addr.zeroExtend 32) := raiseCmdError_eq_cmdError ..

theorem busWrite_of_not_admitted {addr : BitVec 16} {size : AccessSize} (h : admitted addr size = false)
    (s : State) (v : Word) : busWrite s addr size v = .next (s.badAccess addr) := by
  simp [busWrite, h]

theorem busRead_of_not_admitted {addr : BitVec 16} {size : AccessSize} (h : admitted addr size = false)
    (s : State) : s.busRead addr size = (s.answer 0#32).badAccess addr := by
  simp [State.busRead, h, badAccess_answer]

/-! ## Registers by their words (R23 to R33, R66) -/

/-- Every register, in the order of the map. -/
def Reg.all : List Reg :=
  [.id, .cfgN, .cfgR, .cfgK, .cmd, .status, .errInfo, .opa, .opb, .opc, .accLo, .accHi, .fOpa, .fRes,
    .ppAlphaReverb, .ppAlphaLowLevel, .ppMinGain, .ppGainBoost, .ppSbFactor, .ppSbStart, .ppSbEnd, .ppCtrl,
    .lmScale]

/-- The statements' table of registers is the model's addresses and words. -/
theorem registerWords_eq (s : State) :
    registerWords s = Reg.all.map fun r => (r.addr, s.readReg r) := by
  have hstatus : s.statusWord = BitVec.ofNat 32 (2 * s.errCode.toNat + s.err.toNat) := by
    rw [State.statusWord, Nat.mul_comm]
    cases s.err <;> rfl
  have hlo : s.acc.extractLsb' 0 32 = BitVec.ofNat 32 (s.acc.toNat % 2 ^ 32) := by
    rw [← lowWord_toNat, BitVec.ofNat_toNat, BitVec.setWidth_eq]
  have hhi : s.acc.extractLsb' 32 32 = BitVec.ofNat 32 (s.acc.toNat / 2 ^ 32) := by
    rw [← highWord_toNat, BitVec.ofNat_toNat, BitVec.setWidth_eq]
  have hctrl : s.ppCtrlWord = BitVec.ofNat 32 s.sbEn.toNat := by
    rw [State.ppCtrlWord]
    cases s.sbEn <;> rfl
  simp only [registerWords, Reg.all, List.map, Reg.addr, State.readReg, Config.k, hstatus, hlo, hhi, hctrl]

/-! ## The element of a buffer behind its address -/

theorem elemAddr_toNat {c : Config} (hc : c.wf) {b : Buf} {i : Nat} (hi : i < b.len c) :
    (elemAddr b i).toNat = b.base + 4 * i := by
  have hlen := Buf.len_le hc b
  obtain ⟨-, -, hbase⟩ := b.base_spec
  rw [elemAddr, BitVec.toNat_ofNat, Buf.addr]
  exact Nat.mod_eq_of_lt (by omega)

section
variable {s : State} {rest : List Event}

/-- A write to a location that ignores it is served and does nothing else. -/
theorem step_write_ignored {a : BitVec 16} {v : Word} (ha : admitted a .word = true)
    (hcmd : locate s.cfg a ≠ .reg .cmd) (hn : s.pending = .write a .word v :: rest)
    (h : ∀ u : State, u.writeLoc (locate s.cfg a) v = u) : step s = .next { s with pending := rest } := by
  rw [step_write ha (ne_cmdAddr_of_locate hcmd) hn, h]

variable (hc : s.cfg.wf) {b : Buf} {i : Nat} (hi : i < b.len s.cfg)
include hc hi

theorem admitted_elemAddr : admitted (elemAddr b i) .word = true := by
  obtain ⟨hbase, -, -⟩ := b.base_spec
  rw [admitted_word, elemAddr_toNat hc hi]
  omega

theorem step_writeElem {v : Word} (hn : s.pending = .write (elemAddr b i) .word v :: rest) :
    step s = .next ({ s with pending := rest }.setElem b i v) := by
  have hl : locate s.cfg (elemAddr b i) = .elem b i := locate_elem hc hi (elemAddr_toNat hc hi)
  rw [step_write (admitted_elemAddr hc hi) (ne_cmdAddr_of_locate (c := s.cfg) (by rw [hl]; nofun)) hn, hl,
    State.writeLoc]

theorem step_readElem (hn : s.pending = .read (elemAddr b i) .word :: rest) :
    step s = .next { s with pending := rest, hostData := s.elem b i :: s.hostData } := by
  rw [step_read (admitted_elemAddr hc hi) hn, locate_elem hc hi (elemAddr_toNat hc hi), State.readLoc]

end

/-- A write to one element leaves every other element of every buffer as it was. -/
theorem State.elem_setElem_of_ne {s : State} (hc : s.cfg.wf) {b b' : Buf} {i j : Nat} (hi : i < b.len s.cfg)
    (hj : j < b'.len s.cfg) (h : (b', j) ≠ (b, i)) (v : Word) :
    (s.setElem b i v).elem b' j = s.elem b' j := by
  by_cases hb : b' = b
  · subst hb
    exact elem_setElem_ne s b' (fun e => h (by rw [e])) v
  · exact elem_setElem_other hc hb hi hj v

/-! ## Which steps are refused -/

theorem runCommand_next (c : Word) (s : State) : ∃ t, runCommand c s = .next t := by
  unfold runCommand
  split
  case h_1 i _ =>
    obtain ⟨fs, a, r, -, hx⟩ := exec_cases i s
    exact ⟨_, hx⟩
  case h_2 => exact ⟨_, rfl⟩
  case h_3 => exact ⟨_, rfl⟩

theorem busWrite_next (s : State) (addr : BitVec 16) (size : AccessSize) (v : Word) :
    ∃ t, busWrite s addr size v = .next t := by
  unfold busWrite
  split
  · split
    · exact runCommand_next v s
    · exact ⟨_, rfl⟩
  · exact ⟨_, rfl⟩

theorem serve_next {e : Event} (h : e ≠ .foreignAccess) (s : State) : ∃ t, serve e s = .next t := by
  cases e with
  | read addr size => exact ⟨_, rfl⟩
  | write addr size v => exact busWrite_next s addr size v
  | reset => exact ⟨_, rfl⟩
  | foreignAccess => contradiction

end Sys2Proof.Machine

namespace Sys2Proof.Proofs

open Machine Spec

/-- Settles O8: an access that is not admitted is served by recording the error, and a read answers 0. -/
theorem badAccessIsRejected : Obligations.BadAccessIsRejected := by
  intro s addr size v rest hbad
  have ha : admitted addr size = false := not_admitted_iff.mpr hbad
  refine ⟨fun hn => ?_, fun hn => ?_⟩
  · rw [step_pending hn, serve, busWrite_of_not_admitted ha, badAccess_eq_cmdError]
  · rw [step_pending hn, serve, busRead_of_not_admitted ha, badAccess_eq_cmdError, State.answer]

/-- Settles O11: `step_read` answers the word mapped at the address, and the map leads from each address to
its register, element of WIN or element of a buffer. -/
theorem readHasNoSideEffect : Obligations.ReadHasNoSideEffect := by
  intro s addr rest halign hn
  refine ⟨_, step_read (admitted_word.mpr halign) hn, fun p hp ha => ?_, fun hc => ⟨fun i hi ha => ?_,
    fun b i hi ha => ?_⟩⟩
  · rw [registerWords_eq] at hp
    obtain ⟨r, -, rfl⟩ := List.mem_map.mp hp
    rw [ha, Reg.locate_addr, State.readLoc]
  · rw [locate_win hc hi ha, State.readLoc]
  · rw [locate_elem hc hi ha, State.readLoc]

/-- Settles O15: the write is `setElem`, which changes its own four bytes, and the read returns the element. -/
theorem bufferElementReadsBackTheWordWritten : Obligations.BufferElementReadsBackTheWordWritten := by
  intro s b i v rest hc hi hn
  let u : State := { s with pending := .read (elemAddr b i) .word :: rest }
  refine ⟨u.setElem b i v, _, step_writeElem hc hi hn, step_readElem (s := u.setElem b i v) hc hi rfl, ?_, rfl,
    fun x hx => State.readByte_setElem_outside u b i v hx,
    fun b' j hj hne => State.elem_setElem_of_ne (s := u) hc hi hj hne v⟩
  rw [State.elem_setElem_same]
  rfl

/-- Settles O16: every address of R68 is mapped to reserved space. -/
theorem reservedSpaceIsZeroAndIgnoresWrites : Obligations.ReservedSpaceIsZeroAndIgnoresWrites := by
  intro s a v rest _ hr
  have hl : locate s.cfg a = .reserved := locate_reserved hr
  have ha : admitted a .word = true := admitted_word.mpr hr.1
  refine ⟨fun hn => ?_, fun hn => step_write_ignored ha (by rw [hl]; nofun) hn fun u => by rw [hl]; rfl⟩
  rw [step_read ha hn, hl, State.readLoc]

/-- Settles O17: every address of R69 is mapped to a read-only location, which ignores the write. -/
theorem readOnlyLocationsIgnoreWrites : Obligations.ReadOnlyLocationsIgnoreWrites := by
  intro s a v rest hc hr hn
  have hro : (locate s.cfg a).readOnly = true := locate_readOnly hc hr
  have halign : a.toNat % 4 = 0 := by
    rcases hr with hlist | ⟨halign, -, -⟩
    · revert hlist
      generalize a.toNat = n
      revert n
      decide
    · exact halign
  refine step_write_ignored (admitted_word.mpr halign) (fun h => ?_) hn fun u => u.writeLoc_of_readOnly hro v
  rw [h] at hro
  cases hro

/-- Settles O18: every event but a second master's access has a next state, and so has a step with nothing
pending. -/
theorem onlyASecondMasterIsRefused : Obligations.OnlyASecondMasterIsRefused := by
  intro s
  refine ⟨fun rest hn => ?_, fun h => ?_⟩
  · rw [step_pending hn, serve]
  · cases hp : s.pending with
    | nil => exact ⟨s, by simp only [step, hp]⟩
    | cons e rest => rw [step_pending hp]; exact serve_next (fun he => h rest (he ▸ hp)) _

end Sys2Proof.Proofs
end

section
/-! What a command writes (20_memory.md R80; 70_reset_and_hazards.md R266) and what the values it writes depend
on (R271): two runs from states that agree on what the command reads write the same. -/

namespace Sys2Proof.Machine

open Spec

/-! ## What a command leaves unchanged -/

/-- Only the kernel commands set ACC (R150). -/
theorem exec_acc {i : Instr} {s t : State} (hx : exec i s = .next t) (h : i.writesAcc = false) :
    t.acc = s.acc := by
  cases i <;> simp [Instr.writesAcc, Instr.opcode] at h
  all_goals
    have ht := congrArg State.acc (Host.Outcome.next.inj hx)
    simpa using ht.symm

/-- Only the float activations set F_RES (R180). -/
theorem exec_fRes {i : Instr} {s t : State} (hx : exec i s = .next t) (h : i.writesFRes = false) :
    t.fRes = s.fRes := by
  cases i <;> simp [Instr.writesFRes, Instr.opcode] at h
  all_goals
    have ht := congrArg State.fRes (Host.Outcome.next.inj hx)
    simpa using ht.symm

/-! ## Values that depend on some elements only -/

section
variable {s s' : State}

variable (hc : s.cfg.wf) (hcfg : s'.cfg = s.cfg)
include hc hcfg

theorem shiftedFrame_congr (h : sameElems [.anaBuf, .inBuf] s s') {n : Nat} (hn : n < s.cfg.n) :
    shiftedFrame s' n = shiftedFrame s n := by
  obtain ⟨-, -, -, hr, hrn⟩ := hc
  simp only [shiftedFrame, hcfg]
  split
  · exact h .anaBuf (by simp) _ (by simp only [Buf.len]; omega)
  · exact h .inBuf (by simp) _ (by simp only [Buf.len]; omega)

theorem windowedFrame_congr (h : sameElems [.anaBuf, .inBuf] s s') : windowedFrame s' = windowedFrame s := by
  simp only [windowedFrame, hcfg]
  refine List.map_congr_left fun n hn => ?_
  rw [shiftedFrame_congr hc hcfg h (List.mem_range.mp hn)]

end

theorem binMagnitude_congr {s s' : State} (hcfg : s'.cfg = s.cfg) (h : sameElems [.specRe, .specIm] s s')
    {k : Nat} (hk : k < s.cfg.k) : binMagnitude s' k = binMagnitude s k := by
  simp only [binMagnitude, hcfg, h .specRe (by simp) k hk, h .specIm (by simp) k hk]

theorem maskGain_congr {s s' : State} {sel : MaskSource} (h : sameElems (Instr.stftMask sel).reads s s') {k : Nat}
    (hk : k < s.cfg.k) : s'.maskGain sel k = s.maskGain sel k := by
  cases sel with
  | gainState => exact h .gainState (by simp [Instr.reads]) k hk
  | gainIn => exact h .gainIn (by simp [Instr.reads]) k hk

theorem postGain_congr {s s' : State} (hcfg : s'.cfg = s.cfg) (h : sameElems [.gainIn, .gainState] s s')
    (ho : sameOperands .ppRun s s') {k : Nat} (hk : k < s.cfg.k) : postGain s' k = postGain s k := by
  obtain ⟨hreverb, hlow, hmin, hboost, hfactor, hstart, hend, hen⟩ := ho
  simp only [postGain, flooredGain, shapedGain, State.inBand, hcfg, hreverb, hlow, hmin, hboost, hfactor, hstart,
    hend, hen, h .gainIn (by simp) k hk, h .gainState (by simp) k hk]

/-! ## The inverse transform reads the K bins of its spectrum -/

theorem bitrev_lt (l j : Nat) : bitrev l j < 2 ^ l := by
  induction l generalizing j with
  | zero => simp [bitrev]
  | succ l ih =>
    have hrest := ih (j / 2)
    have hbit : j % 2 * 2 ^ l ≤ 1 * 2 ^ l := Nat.mul_le_mul_right _ (by omega)
    rw [bitrev, Nat.pow_succ]
    omega

/-- A transform of length N reads N points. -/
theorem radix2_congr {tw x x' : Nat → Cplx} {n : Nat} (hn : isPow2 n = true) (h : ∀ j < n, x' j = x j) :
    radix2 tw n x' = radix2 tw n x := by
  have hpow : 2 ^ Nat.log2 n = n := by simpa [isPow2] using hn
  have hinput : ((List.range n).map fun j => x' (bitrev (Nat.log2 n) j)) =
      (List.range n).map fun j => x (bitrev (Nat.log2 n) j) :=
    List.map_congr_left fun j _ => h _ ((bitrev_lt _ j).trans_eq hpow)
  simp only [radix2, hinput]

theorem hermitian_congr {c : Config} {spec spec' : Nat → Cplx} (h : ∀ k < c.k, spec' k = spec k) {j : Nat}
    (hj : j < c.n) : hermitian c spec' j = hermitian c spec j := by
  simp only [Config.k] at h
  unfold hermitian
  split
  · rw [h j (by omega)]
  · split
    · rw [h j (by omega)]
    · rw [h (c.n - j) (by omega)]

theorem inverse_congr {c : Config} {spec spec' : Nat → Cplx} (h : ∀ k < c.k, spec' k = spec k) :
    inverse c spec' = inverse c spec := by
  have hz : ∀ j < c.n, hermitian c spec' j = hermitian c spec j := fun j hj => hermitian_congr h hj
  have hlist : (List.range c.n).map (hermitian c spec') = (List.range c.n).map (hermitian c spec) :=
    List.map_congr_left fun j hj => hz j (List.mem_range.mp hj)
  have href : referenceInverse c (hermitian c spec') = referenceInverse c (hermitian c spec) := by
    unfold referenceInverse
    split
    case isTrue hpow => rw [radix2_congr hpow hz]
    case isFalse => simp only [hlist]
  simp only [inverse, href, hlist]

theorem overlapAdd_congr {s s' : State} (hcfg : s'.cfg = s.cfg)
    (h : sameElems [.specRe, .specIm, .synAcc] s s') : overlapAdd s' = overlapAdd s := by
  have hspec : ∀ k < s.cfg.k, s'.spectrum k = s.spectrum k := fun k hk =>
    Prod.ext (h .specRe (by simp) k hk) (h .specIm (by simp) k hk)
  simp only [overlapAdd, hcfg, inverse_congr hspec]
  refine List.map_congr_left fun n hn => ?_
  rw [h .synAcc (by simp) n (List.mem_range.mp hn)]

/-! ## Two runs that write the same -/

/-- The same buffers, in the same order, filled with the same elements. -/
def SameFills (c : Config) : List (Buf × (Nat → Word)) → List (Buf × (Nat → Word)) → Prop :=
  List.Forall₂ fun f f' => f.1 = f'.1 ∧ ∀ k < f.1.len c, f'.2 k = f.2 k

theorem SameFills.refl (c : Config) (fs : List (Buf × (Nat → Word))) : SameFills c fs fs :=
  List.forall₂_same.mpr fun _ _ => ⟨rfl, fun _ _ => rfl⟩

theorem SameFills.cons {c : Config} {b : Buf} {f f' : Nat → Word} {fs fs' : List (Buf × (Nat → Word))}
    (hf : ∀ k < b.len c, f' k = f k) (hfs : SameFills c fs fs') : SameFills c ((b, f) :: fs) ((b, f') :: fs') :=
  List.Forall₂.cons ⟨rfl, hf⟩ hfs

theorem SameFills.keys {c : Config} {fs fs' : List (Buf × (Nat → Word))} (h : SameFills c fs fs') :
    fs'.map Prod.fst = fs.map Prod.fst := by
  induction h with
  | nil => rfl
  | cons hf _ ih => rw [List.map_cons, List.map_cons, hf.1, ih]

/-- What a buffer held before does not matter once it is filled. -/
theorem SameFills.sameElems {c : Config} {fs fs' : List (Buf × (Nat → Word))} (h : SameFills c fs fs')
    {s s' : State} (hc : c.wf) (hs : s.cfg = c) (hs' : s'.cfg = c) :
    sameElems (fs.map Prod.fst) (s.fillAll fs) (s'.fillAll fs') := by
  induction h generalizing s s' with
  | nil => simp [Spec.sameElems]
  | @cons f f' fs fs' hf hfs ih =>
    obtain ⟨hbuf, hval⟩ := hf
    intro b hb k hk
    rw [State.fillAll_cfg, hs] at hk
    by_cases hmem : b ∈ fs.map Prod.fst
    · exact ih (s := s.fillBuf f.1 f.2) (s' := s'.fillBuf f'.1 f'.2) hs hs' b hmem k
        (by rw [State.fillAll_cfg]; exact hs.symm ▸ hk)
    · obtain rfl : b = f.1 := by simpa [hmem] using hb
      have hmem' : f.1 ∉ fs'.map Prod.fst := by rwa [SameFills.keys hfs]
      subst hs
      calc ((s'.fillBuf f'.1 f'.2).fillAll fs').elem f.1 k
          = (s'.fillBuf f'.1 f'.2).elem f.1 k :=
            State.elem_fillAll_other (s := s'.fillBuf f'.1 f'.2) (hs'.symm ▸ hc) hmem' (hs'.symm ▸ hk)
        _ = f'.2 k := by rw [← hbuf, State.elem_fillBuf_same _ _ _ (hs'.symm ▸ hk)]
        _ = f.2 k := hval k hk
        _ = (s.fillBuf f.1 f.2).elem f.1 k := (State.elem_fillBuf_same s f.1 f.2 hk).symm
        _ = ((s.fillBuf f.1 f.2).fillAll fs).elem f.1 k :=
            (State.elem_fillAll_other (s := s.fillBuf f.1 f.2) hc hmem hk).symm

section
variable {i : Instr} {s s' : State}

/-- A kernel command writes ACC, and the same word in both runs (R150). -/
theorem exec_kernel (h : i.writesAcc = true) (ho : sameOperands i s s') :
    i.writes = [] ∧ ∃ v, exec i s = .next (s.setAcc v) ∧ exec i s' = .next (s'.setAcc v) := by
  cases i <;> simp [Instr.writesAcc, Instr.opcode] at h
  case qClr => exact ⟨rfl, 0, rfl, rfl⟩
  all_goals
    refine ⟨rfl, _, rfl, ?_⟩
    simp only [sameOperands] at ho
    simp only [State.opaInt, State.opbInt, State.opcInt, State.accInt, ho]
    rfl

/-- A float activation writes F_RES, and the same word in both runs (R180). -/
theorem exec_activation (h : i.writesFRes = true) (ho : sameOperands i s s') :
    i.writes = [] ∧ ∃ v, exec i s = .next (s.setFRes v) ∧ exec i s' = .next (s'.setFRes v) := by
  cases i <;> simp [Instr.writesFRes, Instr.opcode] at h
  all_goals
    refine ⟨rfl, _, rfl, ?_⟩
    simp only [sameOperands] at ho
    simp only [ho]
    rfl

/-- Any other command fills the buffers it writes, with the same elements in both runs (R80). -/
theorem exec_fills (hacc : i.writesAcc = false) (hf : i.writesFRes = false) (hc : s.cfg.wf)
    (hcfg : s'.cfg = s.cfg) (h : sameElems i.reads s s') (ho : sameOperands i s s') :
    ∃ fs : State → List (Buf × (Nat → Word)), (fs s).map Prod.fst = i.writes ∧
      (∀ u, exec i u = .next (u.fillAll (fs u))) ∧ SameFills s.cfg (fs s) (fs s') := by
  cases i <;> simp [Instr.writesAcc, Instr.writesFRes, Instr.opcode] at hacc hf
  case nop => exact ⟨fun _ => [], rfl, fun _ => rfl, .refl _ _⟩
  case stftInit =>
    exact ⟨fun _ => Instr.stftInit.writes.map (·, fun _ => F32.posZero), rfl, fun _ => rfl, .refl _ _⟩
  case stftAnalyze =>
    have hspec : forward s'.cfg (windowedFrame s') = forward s.cfg (windowedFrame s) := by
      rw [hcfg, windowedFrame_congr hc hcfg h]
    exact ⟨fun u => [(.anaBuf, shiftedFrame u), (.specRe, fun k => (forward u.cfg (windowedFrame u) k).1),
        (.specIm, fun k => (forward u.cfg (windowedFrame u) k).2)], rfl, fun _ => rfl,
      .cons (fun n hn => shiftedFrame_congr hc hcfg h hn)
        (.cons (fun k _ => by rw [hspec]) (.cons (fun k _ => by rw [hspec]) (.refl _ _)))⟩
  case stftMag =>
    exact ⟨fun u => [(.mag, binMagnitude u)], rfl, fun _ => rfl,
      .cons (fun k hk => binMagnitude_congr hcfg h hk) (.refl _ _)⟩
  case stftLogmag =>
    refine ⟨fun u => [(.logmag, fun k => F32.mul u.lmScale (F32.log10 (F32.add (u.elem .mag k) eps)))], rfl,
      fun _ => rfl, .cons (fun k hk => ?_) (.refl _ _)⟩
    rw [h .mag (by simp [Instr.reads]) k hk, show s.lmScale = s'.lmScale from ho]
  case stftMask sel =>
    have hre : Buf.specRe ∈ (Instr.stftMask sel).reads := by cases sel <;> simp [Instr.reads]
    have him : Buf.specIm ∈ (Instr.stftMask sel).reads := by cases sel <;> simp [Instr.reads]
    exact ⟨fun u => [(.specRe, fun k => F32.mul (u.maskGain sel k) (u.elem .specRe k)),
        (.specIm, fun k => F32.mul (u.maskGain sel k) (u.elem .specIm k))], rfl, fun _ => rfl,
      .cons (fun k hk => by rw [maskGain_congr h hk, h .specRe hre k hk])
        (.cons (fun k hk => by rw [maskGain_congr h hk, h .specIm him k hk]) (.refl _ _))⟩
  case stftSynth =>
    have hsum : overlapAdd s' = overlapAdd s := overlapAdd_congr hcfg h
    exact ⟨fun u => [(.outBuf, fun n => (overlapAdd u).getD n F32.posZero),
        (.synAcc, fun n => if n < u.cfg.n - u.cfg.r then (overlapAdd u).getD (n + u.cfg.r) F32.posZero
          else F32.posZero)], rfl, fun _ => rfl,
      .cons (fun n _ => by rw [hsum]) (.cons (fun n _ => by rw [hsum, hcfg]) (.refl _ _))⟩
  case ppInit => exact ⟨fun _ => [(.gainState, fun _ => F32.posZero)], rfl, fun _ => rfl, .refl _ _⟩
  case ppRun =>
    exact ⟨fun u => [(.gainState, postGain u)], rfl, fun _ => rfl,
      .cons (fun k hk => postGain_congr hcfg h ho hk) (.refl _ _)⟩

end

/-- No command writes both ACC and F_RES. -/
theorem writesFRes_of_writesAcc {i : Instr} (h : i.writesAcc = true) : i.writesFRes = false := by
  simp only [Instr.writesAcc, Instr.writesFRes, beq_iff_eq, beq_eq_false_iff_ne] at *
  omega

end Sys2Proof.Machine

namespace Sys2Proof.Proofs

open Machine Spec

/-- Settles O26: a command fills the buffers it writes, which no other byte lies in, and only a kernel command
changes ACC and only a float activation F_RES. -/
theorem commandsWriteOnlyTheirResults : Obligations.CommandsWriteOnlyTheirResults := by
  intro i s
  obtain ⟨fs, a, r, hfs, hx⟩ := exec_cases i s
  refine ⟨_, hx, ?_, exec_acc hx, exec_fRes hx, fun hw => ?_, fun x hout => ?_⟩
  · rw [State.fillAll_eq]
  · obtain rfl : fs = [] := by simpa [hw] using hfs
    rfl
  · exact State.readByte_fillAll_outside (hfs.symm ▸ hout)

/-- Settles O27: a kernel command and an activation write one word, any other command fills buffers, each a
function of what it reads. -/
theorem commandsDependOnlyOnTheirOperands : Obligations.CommandsDependOnlyOnTheirOperands := by
  intro i s s' hc hcfg hreads ho
  cases hacc : i.writesAcc
  case true =>
    obtain ⟨hw, v, hx, hx'⟩ := exec_kernel hacc ho
    exact ⟨_, _, hx, hx', by simp [sameElems, hw], fun _ => rfl, by simp [writesFRes_of_writesAcc hacc]⟩
  case false =>
    cases hf : i.writesFRes
    case true =>
      obtain ⟨hw, v, hx, hx'⟩ := exec_activation hf ho
      exact ⟨_, _, hx, hx', by simp [sameElems, hw], nofun, fun _ => rfl⟩
    case false =>
      obtain ⟨fs, hw, hx, hfs⟩ := exec_fills hacc hf hc hcfg hreads ho
      exact ⟨_, _, hx s, hx s', hw ▸ hfs.sameElems hc rfl hcfg, nofun, nofun⟩

end Sys2Proof.Proofs
end

section
/-! The decoder of command words (30_encoding.md R90 to R99), said once: an opcode gives back its command with
the operands the word holds, an accepted word is one that matches the row of its command, and the mask of a row
cuts a word into what the row fixes and the operands. -/

namespace Sys2Proof

open Spec

/-! ## Parts of a word -/

/-- A run of `n` mask bits from bit `k` keeps that field of the word, in place. -/
theorem and_fieldMask (c : Word) (k n : Nat) :
    c &&& BitVec.ofNat 32 ((2 ^ n - 1) * 2 ^ k) = BitVec.ofNat 32 (c.toNat / 2 ^ k % 2 ^ n * 2 ^ k) := by
  have hfield : c.toNat &&& (2 ^ n - 1) * 2 ^ k = c.toNat / 2 ^ k % 2 ^ n * 2 ^ k := by
    refine Nat.eq_of_testBit_eq fun j => ?_
    rw [← Nat.shiftLeft_eq, ← Nat.shiftLeft_eq, ← Nat.shiftRight_eq_div_pow]
    by_cases hj : k ≤ j <;> simp [hj, Bool.and_comm]
  rw [← hfield, BitVec.ofNat_and, BitVec.ofNat_toNat, BitVec.setWidth_eq]

/-- Masks without a common bit cut a word into summands. -/
theorem and_or_eq_add (c : Word) {a b : Word} (h : a &&& b = 0#32) :
    c &&& (a ||| b) = (c &&& a) + (c &&& b) := by
  have hdisj : (c &&& a) &&& (c &&& b) = 0#32 := by
    rw [BitVec.and_assoc, ← BitVec.and_assoc a, BitVec.and_comm a, BitVec.and_assoc c, h, BitVec.and_zero,
      BitVec.and_zero]
  rw [BitVec.add_eq_or_of_and_eq_zero _ _ hdisj]
  ext
  simp [Bool.and_or_distrib_left]

theorem and_add_and_not (c m : Word) : (c &&& m) + (c &&& ~~~m) = c := by
  rw [← and_or_eq_add c (BitVec.and_not_self m), BitVec.or_not_self, BitVec.and_allOnes]

theorem opField_lt (c : Word) : opField c < 2 ^ 8 := by rw [opField]; omega

theorem shField_ok (c : Word) : shiftOk (shField c) := by rw [shiftOk, shField]; omega

theorem widthField_ok (c : Word) : widthOk (widthField c) := by rw [widthOk, widthField]; omega

theorem opByte_eq (c : Word) : opByte c = BitVec.ofNat 32 (opField c * 2 ^ 24) := by
  rw [show opByte c = _ from and_fieldMask c 24 8, ← opField, Nat.mod_eq_of_lt (opField_lt c)]

/-! ## Formats (R91) -/

namespace Format

/-- The operand bits of a word in a format. -/
def operandBits (c : Word) : Format → Nat
  | .N => 0
  | .S => shField c * 2 ^ 16
  | .W => (widthField c - 1) * 2 ^ 8
  | .SW => shField c * 2 ^ 16 + (widthField c - 1) * 2 ^ 8
  | .E => c.toNat % 2

/-- A mask fixes all of a word but its operand bits. -/
theorem and_not_fixedMask (f : Format) (c : Word) :
    c &&& ~~~f.fixedMask = BitVec.ofNat 32 (f.operandBits c) := by
  have hsh : c &&& 0x003F0000#32 = BitVec.ofNat 32 (shField c * 2 ^ 16) := and_fieldMask c 16 6
  have hw : c &&& 0x00003F00#32 = BitVec.ofNat 32 ((widthField c - 1) * 2 ^ 8) := and_fieldMask c 8 6
  cases f
  case N => exact BitVec.and_zero
  case S => exact hsh
  case W => exact hw
  case SW =>
    rw [operandBits, BitVec.ofNat_add, ← hsh, ← hw]
    exact and_or_eq_add c (a := 0x003F0000#32) (b := 0x00003F00#32) rfl
  case E =>
    have hsel : c &&& 0x00000001#32 = BitVec.ofNat 32 (c.toNat / 1 % 2 * 1) := and_fieldMask c 0 1
    rwa [Nat.div_one, Nat.mul_one] at hsel

/-- A mask holds OP and the reserved bits that R93 tests. -/
theorem and_fixedMask (f : Format) (c : Word) :
    c &&& f.fixedMask = opByte c + (c &&& f.fixedMask &&& 0x00FFFFFF#32) := by
  have hmask : 0xFF000000#32 ||| f.fixedMask &&& 0x00FFFFFF#32 = f.fixedMask := by cases f <;> rfl
  have hdisj : 0xFF000000#32 &&& (f.fixedMask &&& 0x00FFFFFF#32) = 0#32 := by cases f <;> rfl
  rw [BitVec.and_assoc, opByte, ← and_or_eq_add c hdisj, hmask]

theorem opByte_and_fixedMask (f : Format) (c : Word) : opByte (c &&& f.fixedMask) = opByte c := by
  have hmask : f.fixedMask &&& 0xFF000000#32 = 0xFF000000#32 := by cases f <;> rfl
  rw [opByte, BitVec.and_assoc, hmask, opByte]

end Format

theorem reservedBitSet_eq_false_iff {f : Format} {c : Word} :
    reservedBitSet f c = false ↔ c &&& f.fixedMask &&& 0x00FFFFFF#32 = 0#32 := by
  simp [reservedBitSet]

/-! ## A command, its row in the table (R94) and its operands in a word (R92) -/

namespace Instr

/-- The match word and the fixed-bits mask of the command. -/
def row (i : Instr) : Word × Word := (BitVec.ofNat 32 (i.opcode * 2 ^ 24), i.format.fixedMask)

/-- The command with its operands replaced by those `c` holds. -/
def withOperandsOf (c : Word) : Instr → Instr
  | .stftMask _ => .stftMask (selField c)
  | .qMul _ => .qMul (shField c)
  | .qMac _ => .qMac (shField c)
  | .qAddsh _ => .qAddsh (shField c)
  | .qSat _ => .qSat (widthField c)
  | .qShrsat _ _ => .qShrsat (shField c) (widthField c)
  | .qAddsat _ => .qAddsat (widthField c)
  | i => i

section
variable (i : Instr) (c : Word)

@[simp] theorem withOperandsOf_opcode : (i.withOperandsOf c).opcode = i.opcode := by cases i <;> rfl

@[simp] theorem withOperandsOf_format : (i.withOperandsOf c).format = i.format := by cases i <;> rfl

@[simp] theorem withOperandsOf_row : (i.withOperandsOf c).row = i.row := by simp [row]

@[simp] theorem withOperandsOf_withOperandsOf : (i.withOperandsOf c).withOperandsOf c = i.withOperandsOf c := by
  cases i <;> rfl

/-- No field can hold an operand that is out of range. -/
theorem withOperandsOf_wf : (i.withOperandsOf c).wf = true := by
  have hsh := decide_eq_true (shField_ok c)
  have hw := decide_eq_true (widthField_ok c)
  cases i <;> simp only [withOperandsOf, wf, hsh, hw, Bool.and_self]

theorem withOperandsOf_operandBits : (i.withOperandsOf c).operandBits = i.format.operandBits c := by
  cases i
  case stftMask sel =>
    simp only [withOperandsOf, selField, format, Format.operandBits]
    split
    next h => exact h.symm
    next h => exact (Nat.mod_two_ne_zero.mp h).symm
  all_goals rfl

end

theorem opcode_lt (i : Instr) : i.opcode < 2 ^ 8 := by cases i <;> simp only [opcode] <;> decide

/-- For each row the command whose fields are all 0. -/
def representatives : List Instr :=
  [.nop, .stftInit, .stftAnalyze, .stftMag, .stftLogmag, .stftMask .gainState, .stftSynth, .qClr, .qMul 0,
    .qMac 0, .qAddsh 0, .qSat 1, .qShrsat 0 1, .qAddsat 1, .qInterp, .qTanh, .qSigmoid, .qRelu, .fTanh,
    .fSigmoid, .fRelu, .ppInit, .ppRun]

theorem withOperandsOf_zero_mem (i : Instr) : i.withOperandsOf 0#32 ∈ representatives := by
  cases i <;> simp [withOperandsOf, shField, widthField, selField, representatives]

theorem opcodeRows_eq : opcodeRows = representatives.map row := by decide

/-- The table lists the rows of the commands. -/
theorem mem_opcodeRows_iff {r : Word × Word} : r ∈ opcodeRows ↔ ∃ i : Instr, i.row = r := by
  rw [opcodeRows_eq, List.mem_map]
  refine ⟨fun ⟨i, _, hi⟩ => ⟨i, hi⟩, fun ⟨i, hi⟩ => ⟨_, i.withOperandsOf_zero_mem, ?_⟩⟩
  rw [withOperandsOf_row, hi]

theorem opByte_eq_row_iff {i : Instr} {c : Word} : opByte c = i.row.1 ↔ opField c = i.opcode := by
  have hop := opField_lt c
  have hi := i.opcode_lt
  rw [opByte_eq, row, BitVec.toNat_eq, BitVec.toNat_ofNat, BitVec.toNat_ofNat]
  omega

theorem row_toNat (i : Instr) : i.row.1.toNat = i.opcode * 2 ^ 24 := by
  have hi := i.opcode_lt
  rw [row, BitVec.toNat_ofNat]
  omega

theorem opByte_row (i : Instr) : opByte i.row.1 = i.row.1 := by
  rw [opByte_eq_row_iff, opField, row_toNat]
  omega

theorem row_and_low (i : Instr) : i.row.1 &&& 0x00FFFFFF#32 = 0#32 := by
  have hzero : i.row.1.toNat / 2 ^ 0 % 2 ^ 24 * 2 ^ 0 = 0 := by
    rw [row_toNat]
    omega
  rw [show i.row.1 &&& 0x00FFFFFF#32 = _ from and_fieldMask i.row.1 0 24, hzero]

/-- A word matches the row of a command when it has the opcode of the command and no reserved bit set. -/
theorem matches_row_iff {i : Instr} {c : Word} :
    c &&& i.row.2 = i.row.1 ↔ opField c = i.opcode ∧ reservedBitSet i.format c = false := by
  rw [← opByte_eq_row_iff, reservedBitSet_eq_false_iff, show i.row.2 = i.format.fixedMask from rfl]
  refine ⟨fun h => ⟨?_, ?_⟩, fun ⟨hop, hres⟩ => ?_⟩
  · rw [← i.format.opByte_and_fixedMask, h, opByte_row]
  · rw [h, row_and_low]
  · rw [Format.and_fixedMask, hres, hop, BitVec.add_zero]

end Instr

/-! ## The decoder (R95, R96) -/

section
variable {c : Word} {i : Instr}

theorem opcodeMap_of_opcode (h : opField c = i.opcode) :
    opcodeMap c = some (i.format, i.withOperandsOf c) := by
  cases i <;> simp only [opcodeMap, h, Instr.opcode, Instr.format, Instr.withOperandsOf]

theorem opField_of_opcodeMap {f : Format} (h : opcodeMap c = some (f, i)) : opField c = i.opcode := by
  unfold opcodeMap at h
  split at h <;> cases h <;> assumption

/-- With an opcode of the table the reserved bits of its format decide. -/
theorem decode_of_opcode (h : opField c = i.opcode) :
    decode c = if reservedBitSet i.format c then .error .reservedBits else .ok (i.withOperandsOf c) := by
  simp only [decode, opcodeMap_of_opcode h]

/-- Any other opcode is undefined, whatever the other bits. -/
theorem decode_of_undefined (h : ∀ i : Instr, opField c ≠ i.opcode) : decode c = .error .illegalOp := by
  have hnone : opcodeMap c = none :=
    Option.eq_none_iff_forall_ne_some.mpr fun p hp => h p.2 (opField_of_opcodeMap hp)
  simp only [decode, hnone]

/-- A word is accepted as the command whose row it matches and whose operands it holds. -/
theorem decode_eq_ok_iff : decode c = .ok i ↔ c &&& i.row.2 = i.row.1 ∧ i.withOperandsOf c = i := by
  rw [Instr.matches_row_iff]
  refine ⟨fun h => ?_, fun ⟨⟨hop, hres⟩, hi⟩ => ?_⟩
  · by_cases hdef : ∃ j : Instr, opField c = j.opcode
    · obtain ⟨j, hj⟩ := hdef
      rw [decode_of_opcode hj] at h
      cases hres : reservedBitSet j.format c
      · rw [hres] at h
        cases h
        simp [hj, hres]
      · rw [hres] at h
        cases h
    · rw [decode_of_undefined (not_exists.mp hdef)] at h
      cases h
  · rw [decode_of_opcode hop, hres, hi]
    rfl

end

/-! ## The encoder (R99) -/

section
variable {i : Instr} (h : i.wf = true)
include h

theorem operandBits_lt : i.operandBits < 2 ^ 24 := by
  cases i
  case stftMask sel => cases sel <;> decide
  case qMul sh | qMac sh | qAddsh sh | qSat w | qShrsat sh w | qAddsat w =>
    simp only [Instr.wf, Bool.and_eq_true, decide_eq_true_eq] at h
    rw [Instr.operandBits]
    omega
  all_goals decide

theorem encode_toNat : (encode i).toNat = i.opcode * 2 ^ 24 + i.operandBits := by
  have hop := i.opcode_lt
  have hbits := operandBits_lt h
  rw [encode, BitVec.toNat_ofNat]
  omega

theorem shField_encode : shField (encode i) = i.operandBits / 2 ^ 16 % 64 := by
  rw [shField, encode_toNat h]
  omega

theorem widthField_encode : widthField (encode i) = i.operandBits / 2 ^ 8 % 64 + 1 := by
  rw [widthField, encode_toNat h]
  omega

/-- The fields of its word hold the operands of a command. -/
theorem withOperandsOf_encode : i.withOperandsOf (encode i) = i := by
  have hsh := shField_encode h
  have hw := widthField_encode h
  cases i
  case stftMask sel => cases sel <;> rfl
  case qMul sh | qMac sh | qAddsh sh | qSat w | qShrsat sh w | qAddsat w =>
    simp only [Instr.wf, Bool.and_eq_true, decide_eq_true_eq] at h
    simp only [Instr.withOperandsOf, hsh, hw, Instr.operandBits, Instr.qMul.injEq, Instr.qMac.injEq,
      Instr.qAddsh.injEq, Instr.qSat.injEq, Instr.qShrsat.injEq, Instr.qAddsat.injEq]
    omega
  all_goals rfl

end

/-- The word of a command is the match word of the row with the operand bits. -/
theorem encode_eq_row_add (i : Instr) : encode i = i.row.1 + BitVec.ofNat 32 i.operandBits :=
  BitVec.ofNat_add ..

/-- A row leaves a word that holds the operands of a command its operand bits. -/
theorem and_not_row {c : Word} {i : Instr} (h : i.withOperandsOf c = i) :
    c &&& ~~~i.row.2 = BitVec.ofNat 32 i.operandBits := by
  rw [Instr.row, Format.and_not_fixedMask, ← Instr.withOperandsOf_operandBits, h]

theorem decode_encode {i : Instr} (h : i.wf = true) : decode (encode i) = .ok i := by
  have hi : i.withOperandsOf (encode i) = i := withOperandsOf_encode h
  have hcut : (encode i &&& i.row.2) + BitVec.ofNat 32 i.operandBits =
      i.row.1 + BitVec.ofNat 32 i.operandBits := by
    rw [← and_not_row hi, and_add_and_not, and_not_row hi, encode_eq_row_add]
  exact decode_eq_ok_iff.mpr ⟨(BitVec.add_left_inj _).mp hcut, hi⟩

theorem encode_of_decode {c : Word} {i : Instr} (h : decode c = .ok i) : encode i = c := by
  obtain ⟨hrow, hi⟩ := decode_eq_ok_iff.mp h
  rw [encode_eq_row_add, ← hrow, ← and_not_row hi, and_add_and_not]

theorem wf_of_decode {c : Word} {i : Instr} (h : decode c = .ok i) : i.wf = true :=
  (decode_eq_ok_iff.mp h).2 ▸ i.withOperandsOf_wf c

end Sys2Proof

namespace Sys2Proof.Machine

open Spec

section
variable {s : State} {c : Word} {rest : List Event} (hn : s.pending = commandEvent c :: rest)
include hn

theorem step_runCommand : step s = runCommand c { s with pending := rest } := by
  rw [step_pending hn, serve_commandEvent]

theorem step_illegalOp (hd : decode c = .error .illegalOp) :
    step s = .next (cmdError { s with pending := rest } 1#3 c) := by
  rw [step_runCommand hn, ← raiseCmdError_eq_cmdError]
  simp only [runCommand, hd, State.illegalOp]

theorem step_reservedBits (hd : decode c = .error .reservedBits) :
    step s = .next (cmdError { s with pending := rest } 2#3 c) := by
  rw [step_runCommand hn, ← raiseCmdError_eq_cmdError]
  simp only [runCommand, hd, State.reservedBits]

end

end Sys2Proof.Machine

namespace Sys2Proof.Proofs

open Machine Spec

/-- Settles O2: the word matches the row of the command, and each of its fields holds the operand put there. -/
theorem decodeOfEncodeIsTheCommand : Obligations.DecodeOfEncodeIsTheCommand :=
  fun _ h => decode_encode h

/-- Settles O3: the row fixes the bits of the word outside the operands, and the rest are the operands. -/
theorem acceptedWordIsTheEncoding : Obligations.AcceptedWordIsTheEncoding :=
  fun _ _ h => ⟨wf_of_decode h, encode_of_decode h⟩

/-- Settles O4: the rows of the table are those of the commands, and a word that matches one is accepted as
that command with the operands of the word. -/
theorem acceptedExactlyByTheTable : Obligations.AcceptedExactlyByTheTable := by
  intro c
  constructor
  · rintro ⟨i, h⟩
    exact ⟨i.row, Instr.mem_opcodeRows_iff.mpr ⟨i, rfl⟩, (decode_eq_ok_iff.mp h).1⟩
  · rintro ⟨r, hr, hmatch⟩
    obtain ⟨i, rfl⟩ := Instr.mem_opcodeRows_iff.mp hr
    exact ⟨i.withOperandsOf c, decode_eq_ok_iff.mpr ⟨by simpa using hmatch, by simp⟩⟩

/-- Settles O6: an opcode of no row is no command's, so the decoder answers `illegalOp`. -/
theorem undefinedOpcodeIsRejected : Obligations.UndefinedOpcodeIsRejected := by
  intro s c rest hn hundef
  refine step_illegalOp hn (decode_of_undefined fun i hop => ?_)
  exact hundef i.row (Instr.mem_opcodeRows_iff.mpr ⟨i, rfl⟩) (Instr.opByte_eq_row_iff.mpr hop)

/-- Settles O7: the opcode selects the command of the row, whose format the bit set is reserved in. -/
theorem reservedBitsAreRejected : Obligations.ReservedBitsAreRejected := by
  intro s c rest r hn hr hop hset
  obtain ⟨i, rfl⟩ := Instr.mem_opcodeRows_iff.mp hr
  have hres : reservedBitSet i.format c = true := by
    rwa [← Bool.not_eq_false, reservedBitSet_eq_false_iff]
  refine step_reservedBits hn ?_
  rw [decode_of_opcode (Instr.opByte_eq_row_iff.mp hop), hres, if_pos rfl]

/-- Settles O1: an accepted word listed is the word of a well-formed command, which `decode_encode` reads back;
the decoder evaluates the rejected ones. -/
theorem listedWordsEncodeAndDecode : Obligations.ListedWordsEncodeAndDecode := by
  refine ⟨fun p hp => ?_, by decide, by decide, by decide, by decide⟩
  obtain ⟨hw, he⟩ : p.1.wf = true ∧ encode p.1 = p.2 := by
    revert p
    decide
  exact ⟨he, he ▸ decode_encode hw⟩

end Sys2Proof.Proofs
end

section
/-! What a command that fills buffers leaves in them and outside them, on top of `exec_cases` and `fillAll`; from it
the invariant of the accumulator's tail (40_stft.md R136) and the commands whose results are one formula per element
(R115, R123, R127, R200). -/

namespace Sys2Proof.Machine

open Spec

/-! ## Elements and bytes after several fills -/

section
variable {s : State} {fs : List (Buf × (Nat → Word))}

/-- A buffer filled once holds what it was filled with. -/
theorem State.elem_fillAll_of_mem (hc : s.cfg.wf) (hnd : (fs.map Prod.fst).Nodup) {b : Buf} {f : Nat → Word}
    (hf : (b, f) ∈ fs) {i : Nat} (hi : i < b.len s.cfg) : (s.fillAll fs).elem b i = f i := by
  induction fs generalizing s with
  | nil => cases hf
  | cons g fs ih =>
    rw [List.map_cons, List.nodup_cons] at hnd
    obtain ⟨hg, hnd⟩ := hnd
    rcases List.mem_cons.mp hf with rfl | hf
    · calc (s.fillAll ((b, f) :: fs)).elem b i
          = (s.fillBuf b f).elem b i := State.elem_fillAll_other (s := s.fillBuf b f) hc hg hi
        _ = f i := State.elem_fillBuf_same s b f hi
    · exact ih (s := s.fillBuf g.1 g.2) hc hnd hf hi

/-- What every command that only fills buffers leaves as it was. -/
theorem State.fillAll_frame {bs : List Buf} (hfs : fs.map Prod.fst = bs) :
    s.fillAll fs = { s with mem := (s.fillAll fs).mem } ∧ sameOutside bs s (s.fillAll fs) :=
  ⟨State.fillAll_eq, fun _ hx => State.readByte_fillAll_outside (hfs.symm ▸ hx)⟩

end

/-! ## The buffers each command fills -/

section
variable (s : State)

/-- Buffers set to +0.0 (R115, R200). -/
def State.clearAll (bs : List Buf) : State := s.fillAll (bs.map (·, fun _ => F32.posZero))

theorem exec_stftInit :
    exec .stftInit s = .next (s.clearAll Instr.stftInit.writes) := by
  simp only [exec, execStftInit, State.clearAll, State.fillAll, Instr.writes, List.map, List.foldl]

theorem exec_ppInit :
    exec .ppInit s = .next (s.clearAll Instr.ppInit.writes) := rfl

theorem exec_stftAnalyze : exec .stftAnalyze s = .next (s.fillAll [(.anaBuf, shiftedFrame s),
    (.specRe, fun k => (forward s.cfg (windowedFrame s) k).1),
    (.specIm, fun k => (forward s.cfg (windowedFrame s) k).2)]) := rfl

theorem exec_stftMag : exec .stftMag s = .next (s.fillAll [(.mag, binMagnitude s)]) := rfl

theorem exec_stftLogmag : exec .stftLogmag s = .next (s.fillAll
    [(.logmag, fun k => F32.mul s.lmScale (F32.log10 (F32.add (s.elem .mag k) eps)))]) := rfl

theorem exec_stftMask (sel : MaskSource) : exec (.stftMask sel) s = .next (s.fillAll
    [(.specRe, fun k => F32.mul (s.maskGain sel k) (s.elem .specRe k)),
      (.specIm, fun k => F32.mul (s.maskGain sel k) (s.elem .specIm k))]) := rfl

theorem exec_ppRun : exec .ppRun s = .next (s.fillAll [(.gainState, postGain s)]) := (rfl)

/-- SYN_ACC after STFT_SYNTH: the sums shifted left by R, with zeros behind (R134). -/
def shiftedSum (n : Nat) : Word :=
  if n < s.cfg.n - s.cfg.r then (overlapAdd s).getD (n + s.cfg.r) F32.posZero else F32.posZero

theorem exec_stftSynth : exec .stftSynth s = .next (s.fillAll
    [(.outBuf, fun i => (overlapAdd s).getD i F32.posZero), (.synAcc, shiftedSum s)]) := rfl

end

@[simp] theorem State.clearAll_cfg (s : State) (bs : List Buf) : (s.clearAll bs).cfg = s.cfg := State.fillAll_cfg

theorem State.elem_clearAll {s : State} (hc : s.cfg.wf) {bs : List Buf} (hnd : bs.Nodup) {b : Buf} (hb : b ∈ bs)
    {i : Nat} (hi : i < b.len s.cfg) : (s.clearAll bs).elem b i = F32.posZero := by
  have hfst : (bs.map ((·, fun _ => F32.posZero) : Buf → Buf × (Nat → Word))).map Prod.fst = bs := by
    simp [Function.comp_def]
  exact State.elem_fillAll_of_mem (f := fun _ => F32.posZero) hc (hfst.symm ▸ hnd)
    (List.mem_map_of_mem (f := (·, fun _ => F32.posZero)) hb) hi

theorem State.clearAll_frame (s : State) (bs : List Buf) :
    s.clearAll bs = { s with mem := (s.clearAll bs).mem } ∧ sameOutside bs s (s.clearAll bs) :=
  State.fillAll_frame (by simp [Function.comp_def])

/-! ## The tail of the accumulator (R136) -/

/-- The tail reads the configuration and the memory only. -/
theorem State.synTailZero_congr {s t : State} (h : s.synTailZero) (hcfg : t.cfg = s.cfg) (hmem : t.mem = s.mem) :
    t.synTailZero := by
  simpa only [State.synTailZero, State.elem, hcfg, hmem] using h

/-- Memory that lists nothing reads as +0.0. -/
theorem State.elem_of_mem_nil {s : State} (h : s.mem = []) (b : Buf) (i : Nat) : s.elem b i = F32.posZero := by
  rw [State.elem, h, Memory.readWord]
  simp only [Memory.readByte]
  decide

theorem State.synTailZero_of_mem_nil {s : State} (h : s.mem = []) : s.synTailZero :=
  fun _ _ _ => State.elem_of_mem_nil h _ _

/-- A command writes no SYN_ACC, or clears it, or refills its tail with zeros. -/
theorem exec_synTailZero {i : Instr} {s t : State} (hc : s.cfg.wf) (h : s.synTailZero)
    (hx : exec i s = .next t) : t.synTailZero := by
  by_cases hw : Buf.synAcc ∈ i.writes
  · have hi : i = .stftInit ∨ i = .stftSynth := by
      cases i <;> simp [Instr.writes] at hw <;> simp
    rcases hi with rfl | rfl
    · obtain rfl := Host.Outcome.next.inj ((exec_stftInit s).symm.trans hx)
      intro n hn _
      rw [State.clearAll_cfg] at hn
      exact State.elem_clearAll hc (by decide) hw hn
    · obtain rfl := Host.Outcome.next.inj ((exec_stftSynth s).symm.trans hx)
      intro n hn htail
      rw [State.fillAll_cfg] at hn htail
      rw [State.elem_fillAll_of_mem hc (by simp) (f := shiftedSum s) (by simp) hn, shiftedSum,
        if_neg (by omega)]
  · obtain ⟨fs, a, r, hfs, hx'⟩ := exec_cases i s
    cases hx.symm.trans hx'
    intro n hn htail
    simp only [State.fillAll_cfg] at hn htail
    exact (State.elem_fillAll_other hc (hfs.symm ▸ hw) hn).trans (h n hn htail)

theorem State.busRead_mem (s : State) (addr : BitVec 16) (size : AccessSize) :
    (s.busRead addr size).mem = s.mem := by
  unfold State.busRead
  split
  · rfl
  · exact State.raiseCmdError_mem ..

/-- A host write that stores to no element of SYN_ACC leaves its tail alone. -/
theorem State.writeLoc_synTailZero {s : State} (hc : s.cfg.wf) (h : s.synTailZero) {addr : BitVec 16} {v : Word}
    (ha : admitted addr .word = true) (hst : (Event.write addr .word v).storesTo s.cfg .synAcc = false) :
    (s.writeLoc (locate s.cfg addr) v).synTailZero := by
  rcases s.writeLoc_mem addr v with hm | ⟨b, i, hi, hl, hw⟩
  · exact State.synTailZero_congr h (State.writeLoc_cfg ..) hm
  · have hb : b ≠ .synAcc := by simpa [Event.storesTo, ha, hl] using hst
    rw [hw]
    exact fun n hn htail => (State.elem_setElem_other hc hb.symm hi hn v).trans (h n hn htail)

theorem step_synTailZero {s t : State} (hc : s.cfg.wf)
    (hst : ∀ e ∈ s.pending.head?, e.storesTo s.cfg .synAcc = false) (hs : step s = .next t)
    (h : s.synTailZero) : t.synTailZero := by
  rcases step_cases hs with ⟨-, rfl⟩ | ⟨e, rest, hp, hcase⟩
  · exact h
  have h' : ({ s with pending := rest } : State).synTailZero := State.synTailZero_congr h rfl rfl
  rcases hcase with ⟨addr, size, -, rfl⟩ | ⟨addr, size, v, -, -, rfl⟩ | ⟨v, i, -, -, he⟩ | ⟨v, -, -, rfl⟩ |
    ⟨v, -, -, rfl⟩ | ⟨addr, v, rfl, ha, -, rfl⟩ | ⟨-, rfl⟩
  · exact State.synTailZero_congr h' (State.busRead_cfg ..) (State.busRead_mem ..)
  · exact State.synTailZero_congr h' (State.raiseCmdError_cfg ..) (State.raiseCmdError_mem ..)
  · exact exec_synTailZero (s := { s with pending := rest }) hc h' he
  · exact State.synTailZero_congr h' (State.raiseCmdError_cfg ..) (State.raiseCmdError_mem ..)
  · exact State.synTailZero_congr h' (State.raiseCmdError_cfg ..) (State.raiseCmdError_mem ..)
  · have hst' := hst (.write addr .word v) (by simp [hp])
    exact State.writeLoc_synTailZero (s := { s with pending := rest }) hc h' ha hst'
  · exact State.synTailZero_of_mem_nil rfl

end Sys2Proof.Machine

namespace Sys2Proof.Proofs

open Machine Machine.F32 Spec

/-- Settles O24: by the kinds of step that `step_cases` lists; of the commands only STFT_INIT and STFT_SYNTH write
SYN_ACC. -/
theorem accumulatorTailStaysZero : Obligations.AccumulatorTailStaysZero :=
  ⟨fun _ => State.synTailZero_of_mem_nil rfl, fun _ _ hc hst hs h => step_synTailZero hc hst hs h⟩

/-- Settles O29: each of the two commands fills the buffers it writes with +0.0. -/
theorem initCommandsClearTheirBuffers : Obligations.InitCommandsClearTheirBuffers := by
  rintro i s hc (rfl | rfl)
  · obtain ⟨hregs, hout⟩ := s.clearAll_frame Instr.stftInit.writes
    exact ⟨_, exec_stftInit s, hregs, fun b hb k hk => State.elem_clearAll hc (by decide) hb hk, hout⟩
  · obtain ⟨hregs, hout⟩ := s.clearAll_frame Instr.ppInit.writes
    exact ⟨_, exec_ppInit s, hregs, fun b hb k hk => State.elem_clearAll hc (by decide) hb hk, hout⟩

/-- Settles O35: MAG is filled with `binMagnitude`, whose test for an interior bin fails at both edges. -/
theorem magIsTheSquaredMagnitude : Obligations.MagIsTheSquaredMagnitude := by
  intro s hc
  obtain ⟨hregs, hout⟩ := State.fillAll_frame (s := s) (fs := [(.mag, binMagnitude s)]) rfl
  refine ⟨_, exec_stftMag s, hregs, fun k hk => ?_, hout⟩
  rw [State.elem_fillAll_of_mem hc (by simp) (List.mem_singleton.mpr rfl) hk, binMagnitude]
  exact ⟨fun hin => if_pos hin, fun hedge => if_neg (by omega)⟩

/-- Settles O38: both parts of the spectrum are filled with the products by the gain that SEL selects. -/
theorem maskMultipliesEveryBin : Obligations.MaskMultipliesEveryBin := by
  intro s sel hc
  have hgain : ∀ k, s.maskGain sel k = if sel = .gainState then s.elem .gainState k else s.elem .gainIn k := by
    intro k
    cases sel <;> rfl
  refine ⟨_, exec_stftMask s sel, State.fillAll_eq, fun k hk => ?_, (State.fillAll_frame (by rfl)).2⟩
  rw [← hgain]
  exact ⟨State.elem_fillAll_of_mem hc (by simp) (List.mem_cons_self ..) hk,
    State.elem_fillAll_of_mem hc (by simp) (List.mem_cons_of_mem _ (List.mem_singleton.mpr rfl)) hk⟩

end Sys2Proof.Proofs
end

section
/-! The radix-2 transform as the loops of 40_stft.md R120, in place: the blocks of a stage and the butterflies of a
block touch disjoint elements, so each element of the array is what its own butterfly makes of the array before
the stage. -/

namespace Sys2Proof.Machine

open F32 Spec

/-! ## Loops over disjoint elements -/

/-- Step `k` of a loop of `K` steps over an array reads and writes only elements of its own. -/
structure Apart {α : Type} (own : Nat → Nat → Prop) (step : Nat → List α → List α) (K : Nat) : Prop where
  disjoint : ∀ {k k' p}, k < K → k' < K → own k p → own k' p → k = k'
  frame : ∀ {k p}, k < K → ¬own k p → ∀ A, (step k A)[p]? = A[p]?
  reads : ∀ {k A A'}, k < K → (∀ p, own k p → A'[p]? = A[p]?) → ∀ p, own k p → (step k A')[p]? = (step k A)[p]?

section
variable {α : Type} {own : Nat → Nat → Prop} {step : Nat → List α → List α} {K : Nat}

/-- The loop itself, over an array in place. -/
def loop (step : Nat → List α → List α) (K : Nat) (A : List α) : List α :=
  (List.range K).foldl (fun A k => step k A) A

theorem loop_succ (A : List α) : loop step (K + 1) A = step K (loop step K A) := by
  simp [loop, List.range_succ]

theorem length_loop (h : ∀ k A, (step k A).length = A.length) (A : List α) : (loop step K A).length = A.length := by
  induction K with
  | zero => rfl
  | succ K ih => rw [loop_succ, h, ih]

theorem Apart.of_succ (h : Apart own step (K + 1)) : Apart own step K where
  disjoint hk hk' := h.disjoint (by omega) (by omega)
  frame hk := h.frame (by omega)
  reads hk := h.reads (by omega)

/-- An element of no step is left alone. -/
theorem Apart.loop_of_not_own (h : Apart own step K) {p : Nat} (hp : ∀ k < K, ¬own k p) (A : List α) :
    (loop step K A)[p]? = A[p]? := by
  induction K with
  | zero => rfl
  | succ K ih =>
    rw [loop_succ, h.frame (Nat.lt_succ_self K) (hp K (Nat.lt_succ_self K)), ih h.of_succ fun k hk => hp k (by omega)]

/-- An element of step `k` becomes what step `k` alone makes of the array before the loop. -/
theorem Apart.loop_of_own (h : Apart own step K) {k p : Nat} (hk : k < K) (hp : own k p) (A : List α) :
    (loop step K A)[p]? = (step k A)[p]? := by
  induction K with
  | zero => omega
  | succ K ih =>
    rw [loop_succ]
    by_cases hkK : k = K
    · subst hkK
      refine h.reads hk (fun p' hp' => h.of_succ.loop_of_not_own (fun k' hk' hown => ?_) A) p hp
      exact hk'.ne (h.disjoint (by omega) hk hown hp')
    · rw [h.frame (Nat.lt_succ_self K) fun hown => hkK (h.disjoint hk (Nat.lt_succ_self K) hp hown),
        ih h.of_succ (by omega)]

/-- A loop over a block, as one step of a loop over blocks: it reads and writes what its own steps do. -/
theorem Apart.loop_congr (h : Apart own step K) {A A' : List α}
    (hA : ∀ k < K, ∀ p, own k p → A'[p]? = A[p]?) {p : Nat} (hp : A'[p]? = A[p]?) :
    (loop step K A')[p]? = (loop step K A)[p]? := by
  by_cases hown : ∃ k < K, own k p
  · obtain ⟨k, hk, hkp⟩ := hown
    rw [h.loop_of_own hk hkp, h.loop_of_own hk hkp]
    exact h.reads hk (hA k hk) p hkp
  · have hnone : ∀ k < K, ¬own k p := fun k hk hkp => hown ⟨k, hk, hkp⟩
    rw [h.loop_of_not_own hnone, h.loop_of_not_own hnone, hp]

end

/-! ## One butterfly -/

section
variable (tw : Nat → Cplx) (n m : Nat) {h b j : Nat} {A : List Cplx}

theorem butterfly_eq : butterfly tw n m h b j A =
    (A.set (b + j) (cplxAdd (A.getD (b + j) (posZero, posZero))
      (twist (tw (j * (n / m))) (A.getD (b + j + h) (posZero, posZero))))).set (b + j + h)
      (cplxSub (A.getD (b + j) (posZero, posZero))
        (twist (tw (j * (n / m))) (A.getD (b + j + h) (posZero, posZero)))) := rfl

theorem length_butterfly : (butterfly tw n m h b j A).length = A.length := by simp [butterfly_eq]

/-- The two elements of a butterfly. -/
def pairOf (h b j p : Nat) : Prop := p = b + j ∨ p = b + j + h

theorem butterfly_frame {p : Nat} (hp : ¬pairOf h b j p) (A : List Cplx) :
    (butterfly tw n m h b j A)[p]? = A[p]? := by
  simp only [pairOf, not_or] at hp
  obtain ⟨hlo, hhi⟩ := hp
  rw [butterfly_eq, List.getElem?_set_ne (Ne.symm hhi), List.getElem?_set_ne (Ne.symm hlo)]

theorem butterfly_congr {A' : List Cplx} (hA : ∀ p, pairOf h b j p → A'[p]? = A[p]?) {p : Nat}
    (hp : A'[p]? = A[p]?) : (butterfly tw n m h b j A')[p]? = (butterfly tw n m h b j A)[p]? := by
  have hlo := hA (b + j) (.inl rfl)
  have hhi := hA (b + j + h) (.inr rfl)
  simp only [butterfly_eq, List.getD_eq_getElem?_getD, hlo, hhi, List.getElem?_set', hp]

variable (hA : b + j + h < A.length)
include hA

theorem butterfly_low (hh : 0 < h) : (butterfly tw n m h b j A)[b + j]? =
    some (cplxAdd (A.getD (b + j) (posZero, posZero))
      (twist (tw (j * (n / m))) (A.getD (b + j + h) (posZero, posZero)))) := by
  rw [butterfly_eq, List.getElem?_set_ne (by omega), List.getElem?_set_self (by omega)]

theorem butterfly_high : (butterfly tw n m h b j A)[b + j + h]? =
    some (cplxSub (A.getD (b + j) (posZero, posZero))
      (twist (tw (j * (n / m))) (A.getD (b + j + h) (posZero, posZero)))) := by
  rw [butterfly_eq, List.getElem?_set_self (by simpa using hA)]

end

/-! ## One block, and one stage -/

section
variable (tw : Nat → Cplx) (n h : Nat)

/-- The loop over the butterflies of block `q`. -/
def loopBlock (q : Nat) (A : List Cplx) : List Cplx :=
  loop (fun j A => butterfly tw n (2 * h) h (q * (2 * h)) j A) h A

theorem loopStage_eq_loop (s : Nat) (A : List Cplx) :
    loopStage tw n (s + 1) A = loop (loopBlock tw n (2 ^ s)) (n / (2 * 2 ^ s)) A := by
  have hm : 2 ^ (s + 1) = 2 * 2 ^ s := by rw [pow_succ, Nat.mul_comm]
  have hh : 2 * 2 ^ s / 2 = 2 ^ s := by omega
  simp only [loopStage, hm, hh]
  rfl

theorem length_loopBlocks (K : Nat) (A : List Cplx) : (loop (loopBlock tw n h) K A).length = A.length :=
  length_loop (fun _ A => length_loop (fun _ _ => length_butterfly ..) A) A

theorem length_loopStage (s : Nat) (A : List Cplx) : (loopStage tw n (s + 1) A).length = A.length := by
  rw [loopStage_eq_loop, length_loopBlocks]

theorem butterflies_apart (b : Nat) : Apart (pairOf h b) (fun j A => butterfly tw n (2 * h) h b j A) h where
  disjoint hk hk' hp hp' := by
    simp only [pairOf] at hp hp'
    omega
  frame _ hp A := butterfly_frame tw n (2 * h) hp A
  reads _ hA p hp := butterfly_congr tw n (2 * h) hA (hA p hp)

variable {h}

/-- The elements of block `q` are those with quotient `q`. -/
theorem div_of_pairOf {q j p : Nat} (hj : j < h) (hp : pairOf h (q * (2 * h)) j p) : p / (2 * h) = q := by
  refine Nat.div_eq_of_lt_le ?_ ?_
  · rcases hp with rfl | rfl <;> omega
  · rw [Nat.succ_mul]
    rcases hp with rfl | rfl <;> omega

theorem blocks_apart (K : Nat) : Apart (fun q p => p / (2 * h) = q) (loopBlock tw n h) K where
  disjoint _ _ hp hp' := hp.symm.trans hp'
  frame _ hp A :=
    (butterflies_apart tw n h _).loop_of_not_own (fun _ hj hown => hp (div_of_pairOf hj hown)) A
  reads _ hA p hp :=
    (butterflies_apart tw n h _).loop_congr (fun _ hj p' hown => hA p' (div_of_pairOf hj hown)) (hA p hp)

variable {q j : Nat} {A : List Cplx} (hq : q < n / (2 * h)) (hj : j < h)
include hq hj

/-- An element of a stage is what its butterfly makes of it. -/
theorem loopBlocks_of_pair {p : Nat} (hp : pairOf h (q * (2 * h)) j p) :
    (loop (loopBlock tw n h) (n / (2 * h)) A)[p]? = (butterfly tw n (2 * h) h (q * (2 * h)) j A)[p]? :=
  ((blocks_apart tw n _).loop_of_own hq (div_of_pairOf hj hp) A).trans
    ((butterflies_apart tw n h _).loop_of_own hj hp A)

end

/-! ## The list form of a stage -/

theorem getElem?_flatMap_range {α : Type} {f : Nat → List α} {m K : Nat} (hf : ∀ q < K, (f q).length = m) :
    ((List.range K).flatMap f).length = K * m ∧
      ∀ q < K, ∀ o < m, ((List.range K).flatMap f)[q * m + o]? = (f q)[o]? := by
  induction K with
  | zero => simp
  | succ K ih =>
    obtain ⟨hlen, hget⟩ := ih fun q hq => hf q (by omega)
    have hK := hf K (Nat.lt_succ_self K)
    rw [List.range_succ, List.flatMap_append, List.flatMap_singleton]
    refine ⟨by rw [List.length_append, hlen, hK, Nat.succ_mul], fun q hq o ho => ?_⟩
    rcases Nat.lt_or_ge q K with hlt | hge
    · have : (q + 1) * m ≤ K * m := Nat.mul_le_mul_right _ hlt
      rw [Nat.succ_mul] at this
      rw [List.getElem?_append_left (by omega), hget q hlt o ho]
    · obtain rfl : q = K := by omega
      rw [List.getElem?_append_right (by omega), hlen, Nat.add_sub_cancel_left]

section
variable {w lo hi : List Cplx} {h j : Nat} (hw : w.length = h) (hlo : lo.length = h) (hhi : hi.length = h) (hj : j < h)
include hw hlo hhi

theorem length_butterflies : (butterflies w lo hi).length = 2 * h := by
  simp only [butterflies, List.length_append, List.length_zipWith, hw, hlo, hhi]
  omega

include hj

theorem butterflies_low : (butterflies w lo hi)[j]? =
    some (cplxAdd (lo.getD j (posZero, posZero))
      (twist (w.getD j (posZero, posZero)) (hi.getD j (posZero, posZero)))) := by
  subst hlo
  rw [butterflies, List.getElem?_append_left (by simp [hw, hhi, hj])]
  simp [hw, hhi, hj]

theorem butterflies_high : (butterflies w lo hi)[j + h]? =
    some (cplxSub (lo.getD j (posZero, posZero))
      (twist (w.getD j (posZero, posZero)) (hi.getD j (posZero, posZero)))) := by
  subst hlo
  rw [butterflies, List.getElem?_append_right (by simp [hw, hhi])]
  simp [hw, hhi, hj]

end

theorem getD_take_drop {A : List Cplx} {a h j : Nat} (hj : j < h) (d : Cplx) :
    ((A.drop a).take h).getD j d = A.getD (a + j) d := by
  simp [List.getD_eq_getElem?_getD, hj]

section
variable (tw : Nat → Cplx) (n h : Nat)

/-- Block `q` of a stage in the list form. -/
def listBlock (q : Nat) (A : List Cplx) : List Cplx :=
  butterflies ((List.range h).map fun j => tw (j * (n / (2 * h)))) ((A.drop (q * (2 * h))).take h)
    ((A.drop (q * (2 * h) + h)).take h)

theorem stage_eq_flatMap (s : Nat) (A : List Cplx) :
    stage tw n (s + 1) A = (List.range (n / (2 * 2 ^ s))).flatMap fun q => listBlock tw n (2 ^ s) q A := by
  have hm : 2 ^ (s + 1) = 2 * 2 ^ s := by rw [pow_succ, Nat.mul_comm]
  simp only [stage, Nat.add_sub_cancel, hm]
  rfl

variable {h} {q : Nat} {A : List Cplx} (hA : q * (2 * h) + 2 * h ≤ A.length)
include hA

theorem length_halves :
    ((A.drop (q * (2 * h))).take h).length = h ∧ ((A.drop (q * (2 * h) + h)).take h).length = h := by
  simp only [List.length_take, List.length_drop]
  omega

theorem length_listBlock : (listBlock tw n h q A).length = 2 * h :=
  length_butterflies (by simp) (length_halves hA).1 (length_halves hA).2

/-- A block of the list form holds what its butterflies make of the array. -/
theorem listBlock_eq_butterfly {o : Nat} (ho : o < 2 * h) :
    ∃ j < h, pairOf h (q * (2 * h)) j (q * (2 * h) + o) ∧ (listBlock tw n h q A)[o]? =
      (butterfly tw n (2 * h) h (q * (2 * h)) j A)[q * (2 * h) + o]? := by
  obtain ⟨hlo, hhi⟩ := length_halves hA
  have hw : ∀ j < h, ((List.range h).map fun j => tw (j * (n / (2 * h)))).getD j (posZero, posZero) =
      tw (j * (n / (2 * h))) := fun j hj => by simp [List.getD_eq_getElem?_getD, hj]
  rcases Nat.lt_or_ge o h with hlow | hhigh
  · refine ⟨o, hlow, .inl rfl, ?_⟩
    rw [listBlock, butterflies_low (by simp) hlo hhi hlow, hw o hlow, getD_take_drop hlow, getD_take_drop hlow,
      Nat.add_right_comm, butterfly_low tw n _ (by omega) (by omega)]
  · obtain ⟨j, rfl⟩ : ∃ j, o = j + h := ⟨o - h, by omega⟩
    have hj : j < h := by omega
    refine ⟨j, hj, .inr (Nat.add_assoc ..).symm, ?_⟩
    rw [listBlock, butterflies_high (by simp) hlo hhi hj, hw j hj, getD_take_drop hj, getD_take_drop hj,
      Nat.add_right_comm, ← Nat.add_assoc, butterfly_high tw n _ (by omega)]

end

/-! ## Loops and lists -/

/-- The blocks of a stage in both forms, where they fill the array. -/
theorem loopBlocks_eq_listBlocks (tw : Nat → Cplx) {n h : Nat} (hh : 0 < h) (hdiv : n / (2 * h) * (2 * h) = n)
    {A : List Cplx} (hA : A.length = n) : loop (loopBlock tw n h) (n / (2 * h)) A =
      (List.range (n / (2 * h))).flatMap fun q => listBlock tw n h q A := by
  have hbound : ∀ q < n / (2 * h), q * (2 * h) + 2 * h ≤ A.length := fun q hq => by
    have h1 : (q + 1) * (2 * h) ≤ n / (2 * h) * (2 * h) := Nat.mul_le_mul_right _ hq
    rw [Nat.succ_mul] at h1
    omega
  obtain ⟨hlen, hget⟩ := getElem?_flatMap_range fun q hq => length_listBlock tw n (hbound q hq)
  apply List.ext_getElem?
  intro p
  rcases Nat.lt_or_ge p n with hp | hp
  · have hq : p / (2 * h) < n / (2 * h) := Nat.div_lt_div_of_lt_of_dvd ⟨_, by rw [Nat.mul_comm, hdiv]⟩ hp
    have ho : p % (2 * h) < 2 * h := Nat.mod_lt _ (by omega)
    have hpq : p / (2 * h) * (2 * h) + p % (2 * h) = p := Nat.div_add_mod' p (2 * h)
    obtain ⟨j, hj, hpair, heq⟩ := listBlock_eq_butterfly tw n (hbound _ hq) ho
    rw [← hpq, loopBlocks_of_pair tw n hq hj hpair, hget _ hq _ ho, heq]
  · rw [List.getElem?_eq_none (by rw [length_loopBlocks]; omega), List.getElem?_eq_none (by omega)]

/-- The two forms of a stage, on an array of its length. -/
theorem loopStage_eq_stage (tw : Nat → Cplx) {l s : Nat} (hs : s < l) {A : List Cplx} (hA : A.length = 2 ^ l) :
    loopStage tw (2 ^ l) (s + 1) A = stage tw (2 ^ l) (s + 1) A := by
  have hdvd : 2 * 2 ^ s ∣ 2 ^ l := by
    rw [Nat.mul_comm, ← pow_succ]
    exact Nat.pow_dvd_pow 2 hs
  rw [loopStage_eq_loop, stage_eq_flatMap]
  exact loopBlocks_eq_listBlocks tw (Nat.two_pow_pos s) (Nat.div_mul_cancel hdvd) hA

/-- The whole transform, stage after stage on an array of the same length. -/
theorem loopRadix2_eq_radix2 (tw : Nat → Cplx) (l : Nat) (x : Nat → Cplx) :
    loopRadix2 tw l x = radix2 tw (2 ^ l) x := by
  simp only [loopRadix2, radix2, Nat.log2_two_pow]
  set A := (List.range (2 ^ l)).map fun j => x (bitrev l j) with hAdef
  have key : ∀ K ≤ l, (List.range K).foldl (fun A s => loopStage tw (2 ^ l) (s + 1) A) A =
        (List.range K).foldl (fun a s => stage tw (2 ^ l) (s + 1) a) A ∧
      ((List.range K).foldl (fun A s => loopStage tw (2 ^ l) (s + 1) A) A).length = 2 ^ l := by
    intro K hK
    induction K with
    | zero => simp [A]
    | succ K ih =>
      obtain ⟨heq, hlen⟩ := ih (by omega)
      simp only [List.range_succ, List.foldl_append, List.foldl_cons, List.foldl_nil]
      exact ⟨by rw [loopStage_eq_stage tw hK hlen, heq], by rw [length_loopStage, hlen]⟩
  exact (key l le_rfl).1

/-- Bit reversal, bit by bit: the lowest bit of `j` comes out highest. -/
theorem testBit_bitrev {l j i : Nat} (hi : i < l) : (bitrev l j).testBit i = j.testBit (l - 1 - i) := by
  induction l generalizing j i with
  | zero => omega
  | succ l ih =>
    rw [bitrev, Nat.mul_comm, Nat.testBit_two_pow_mul_add _ (bitrev_lt l _)]
    split
    case isTrue h =>
      rw [ih h, Nat.testBit_div_two, show l - 1 - i + 1 = l + 1 - 1 - i by omega]
    case isFalse h =>
      obtain rfl : i = l := by omega
      rw [Nat.sub_self, Nat.add_sub_cancel, Nat.sub_self, Nat.testBit_zero, Nat.testBit_zero, Nat.mod_mod]

end Sys2Proof.Machine

namespace Sys2Proof.Proofs

open Machine

/-- Settles O33: the butterflies of a stage are apart, so the loops and the list form make the same array of it. -/
theorem radixTwoIsTheInPlaceLoop : Obligations.RadixTwoIsTheInPlaceLoop :=
  ⟨fun tw l x => loopRadix2_eq_radix2 tw l x, fun _ _ _ hi => testBit_bitrev hi⟩

end Sys2Proof.Proofs
end

section
/-! RN32 of a real is one pattern (00_scope.md R13), so the sine of a part of a turn is the same pattern wherever the
exact sine is the same: the symmetries of the window (40_stft.md R113). -/

namespace Sys2Proof.Machine.F32

open Spec

/-- Two magnitudes as near are neighbours of one real, and both even: then they are one, for there would be an odd
magnitude between them and nearer. -/
theorem not_lt_of_isNearestReal {m m' : Nat} {x : ℝ} (h : IsNearestReal m x) (h' : IsNearestReal m' x) : ¬m < m' := by
  intro hlt
  unfold IsNearestReal at h h'
  split at h
  next hover =>
    rw [if_pos hover] at h'
    omega
  next hover =>
    rw [if_neg hover] at h'
    obtain ⟨hm, hnear⟩ := h
    obtain ⟨hm', hnear'⟩ := h'
    have heq := (hnear m' hm').1.antisymm (hnear' m hm).1
    have heven := (hnear m' hm').2 heq hlt.ne'
    have heven' := (hnear' m hm).2 heq.symm hlt.ne
    have hbetween := (hnear (m + 1) (by omega)).1
    have h1 : (unitsOf m : ℝ) < unitsOf (m + 1) := by exact_mod_cast unitsOf_lt_unitsOf (by omega) (by omega)
    have h2 : (unitsOf (m + 1) : ℝ) < unitsOf m' := by exact_mod_cast unitsOf_lt_unitsOf (by omega) hm'.le
    have hmid : (unitsOf m + unitsOf m' : ℝ) = 2 * x := by
      rcases abs_eq_abs.mp heq with e | e <;> linarith
    rw [abs_of_neg (by linarith)] at hbetween
    rcases abs_choice ((unitsOf (m + 1) : ℝ) - x) with e | e <;> linarith

theorem isRN32_unique {w w' : Word} {x : ℝ} (h : IsRN32 w x) (h' : IsRN32 w' x) : w = w' := by
  unfold IsRN32 at h h'
  split at h
  next h0 =>
    rw [if_pos h0] at h'
    rw [h, h']
  next h0 =>
    rw [if_neg h0] at h'
    obtain ⟨hs, hn⟩ := h
    obtain ⟨hs', hn'⟩ := h'
    have hmag := Nat.lt_trichotomy (magBits w) (magBits w')
    exact eq_of_sign_of_magBits (Bool.eq_iff_iff.mpr (hs.trans hs'.symm))
      ((hmag.resolve_left (not_lt_of_isNearestReal hn hn')).resolve_right (not_lt_of_isNearestReal hn' hn))

/-- Reals well below the overflow threshold round to finite patterns. -/
theorem finite_of_isRN32 {w : Word} {x : ℝ} (h : IsRN32 w x) (hx : |x| ≤ 2 ^ 64) : finite w := by
  unfold IsRN32 at h
  split at h
  · rw [h, finite]
    decide
  · obtain ⟨-, hn⟩ := h
    rw [IsNearestReal, if_neg (by norm_num; linarith)] at hn
    exact hn.1

theorem sinPi_eq_of_sin_eq {p q p' q' : ℕ} (hq : 0 < q) (hq' : 0 < q')
    (h : Real.sin (Real.pi * p / q) = Real.sin (Real.pi * p' / q')) : sinPi p q = sinPi p' q' :=
  isRN32_unique (sinPi_isRN32 p hq) (h ▸ sinPi_isRN32 p' hq')

/-- A part of a turn in lowest terms. -/
theorem sinPi_mul_mul {k q : ℕ} (p : ℕ) (hk : 0 < k) (hq : 0 < q) : sinPi (k * p) (k * q) = sinPi p q := by
  refine sinPi_eq_of_sin_eq (Nat.mul_pos hk hq) hq ?_
  have hk' : (k : ℝ) ≠ 0 := by exact_mod_cast hk.ne'
  congr 1
  push_cast
  field_simp

theorem sinPi_sub {p q : ℕ} (hq : 0 < q) (hp : p ≤ q) : sinPi (q - p) q = sinPi p q := by
  refine sinPi_eq_of_sin_eq hq hq ?_
  have hq' : (q : ℝ) ≠ 0 := by exact_mod_cast hq.ne'
  rw [← Real.sin_pi_sub (Real.pi * p / q), Nat.cast_sub hp]
  congr 1
  field_simp

/-! ## Sines and twiddle factors are finite -/

theorem finite_sinPi (p : ℕ) {q : ℕ} (hq : 0 < q) : finite (sinPi p q) :=
  finite_of_isRN32 (sinPi_isRN32 p hq) ((Real.abs_sin_le_one _).trans (by norm_num))

theorem finite_cosPi (p : ℕ) {q : ℕ} (hq : 0 < q) : finite (cosPi p q) :=
  finite_sinPi _ (show 0 < 2 * q by omega)

theorem finite_posZero : finite posZero := by
  rw [finite]
  decide

theorem finite_window {c : Config} (hc : c.wf) (n : ℕ) : finite (window c n) := by
  obtain ⟨-, hn, -⟩ := hc
  exact finite_sinPi n (by omega)

theorem finite_twiddleForward {n : ℕ} (hn : 0 < n) (q : ℕ) :
    finite (twiddleForward n q).1 ∧ finite (twiddleForward n q).2 := by
  refine ⟨finite_cosPi _ hn, ?_⟩
  rw [twiddleForward]
  dsimp only
  split
  · exact finite_posZero
  · exact finite_neg (finite_sinPi _ hn)

theorem finite_twiddleInverse {n : ℕ} (hn : 0 < n) (q : ℕ) :
    finite (twiddleInverse n q).1 ∧ finite (twiddleInverse n q).2 :=
  ⟨finite_cosPi _ hn, finite_sinPi _ hn⟩

/-! ## The window (R113) -/

theorem window_zero {c : Config} (hn : 0 < c.n) : window c 0 = posZero :=
  isRN32_unique (sinPi_isRN32 0 hn) (by simpa using isRN32_posZero)

theorem window_symm {c : Config} {n : ℕ} (hn : 0 < c.n) (h : n ≤ c.n) : window c n = window c (c.n - n) :=
  (sinPi_sub hn h).symm

/-- The window at a fixed part of its length. -/
theorem window_div {c : Config} {d : ℕ} (hn : 0 < c.n) (hd : 0 < d) (h : c.n % d = 0) :
    window c (c.n / d) = sinPi 1 d := by
  obtain ⟨m, hm⟩ := Nat.dvd_of_mod_eq_zero h
  have hpos : 0 < m := Nat.pos_of_ne_zero (by rintro rfl; simp [hm] at hn)
  rw [window, hm, Nat.mul_div_cancel_left m hd, Nat.mul_comm d m]
  simpa using sinPi_mul_mul 1 hpos hd

end Sys2Proof.Machine.F32

namespace Sys2Proof.Proofs

open Machine Machine.F32

/-- Settles O34: the window is a sine, whose symmetries its rounding keeps; the listed values are evaluated. -/
theorem windowFacts : Obligations.WindowFacts := by
  have hlist : ∀ (c : Config) (n : ℕ), c.n = n → window c = fun i => sinPi i n := by
    rintro c n rfl
    rfl
  refine ⟨fun c hc => ?_, fun c hc => ?_, fun c hc => ?_⟩
  · obtain ⟨heven, hn, -⟩ := hc
    have hpos : 0 < c.n := by omega
    refine ⟨window_zero hpos, ?_, fun n _ h => window_symm hpos (by omega), fun h4 => ?_⟩
    · rw [window_div hpos two_pos heven]
      decide +kernel
    · rw [window_div hpos four_pos h4]
      decide +kernel
  · rw [hlist c 4 hc]
    decide +kernel
  · rw [hlist c 8 hc]
    decide +kernel

end Sys2Proof.Proofs
end

section
/-! The transforms as 40_stft.md writes them (R120, R128 to R130), and the two commands that use them: STFT_ANALYZE
(R121, R122) and STFT_SYNTH (R131 to R134). -/

namespace Sys2Proof.Machine

open F32 Spec

/-! ## The reference transforms -/

theorem isPow2_iff {n : Nat} : isPow2 n = true ↔ ∃ l, n = 2 ^ l := by
  rw [isPow2, beq_iff_eq]
  constructor
  · intro h
    exact ⟨_, h.symm⟩
  · rintro ⟨l, rfl⟩
    rw [Nat.log2_two_pow]

theorem length_loopRadix2 (tw : Nat → Cplx) (l : Nat) (x : Nat → Cplx) : (loopRadix2 tw l x).length = 2 ^ l := by
  refine List.foldlRecOn (motive := fun A : List Cplx => A.length = 2 ^ l) _ _ (by simp) fun A hA s _ => ?_
  rw [length_loopStage, hA]

theorem zipIdx_map_range {α : Type} (x : Nat → α) (n : Nat) :
    ((List.range n).map x).zipIdx = (List.range n).map fun i => (x i, i) := by
  apply List.ext_getElem <;> simp

/-- The table of twiddle factors, read at an index modulo its length. -/
theorem getD_twiddles {n : Nat} (hn : 0 < n) (tw : Nat → Cplx) (i : Nat) (d : Cplx) :
    ((List.range n).map tw).getD (i % ((List.range n).map tw).length) d = tw (i % n) := by
  simp [List.getD_eq_getElem?_getD, Nat.mod_lt i hn]

theorem directForward_eq {n : Nat} (hn : 0 < n) (tw : Nat → Cplx) (x : Nat → Word) (k : Nat) :
    directForward ((List.range n).map tw) ((List.range n).map x) k = (List.range n).foldl
      (fun sum i => (add sum.1 (mul (x i) (tw (k * i % n)).1), add sum.2 (mul (x i) (tw (k * i % n)).2)))
      (posZero, posZero) := by
  rw [directForward, zipIdx_map_range, List.foldl_map]
  simp only [getD_twiddles hn]

theorem directInverse_eq {n : Nat} (hn : 0 < n) (tw z : Nat → Cplx) (i : Nat) :
    directInverse ((List.range n).map tw) ((List.range n).map z) i = (List.range n).foldl
      (fun sum k => add sum (sub (mul (z k).1 (tw (k * i % n)).1) (mul (z k).2 (tw (k * i % n)).2))) posZero := by
  rw [directInverse, zipIdx_map_range, List.foldl_map]
  simp only [getD_twiddles hn]

/-- A length is a power of two in one way only, so the loops have one result. -/
theorem loopRadix2_getElem {tw x : Nat → Cplx} {n l k : Nat} (hl : n = 2 ^ l) (hk : k < n) :
    ∀ l', n = 2 ^ l' → (loopRadix2 tw l' x)[k]? = some ((radix2 tw n x).getD k (posZero, posZero)) := by
  rintro l' hl'
  obtain rfl : l' = l := Nat.pow_right_injective le_rfl (hl'.symm.trans hl)
  rw [hl, ← loopRadix2_eq_radix2, List.getD_eq_getElem _ _ (by rw [length_loopRadix2]; omega)]
  exact List.getElem?_eq_getElem _

section
variable {c : Config} (hn : 0 < c.n)
include hn

/-- The model's forward transform is R120's, scaled by HALF. -/
theorem referenceForward_isReferenceBin (x : Nat → Word) {k : Nat} (hk : k < c.k) (hkn : k < c.n) :
    ∃ a, IsReferenceBin c.n x k a ∧
      (referenceForward c ((List.range c.n).map x)).getD k (posZero, posZero) = (mul half a.1, mul half a.2) := by
  cases hp : isPow2 c.n with
  | true =>
    obtain ⟨l, hl⟩ := isPow2_iff.mp hp
    have hlen : k < (radix2 (twiddleForward c.n) c.n fun j => (x j, posZero)).length := by
      rw [hl, ← loopRadix2_eq_radix2, length_loopRadix2]
      omega
    have hx : radix2 (twiddleForward c.n) c.n (fun j => (((List.range c.n).map x).getD j posZero, posZero)) =
        radix2 (twiddleForward c.n) c.n fun j => (x j, posZero) :=
      radix2_congr hp fun j hj => by simp [List.getD_eq_getElem?_getD, hj]
    refine ⟨_, ⟨loopRadix2_getElem hl hkn, fun hnot => absurd hl (hnot l)⟩, ?_⟩
    rw [referenceForward]
    dsimp only
    rw [if_pos hp, hx, List.getD_eq_getElem _ _ (by simpa using hlen), List.getD_eq_getElem _ _ hlen,
      List.getElem_map]
  | false =>
    have hnot : ∀ l, c.n ≠ 2 ^ l := fun l hl => by simp [isPow2_iff.mpr ⟨l, hl⟩] at hp
    refine ⟨_, ⟨fun l hl => absurd hl (hnot l), fun _ => rfl⟩, ?_⟩
    rw [referenceForward]
    dsimp only
    rw [if_neg (by simp [hp]), List.getD_eq_getElem _ _ (by simpa using hk), List.getElem_map, List.getElem_range,
      directForward_eq hn]

/-- The model's inverse transform is that of R129 and R130. -/
theorem referenceInverse_isReferenceSample (z : Nat → Cplx) {i : Nat} (hi : i < c.n) :
    IsReferenceSample c.n z i ((referenceInverse c z).getD i posZero) := by
  cases hp : isPow2 c.n with
  | true =>
    obtain ⟨l, hl⟩ := isPow2_iff.mp hp
    have hfst : (referenceInverse c z).getD i posZero =
        ((radix2 (twiddleInverse c.n) c.n z).getD i (posZero, posZero)).1 := by
      rw [referenceInverse, if_pos hp]
      exact List.getD_map _ (posZero, posZero) Prod.fst
    rw [hfst]
    exact ⟨fun l' hl' => ⟨_, loopRadix2_getElem hl hi l' hl'⟩, fun hnot => absurd hl (hnot l)⟩
  | false =>
    have hnot : ∀ l, c.n ≠ 2 ^ l := fun l hl => by simp [isPow2_iff.mpr ⟨l, hl⟩] at hp
    refine ⟨fun l hl => absurd hl (hnot l), fun _ => ?_⟩
    rw [referenceInverse, if_neg (by simp [hp])]
    dsimp only
    rw [List.getD_eq_getElem _ _ (by simpa using hi), List.getElem_map, List.getElem_range, directInverse_eq hn]

end

theorem clearEdges_eq (c : Config) (spec : Nat → Cplx) (k : Nat) :
    clearEdges c spec k = ((spec k).1, if k = 0 ∨ k = c.n / 2 then posZero else (spec k).2) := rfl

theorem forward_of_ref {c : Config} (h : c.fftImpl = .ref) (xw : List Word) (k : Nat) :
    forward c xw k = clearEdges c (fun k => (referenceForward c xw).getD k (posZero, posZero)) k := by
  rw [forward, h]

theorem forward_of_impl {c : Config} (h : c.fftImpl = .impl) (xw : List Word) (k : Nat) :
    forward c xw k = clearEdges c (implForward c xw) k := by
  rw [forward, h]

/-- Whatever the transform, the edges are cleared (R119 (b)). -/
theorem forward_edge (c : Config) (xw : List Word) {k : Nat} (h : k = 0 ∨ k = c.n / 2) :
    (forward c xw k).2 = posZero := by
  cases hf : c.fftImpl with
  | ref => rw [forward_of_ref hf, clearEdges_eq, if_pos h]
  | impl => rw [forward_of_impl hf, clearEdges_eq, if_pos h]

theorem inverse_of_ref {c : Config} (h : c.fftImpl = .ref) (spec : Nat → Cplx) (n : Nat) :
    inverse c spec n = (referenceInverse c (hermitian c spec)).getD n posZero := by
  rw [inverse, h]

theorem inverse_of_impl {c : Config} (h : c.fftImpl = .impl) (spec : Nat → Cplx) (n : Nat) :
    inverse c spec n = implInverse c ((List.range c.n).map (hermitian c spec)) n := by
  rw [inverse, h]

/-! ## STFT_ANALYZE -/

/-- What STFT_ANALYZE leaves in the buffers it writes, and that it changes nothing else. -/
theorem exec_stftAnalyze_spec {s : State} (hc : s.cfg.wf) : ∃ t, exec .stftAnalyze s = .next t ∧
    t = { s with mem := t.mem } ∧ sameOutside [.anaBuf, .specRe, .specIm] s t ∧
    (∀ n < s.cfg.n, t.elem .anaBuf n = shiftedFrame s n) ∧
    ∀ k < s.cfg.k, (t.elem .specRe k, t.elem .specIm k) = forward s.cfg (windowedFrame s) k := by
  refine ⟨_, exec_stftAnalyze s, State.fillAll_eq, (State.fillAll_frame (by rfl)).2, fun n hn => ?_,
    fun k hk => Prod.ext ?_ ?_⟩
  · exact State.elem_fillAll_of_mem hc (by simp) (List.mem_cons_self ..) hn
  · exact State.elem_fillAll_of_mem hc (by simp) (List.mem_cons_of_mem _ (List.mem_cons_self ..)) hk
  · exact State.elem_fillAll_of_mem hc (by simp)
      (List.mem_cons_of_mem _ (List.mem_cons_of_mem _ (List.mem_cons_self ..))) hk

/-- The windowed frame, from the buffer that STFT_ANALYZE leaves. -/
theorem windowedFrame_eq {s t : State} (h : ∀ n < s.cfg.n, t.elem .anaBuf n = shiftedFrame s n) :
    windowedFrame s = (List.range s.cfg.n).map fun n => mul (t.elem .anaBuf n) (window s.cfg n) :=
  List.map_congr_left fun n hn => by rw [h n (List.mem_range.mp hn)]

theorem shiftedFrame_low {s : State} {n : Nat} (h : n < s.cfg.n - s.cfg.r) :
    shiftedFrame s n = s.elem .anaBuf (n + s.cfg.r) := if_pos h

theorem shiftedFrame_high (s : State) (i : Nat) :
    shiftedFrame s (s.cfg.n - s.cfg.r + i) = s.elem .inBuf i := by
  rw [shiftedFrame, if_neg (by omega), Nat.add_sub_cancel_left]

/-- One hop of the stream: ANA_BUF shifts by R and takes in the hop (R122). -/
theorem hopState_succ {s : State} {x : Nat → Word} {t : Nat} (hc : s.cfg.wf) (hcfg : (hopState s x t).cfg = s.cfg) :
    (hopState s x (t + 1)).cfg = s.cfg ∧
    (∀ p < s.cfg.n - s.cfg.r, (hopState s x (t + 1)).elem .anaBuf p = (hopState s x t).elem .anaBuf (p + s.cfg.r)) ∧
    ∀ i < s.cfg.r, (hopState s x (t + 1)).elem .anaBuf (s.cfg.n - s.cfg.r + i) = x (t * s.cfg.r + i) := by
  rw [hopState]
  generalize hopState s x t = u at hcfg
  have hc' : u.cfg.wf := hcfg.symm ▸ hc
  rw [← hcfg] at hc ⊢
  obtain ⟨-, -, -, -, hrn⟩ := hc
  have hold : ∀ p < u.cfg.n, (u.fillBuf .inBuf fun i => x (t * u.cfg.r + i)).elem .anaBuf p = u.elem .anaBuf p :=
    fun p hp => State.elem_fillBuf_other hc' (by decide) _ hp
  have hnew : ∀ i < u.cfg.r, (u.fillBuf .inBuf fun i => x (t * u.cfg.r + i)).elem .inBuf i = x (t * u.cfg.r + i) :=
    fun i hi => State.elem_fillBuf_same u .inBuf _ hi
  have hcfg' : (u.fillBuf .inBuf fun i => x (t * u.cfg.r + i)).cfg = u.cfg := rfl
  generalize u.fillBuf .inBuf (fun i => x (t * u.cfg.r + i)) = u' at hold hnew hcfg' ⊢
  obtain ⟨v, hx, -, -, hana, -⟩ := exec_stftAnalyze_spec (hcfg'.symm ▸ hc')
  simp only [hx]
  rw [← hcfg'] at hrn hold hnew ⊢
  refine ⟨exec_cfg hx, fun p hp => ?_, fun i hi => ?_⟩
  · rw [hana p (by omega), shiftedFrame_low hp, hold _ (by omega)]
  · rw [hana _ (by omega), shiftedFrame_high, hnew i hi]

theorem hopState_cfg {s : State} (x : Nat → Word) (hc : s.cfg.wf) (t : Nat) : (hopState s x t).cfg = s.cfg := by
  induction t with
  | zero => rfl
  | succ t ih => exact (hopState_succ hc ih).1

/-! ## STFT_SYNTH -/

/-- What STFT_SYNTH leaves in the buffers it writes, and that it changes nothing else. -/
theorem exec_stftSynth_spec {s : State} (hc : s.cfg.wf) : ∃ t, exec .stftSynth s = .next t ∧
    t = { s with mem := t.mem } ∧ sameElems [.specRe, .specIm] s t ∧ sameOutside [.outBuf, .synAcc] s t ∧
    (∀ i < s.cfg.r, t.elem .outBuf i = (overlapAdd s).getD i posZero) ∧
    ∀ n < s.cfg.n, t.elem .synAcc n = shiftedSum s n := by
  refine ⟨_, exec_stftSynth s, State.fillAll_eq, fun b hb i hi => ?_, (State.fillAll_frame (by rfl)).2,
    fun i hi => ?_, fun n hn => ?_⟩
  · simp only [List.mem_cons, List.not_mem_nil, or_false] at hb
    refine State.elem_fillAll_other hc ?_ hi
    rcases hb with rfl | rfl <;> simp
  · exact State.elem_fillAll_of_mem hc (by simp) (List.mem_cons_self ..) hi
  · exact State.elem_fillAll_of_mem hc (by simp) (List.mem_cons_of_mem _ (List.mem_cons_self ..)) hn

theorem getD_overlapAdd (s : State) {n : Nat} (hn : n < s.cfg.n) : (overlapAdd s).getD n posZero =
    add (s.elem .synAcc n) (mul (mul (inverse s.cfg s.spectrum n) (window s.cfg n)) (invN s.cfg)) := by
  simp [overlapAdd, List.getD_eq_getElem?_getD, hn]

/-- The statements' Hermitian spectrum is the model's (R128). -/
theorem hermitian_spectrum (s : State) : hermitian s.cfg s.spectrum = fullSpectrum s := rfl

/-- The inverse transform reads the Hermitian spectrum alone. -/
theorem inverse_congr_hermitian {c : Config} {spec spec' : Nat → Cplx}
    (h : ∀ j < c.n, hermitian c spec' j = hermitian c spec j) : inverse c spec' = inverse c spec := by
  have hlist : (List.range c.n).map (hermitian c spec') = (List.range c.n).map (hermitian c spec) :=
    List.map_congr_left fun j hj => h j (List.mem_range.mp hj)
  have href : referenceInverse c (hermitian c spec') = referenceInverse c (hermitian c spec) := by
    unfold referenceInverse
    split
    case isTrue hpow => rw [radix2_congr hpow h]
    case isFalse => simp only [hlist]
  simp only [inverse, href, hlist]

/-- The imaginary parts of bins 0 and N/2 are in no Hermitian spectrum (R128). -/
theorem hermitian_of_edges {c : Config} (heven : c.n % 2 = 0) {spec spec' : Nat → Cplx}
    (hre : ∀ k < c.k, (spec' k).1 = (spec k).1)
    (him : ∀ k < c.k, k ≠ 0 → k ≠ c.n / 2 → (spec' k).2 = (spec k).2) {j : Nat} (hj : j < c.n) :
    hermitian c spec' j = hermitian c spec j := by
  simp only [Config.k] at hre him
  unfold hermitian
  split
  case isTrue hedge => rw [hre j (by omega)]
  case isFalse hedge =>
    split
    case isTrue hlow => exact Prod.ext (hre j (by omega)) (him j (by omega) (by omega) (by omega))
    case isFalse hhigh => rw [hre (c.n - j) (by omega), him (c.n - j) (by omega) (by omega) (by omega)]

theorem overlapAdd_of_edges {s s' : State} (hcfg : s'.cfg = s.cfg) (heven : s.cfg.n % 2 = 0)
    (hother : ∀ b ≠ Buf.specIm, ∀ i < b.len s.cfg, s'.elem b i = s.elem b i)
    (him : ∀ k < s.cfg.k, k ≠ 0 → k ≠ s.cfg.n / 2 → s'.elem .specIm k = s.elem .specIm k) :
    overlapAdd s' = overlapAdd s := by
  have hinv : inverse s.cfg s'.spectrum = inverse s.cfg s.spectrum := inverse_congr_hermitian fun j hj =>
    hermitian_of_edges heven (fun k hk => hother .specRe (by decide) k hk) him hj
  simp only [overlapAdd, hcfg, hinv]
  exact List.map_congr_left fun n hn => by rw [hother .synAcc (by decide) n (List.mem_range.mp hn)]

end Sys2Proof.Machine

namespace Sys2Proof.Proofs

open Machine Machine.F32 Spec

/-- Settles O30: what `exec_stftAnalyze_spec` says the buffers hold, and R120's algorithm for the reference
transform, its radix-2 half by `loopRadix2_eq_radix2`. -/
theorem analyzeShiftsWindowsAndTransforms : Obligations.AnalyzeShiftsWindowsAndTransforms := by
  intro s hc
  obtain ⟨t, hx, hregs, hout, hana, hspec⟩ := exec_stftAnalyze_spec hc
  rw [windowedFrame_eq hana] at hspec
  obtain ⟨-, hn, -, -, hrn⟩ := hc
  refine ⟨t, hx, hregs, fun n hn => ?_, fun i hi => ?_, hspec, fun href k hk => ?_, hout⟩
  · rw [hana n (by omega), shiftedFrame_low hn]
  · rw [hana _ (by omega), shiftedFrame_high]
  · obtain ⟨a, ha, hbin⟩ := referenceForward_isReferenceBin (c := s.cfg) (by omega)
      (fun n => mul (t.elem .anaBuf n) (window s.cfg n)) hk (by rw [Config.k] at hk; omega)
    have h := hspec k hk
    rw [forward_of_ref href, clearEdges_eq, hbin] at h
    obtain ⟨hre, him⟩ := Prod.ext_iff.mp h
    exact ⟨a, ha, hre, him⟩

/-- Settles O31, by induction on the hops: a sample of the shifted part was there R places later one hop before. -/
theorem ringBufferHoldsTheNewestSamples : Obligations.RingBufferHoldsTheNewestSamples := by
  intro s x hc h0 t
  obtain ⟨-, -, -, -, hrn⟩ := id hc
  induction t with
  | zero =>
    intro p hp
    rw [Nat.zero_mul, Nat.zero_add, if_pos hp]
    exact h0 p hp
  | succ t ih =>
    intro p hp
    obtain ⟨-, hold, hnew⟩ := hopState_succ (x := x) (t := t) hc (hopState_cfg x hc t)
    rw [Nat.succ_mul, Nat.add_assoc, Nat.add_comm s.cfg.r p]
    rcases Nat.lt_or_ge p (s.cfg.n - s.cfg.r) with hlow | hhigh
    · rw [hold p hlow, ih _ (by omega)]
    · obtain ⟨i, rfl⟩ := Nat.exists_eq_add_of_le hhigh
      rw [hnew i (by omega), if_neg (by omega)]
      congr 1
      omega

/-- Settles O39: what `exec_stftSynth_spec` says the buffers hold, element by element, and R129 and R130 for the
reference transform. -/
theorem synthOverlapsAddsAndShifts : Obligations.SynthOverlapsAddsAndShifts := by
  intro s hc
  obtain ⟨t, hx, hregs, hspec, hout, houtBuf, hacc⟩ := exec_stftSynth_spec hc
  obtain ⟨-, hn, -, -, hrn⟩ := hc
  refine ⟨t, hx, hregs, ⟨fun href n hn => ?_, fun i hi => ?_, fun n hlow => ?_, fun n hn htail => ?_⟩, hspec, hout⟩
  · have h := referenceInverse_isReferenceSample (c := s.cfg) (by omega) (fullSpectrum s) hn
    rwa [← hermitian_spectrum, ← inverse_of_ref href] at h
  · rw [houtBuf i hi, getD_overlapAdd s (by omega)]
    rfl
  · rw [hacc n (by omega), shiftedSum, if_pos hlow, getD_overlapAdd s (by omega)]
    rfl
  · rw [hacc n hn, shiftedSum, if_neg (by omega)]

/-- Settles O40: the two states differ in nothing that the Hermitian spectrum or the accumulator reads. -/
theorem synthIgnoresTheEdgeImaginaries : Obligations.SynthIgnoresTheEdgeImaginaries := by
  intro s v w hc
  have hlen : s.cfg.n / 2 < Buf.specIm.len s.cfg := by simp only [Buf.len, Config.k]; omega
  have hother : ∀ b ≠ Buf.specIm, ∀ i < b.len s.cfg,
      ((s.setElem .specIm 0 v).setElem .specIm (s.cfg.n / 2) w).elem b i = s.elem b i := fun b hb i hi =>
    (State.elem_setElem_other (s := s.setElem .specIm 0 v) hc hb hlen hi w).trans
      (State.elem_setElem_other hc hb (Buf.len_pos hc _) hi v)
  have him : ∀ k < s.cfg.k, k ≠ 0 → k ≠ s.cfg.n / 2 →
      ((s.setElem .specIm 0 v).setElem .specIm (s.cfg.n / 2) w).elem .specIm k = s.elem .specIm k :=
    fun k _ h0 hN => (State.elem_setElem_ne _ _ hN w).trans (State.elem_setElem_ne _ _ h0 v)
  have hcfg : ((s.setElem .specIm 0 v).setElem .specIm (s.cfg.n / 2) w).cfg = s.cfg := rfl
  generalize (s.setElem .specIm 0 v).setElem .specIm (s.cfg.n / 2) w = s' at hother him hcfg ⊢
  have hsum : overlapAdd s' = overlapAdd s := overlapAdd_of_edges hcfg hc.1 hother him
  obtain ⟨t, hx, -, -, -, hout, hacc⟩ := exec_stftSynth_spec hc
  obtain ⟨t', hx', -, -, -, hout', hacc'⟩ := exec_stftSynth_spec (hcfg.symm ▸ hc)
  rw [hcfg] at hout' hacc'
  refine ⟨t, t', hx, hx', fun b hb i hi => ?_⟩
  rw [exec_cfg hx] at hi
  simp only [List.mem_cons, List.not_mem_nil, or_false] at hb
  rcases hb with rfl | rfl
  · rw [hout i hi, hout' i hi, hsum]
  · rw [hacc i hi, hacc' i hi, shiftedSum, shiftedSum, hsum, hcfg]

end Sys2Proof.Proofs
end

section
/-! Binary32 where the STFT commands meet its corners: zeros under finite factors, results that stay finite, and
magnitudes that are not negative (40_stft.md R119, R123, R125, R137). -/

namespace Sys2Proof.Machine.F32

open Spec

/-! ## Zeros -/

section
variable {a b : Word}

theorem magBits_of_isZero (h : isZero a = true) : magBits a = 0 := of_decide_eq_true h

theorem isZero_posZero : isZero posZero = true := by decide

theorem finite_of_isZero (h : isZero a = true) : finite a := by
  rw [finite, magBits_of_isZero h]
  decide

theorem units_of_isZero (h : isZero a = true) : units a = 0 :=
  (units_subnormal (by rw [magBits_of_isZero h]; decide)).trans (magBits_of_isZero h)

theorem eq_posZero_or_negZero (h : isZero a = true) : a = posZero ∨ a = negZero := by
  have hm := magBits_of_isZero h
  cases hs : sign a with
  | false => exact .inl (eq_of_sign_of_magBits hs hm)
  | true => exact .inr (eq_of_sign_of_magBits hs hm)

theorem isZero_zeroOf (a : Word) : isZero (zeroOf a) = true := by
  rw [isZero, magBits_eq_and, zeroOf, BitVec.and_assoc]
  simp

theorem roundMag_zero (d : Nat) : roundMag 0 d = 0 := by simp [roundMag, divNearest]

theorem isZero_mul (ha : finite a) (hb : finite b) (h : isZero a = true ∨ isZero b = true) :
    isZero (mul a b) = true := by
  have hu : units a * units b = 0 := by
    rcases h with h | h <;> simp [units_of_isZero h]
  rw [isZero, mul_of_finite ha hb, hu, magBits_pack_roundMag, roundMag_zero]
  rfl

theorem isZero_mul_left (ha : isZero a = true) (hb : finite b) : isZero (mul a b) = true :=
  isZero_mul (finite_of_isZero ha) hb (.inl ha)

theorem isZero_mul_right (ha : finite a) (hb : isZero b = true) : isZero (mul a b) = true :=
  isZero_mul ha (finite_of_isZero hb) (.inr hb)

theorem isZero_add (ha : isZero a = true) (hb : isZero b = true) : isZero (add a b) = true :=
  decide_eq_true (sign_magBits_add_zero (finite_of_isZero ha) (finite_of_isZero hb)
    (by rw [value_of_isZero ha, value_of_isZero hb, add_zero])).1

theorem isZero_sub (ha : isZero a = true) (hb : isZero b = true) : isZero (sub a b) = true :=
  isZero_add ha ((isZero_neg b).trans hb)

end

/-! ## Finite results -/

/-- A ratio below the overflow threshold rounds to a finite magnitude. -/
theorem lt_infBits_of_isNearest {m n d : Nat} (h : IsNearest m n d) (hn : n < (2 ^ 25 - 1) * 2 ^ 252 * d) :
    m < infBits := by
  rw [IsNearest, if_neg (by omega)] at h
  exact h.1

theorem units_eq_unitsOf (a : Word) : units a = unitsOf (magBits a) := by
  have : magBits (BitVec.ofNat 32 (magBits a)) = magBits a := magBits_ofNat (magBits_lt a)
  simp only [unitsOf, units, this]

theorem units_le_of_finite {a : Word} (h : finite a) : units a ≤ (2 ^ 25 - 2) * 2 ^ 252 := by
  have hlast : unitsOf (infBits - 1) = (2 ^ 25 - 2) * 2 ^ 252 := by decide +kernel
  rw [units_eq_unitsOf, ← hlast]
  have : magBits a < infBits := h
  exact unitsOf_le_unitsOf (by omega) (by omega)

theorem value_of_sign_false {a : Word} (h : sign a = false) : value a = units a := by simp [value, h]

/-- RN32 of a whole number of units from 1 on is at least as near as 1 unit is: no zero. -/
theorem pos_of_isNearest_one {m n : Nat} (h : IsNearest m n 1) (hn : 0 < n) : 0 < m := by
  rw [IsNearest] at h
  split at h
  · exact h ▸ (by decide)
  · have h1 := (h.2 1 (by decide)).1
    by_contra h0
    rw [show m = 0 by omega, show unitsOf 0 = 0 by decide, show unitsOf 1 = 1 by decide,
      abs_of_nonpos (by omega), abs_of_nonpos (by omega)] at h1
    omega

/-- A finite magnitude plus one too small to reach the overflow threshold is finite, positive and no zero. -/
theorem finite_pos_add {v e : Word} (hv : finite v) (he : finite e) (hvs : sign v = false) (hes : sign e = false)
    (hpos : 0 < units e) (hlt : units e < 2 ^ 252) : finite (add v e) ∧ 0 < value (add v e) := by
  have hle := units_le_of_finite hv
  have hsum : value v + value e = (units v + units e : Nat) := by
    rw [value_of_sign_false hvs, value_of_sign_false hes, Nat.cast_add]
  obtain ⟨hsign, hnear⟩ := sign_magBits_add hv he (by omega)
  rw [hsum, Int.natAbs_natCast] at hnear
  have hs : sign (add v e) = false := hsign.trans (decide_eq_false (by omega))
  have hm := pos_of_isNearest_one hnear (by omega)
  refine ⟨lt_infBits_of_isNearest hnear (by omega), ?_⟩
  rw [value_of_sign_false hs]
  exact Int.natCast_pos.mpr (units_pos (decide_eq_false hm.ne'))

theorem eps_facts : finite eps ∧ sign eps = false ∧ 0 < units eps ∧ units eps < 2 ^ 252 := by
  unfold finite
  decide +kernel

/-- The operand of LOG10 in STFT_LOGMAG (R125). -/
theorem add_eps {v : Word} (hv : finite v) (hs : sign v = false) :
    finite (add v eps) ∧ 0 < value (add v eps) := by
  obtain ⟨he, hes, hpos, hlt⟩ := eps_facts
  exact finite_pos_add hv he hs hes hpos hlt

theorem finite_log10 {v : Word} (hf : finite v) (hv : 0 < value v) : finite (log10 v) := by
  obtain ⟨-, hm, he⟩ := realOf_of_pos hv
  refine finite_of_isRN32 (log10_isRN32 hf hv) ?_
  rw [he, Real.logb, abs_div, abs_of_pos (Real.log_pos (by norm_num : (1 : ℝ) < 10))]
  exact (abs_log_div_log_ten_le hm (units_lt_of_finite hf)).trans (by norm_num)

/-- Whole numbers up to the longest transform are finite, and not below 1. -/
theorem ofNat_bounds {n : Nat} (h1 : 1 ≤ n) (h2 : n ≤ 1024) :
    finite (F32.ofNat n) ∧ 2 ^ 149 ≤ units (F32.ofNat n) := by
  have hnear : IsNearest (magBits (F32.ofNat n)) (n * 2 ^ 149) 1 := by
    rw [F32.ofNat, magBits_pack_roundMag]
    exact roundMag_isNearest _ one_pos
  have hlt : magBits (F32.ofNat n) < infBits := lt_infBits_of_isNearest hnear (by omega)
  refine ⟨hlt, ?_⟩
  have hone : unitsOf 0x3F800000 = 2 ^ 149 := by decide +kernel
  rw [IsNearest, if_neg (by omega)] at hnear
  have h := (hnear.2 0x3F800000 (by decide)).1
  rw [← units_eq_unitsOf, hone] at h
  by_contra hlow
  rw [abs_of_nonpos (by omega), abs_of_nonpos (by omega)] at h
  omega

/-- `INVN` (R111) is finite. -/
theorem finite_invN {c : Config} (hc : c.wf) : finite (invN c) := by
  obtain ⟨-, hn, hmax, -⟩ := hc
  obtain ⟨hf, hge⟩ := ofNat_bounds (show 1 ≤ c.n by omega) hmax
  have hone : finite one ∧ units one = 2 ^ 149 := by
    unfold finite
    decide +kernel
  have hz : isZero (F32.ofNat c.n) = false := by
    rw [← Bool.not_eq_true]
    intro h
    rw [units_of_isZero h] at hge
    omega
  obtain ⟨-, hnear⟩ := sign_magBits_div hone.1 hf hz
  rw [hone.2] at hnear
  exact lt_infBits_of_isNearest hnear (by omega)

/-! ## Magnitudes (R123) -/

/-- No NaN, and no sign: +0.0, a positive value or +Inf. -/
def NonNeg (a : Word) : Prop := sign a = false ∧ isNaN a = false

section
variable {a b : Word}

theorem NonNeg.posZero : NonNeg posZero := ⟨by decide, by decide⟩

theorem NonNeg.pack_roundMag (n d : Nat) : NonNeg (pack false (roundMag n d)) :=
  ⟨sign_pack_roundMag .., isNaN_pack_roundMag ..⟩

theorem NonNeg.pack_inf : NonNeg (pack false infBits) :=
  ⟨sign_pack_inf _, by rw [isNaN, magBits_pack_inf]; decide⟩

/-- A pattern is a NaN, an infinity or finite. -/
theorem finite_of_not_isInf (hn : isNaN a = false) (hi : isInf a = false) : finite a := by
  have h1 := of_decide_eq_false hn
  have h2 := of_decide_eq_false hi
  rw [finite]
  omega

/-- Factors of one sign have no negative product, unless it is zero times infinity. -/
theorem NonNeg.mul (ha : isNaN a = false) (hb : isNaN b = false) (hs : sign a = sign b)
    (hza : isZero a = true → isInf b = false) (hzb : isZero b = true → isInf a = false) :
    NonNeg (F32.mul a b) := by
  have hsign : (sign a != sign b) = false := by rw [hs, bne_self_eq_false]
  by_cases hinf : isInf a = true ∨ isInf b = true
  · have hz : (isZero a || isZero b) = false := by
      rw [Bool.or_eq_false_iff, ← Bool.not_eq_true, ← Bool.not_eq_true]
      refine ⟨fun h => ?_, fun h => ?_⟩
      · have hb0 := hza h
        have ha0 : isInf a = true := hinf.resolve_right (by simp [hb0])
        simp [isZero_of_isInf ha0] at h
      · have ha0 := hzb h
        have hb0 : isInf b = true := hinf.resolve_left (by simp [ha0])
        simp [isZero_of_isInf hb0] at h
    rw [mul_of_isInf ha hb hinf, if_neg (by simp [hz]), hsign]
    exact NonNeg.pack_inf
  · rw [not_or, Bool.not_eq_true, Bool.not_eq_true] at hinf
    rw [mul_of_finite (finite_of_not_isInf ha hinf.1) (finite_of_not_isInf hb hinf.2), hsign]
    exact NonNeg.pack_roundMag ..

theorem NonNeg.mul_self (h : isNaN a = false) : NonNeg (F32.mul a a) := by
  have hz : isZero a = true → isInf a = false := fun h => isInf_of_finite (finite_of_isZero h)
  exact NonNeg.mul h h rfl hz hz

theorem NonNeg.add (ha : NonNeg a) (hb : NonNeg b) : NonNeg (F32.add a b) := by
  obtain ⟨hsa, hna⟩ := ha
  obtain ⟨hsb, hnb⟩ := hb
  cases hia : isInf a with
  | true =>
    rw [(add_isInf_absorbs hia hnb (.inr (hsb.trans hsa.symm))).1]
    exact ⟨hsa, hna⟩
  | false =>
    cases hib : isInf b with
    | true =>
      rw [add_isInf_right hia hna hib]
      exact ⟨hsb, hnb⟩
    | false =>
      rw [add_of_finite (finite_of_not_isInf hna hia) (finite_of_not_isInf hnb hib), value_of_sign_false hsa,
        value_of_sign_false hsb, hsa, hsb]
      split
      · exact NonNeg.posZero
      · rw [roundInt, decide_eq_false (by omega)]
        exact NonNeg.pack_roundMag ..

theorem NonNeg.mul_two (ha : NonNeg a) : NonNeg (F32.mul two a) := by
  obtain ⟨hs, hn⟩ := ha
  have htwo : sign two = false ∧ isNaN two = false ∧ isZero two = false ∧ isInf two = false := by decide
  obtain ⟨hs2, hn2, hz2, hi2⟩ := htwo
  exact NonNeg.mul hn2 hn (hs2.trans hs.symm) (fun h => by simp [hz2] at h) fun _ => hi2

theorem isNaN_qNaN : isNaN qNaN = true := by decide

theorem NonNeg.ne_qNaN (h : NonNeg a) : a ≠ qNaN := fun e => by
  have := h.2
  rw [e, isNaN_qNaN] at this
  cases this

end

end Sys2Proof.Machine.F32

namespace Sys2Proof.Machine

open F32

/-- A bin with a NaN part has the canonical NaN as its magnitude (R123). -/
theorem binMagnitude_of_isNaN {s : State} {k : Nat}
    (h : isNaN (s.elem .specRe k) = true ∨ isNaN (s.elem .specIm k) = true) : binMagnitude s k = qNaN := by
  have hp : add (mul (s.elem .specRe k) (s.elem .specRe k)) (mul (s.elem .specIm k) (s.elem .specIm k)) = qNaN := by
    apply add_of_isNaN
    rcases h with h | h
    · exact .inl (by rw [mul_of_isNaN (.inl h), isNaN_qNaN])
    · exact .inr (by rw [mul_of_isNaN (.inl h), isNaN_qNaN])
  rw [binMagnitude, hp]
  split
  · exact mul_of_isNaN (.inr isNaN_qNaN)
  · rfl

theorem binMagnitude_nonNeg {s : State} {k : Nat} (hre : isNaN (s.elem .specRe k) = false)
    (him : isNaN (s.elem .specIm k) = false) : NonNeg (binMagnitude s k) := by
  have hp := (NonNeg.mul_self hre).add (NonNeg.mul_self him)
  rw [binMagnitude]
  split
  · exact hp.mul_two
  · exact hp

end Sys2Proof.Machine

namespace Sys2Proof.Proofs

open Machine Machine.F32 Spec

/-- Settles O36: without a NaN the squares are not negative, and so are their sum and its double. -/
theorem magnitudesAreNonNegative : Obligations.MagnitudesAreNonNegative := by
  intro s hc
  refine ⟨_, exec_stftMag s, fun k hk => ?_⟩
  rw [State.elem_fillAll_of_mem hc (by simp) (List.mem_singleton.mpr rfl) hk]
  by_cases h : isNaN (s.elem .specRe k) = true ∨ isNaN (s.elem .specIm k) = true
  · have hq := binMagnitude_of_isNaN h
    exact ⟨iff_of_true hq h, fun hne => absurd hq hne⟩
  · rw [not_or, Bool.not_eq_true, Bool.not_eq_true] at h
    have hnn := binMagnitude_nonNeg h.1 h.2
    exact ⟨iff_of_false hnn.ne_qNaN (by simp [h]), fun _ => hnn⟩

/-- Settles O37: LOGMAG is filled with the formula; the corners of LOG10 are evaluated or its first cases; a
magnitude plus EPS is positive and finite, where the logarithm is RN32 of a real of at most 50. -/
theorem logmagAndItsCorners : Obligations.LogmagAndItsCorners := by
  refine ⟨fun s hc => ?_, by decide, by decide, by decide, fun v hv => ?_, by decide +kernel, fun v hv hs => ?_⟩
  · exact ⟨_, exec_stftLogmag s, State.fillAll_eq,
      fun k hk => State.elem_fillAll_of_mem hc (by simp) (List.mem_singleton.mpr rfl) hk,
      (State.fillAll_frame (by rfl)).2⟩
  · rcases hv with hn | hneg
    · exact if_pos hn
    · have hz : isZero v = false := by
        rw [← Bool.not_eq_true]
        exact fun h => by simp [value_of_isZero h] at hneg
      have hs : sign v = true := by
        rw [← Bool.not_eq_false]
        intro h
        rw [value_of_sign_false h] at hneg
        omega
      rw [log10, if_neg (by simp [hz] : ¬isZero v = true), if_pos hs, ite_self]
  · obtain ⟨hf, hpos⟩ := add_eps hv hs
    exact finite_log10 hf hpos

end Sys2Proof.Proofs
end

section
/-! Silence (40_stft.md R119 (a), R137): the transforms take zeros to zeros, whichever FFT_IMPL selects, since every
twiddle factor is finite, and so does every command on silent buffers. -/

namespace Sys2Proof.Machine

open F32 Spec

/-! ## The transforms of zeros -/

/-- Both parts are zeros, of either sign. -/
def ZeroCplx (a : Cplx) : Prop := isZero a.1 = true ∧ isZero a.2 = true

/-- Both parts are finite. -/
def FiniteCplx (a : Cplx) : Prop := finite a.1 ∧ finite a.2

theorem ZeroCplx.zero : ZeroCplx (posZero, posZero) := ⟨isZero_posZero, isZero_posZero⟩

theorem FiniteCplx.zero : FiniteCplx (posZero, posZero) := ⟨finite_posZero, finite_posZero⟩

theorem ZeroCplx.twist {w b : Cplx} (hw : FiniteCplx w) (hb : ZeroCplx b) : ZeroCplx (Machine.twist w b) :=
  ⟨isZero_sub (isZero_mul_right hw.1 hb.1) (isZero_mul_right hw.2 hb.2),
    isZero_add (isZero_mul_right hw.1 hb.2) (isZero_mul_right hw.2 hb.1)⟩

theorem ZeroCplx.add {a b : Cplx} (ha : ZeroCplx a) (hb : ZeroCplx b) : ZeroCplx (cplxAdd a b) :=
  ⟨isZero_add ha.1 hb.1, isZero_add ha.2 hb.2⟩

theorem ZeroCplx.sub {a b : Cplx} (ha : ZeroCplx a) (hb : ZeroCplx b) : ZeroCplx (cplxSub a b) :=
  ⟨isZero_sub ha.1 hb.1, isZero_sub ha.2 hb.2⟩

/-- What holds of every element of a list, and of the default, holds of what is read from it. -/
theorem getD_of_forall {α : Type} {P : α → Prop} {A : List α} {d : α} (hA : ∀ a ∈ A, P a) (hd : P d) (i : Nat) :
    P (A.getD i d) := by
  rcases Nat.lt_or_ge i A.length with h | h
  · rw [List.getD_eq_getElem _ _ h]
    exact hA _ (List.getElem_mem h)
  · rwa [List.getD_eq_default _ _ h]

theorem butterfly_zero {tw : Nat → Cplx} (htw : ∀ q, FiniteCplx (tw q)) {A : List Cplx}
    (hA : ∀ a ∈ A, ZeroCplx a) (n m h b j : Nat) : ∀ a ∈ butterfly tw n m h b j A, ZeroCplx a := by
  have hlow : ZeroCplx (A.getD (b + j) (posZero, posZero)) := getD_of_forall hA .zero _
  have ht := ZeroCplx.twist (htw (j * (n / m))) (getD_of_forall hA .zero (b + j + h))
  intro a ha
  rw [butterfly_eq] at ha
  rcases List.mem_or_eq_of_mem_set ha with ha | rfl
  · rcases List.mem_or_eq_of_mem_set ha with ha | rfl
    · exact hA a ha
    · exact hlow.add ht
  · exact hlow.sub ht

theorem radix2_zero {tw x : Nat → Cplx} {n : Nat} (hp : isPow2 n = true) (htw : ∀ q, FiniteCplx (tw q))
    (hx : ∀ j < n, ZeroCplx (x j)) : ∀ a ∈ radix2 tw n x, ZeroCplx a := by
  obtain ⟨l, rfl⟩ := isPow2_iff.mp hp
  rw [← loopRadix2_eq_radix2]
  refine List.foldlRecOn (motive := fun A : List Cplx => ∀ a ∈ A, ZeroCplx a) _ _ (fun a ha => ?_)
    fun A hA s _ => ?_
  · obtain ⟨j, -, rfl⟩ := List.mem_map.mp ha
    exact hx _ (bitrev_lt l j)
  · exact List.foldlRecOn (motive := fun A : List Cplx => ∀ a ∈ A, ZeroCplx a) _ _ hA fun A hA q _ =>
      List.foldlRecOn (motive := fun A : List Cplx => ∀ a ∈ A, ZeroCplx a) _ _ hA fun A hA j _ =>
        butterfly_zero htw hA _ _ _ _ _

theorem directForward_zero {tw : List Cplx} {xw : List Word} (htw : ∀ w ∈ tw, FiniteCplx w)
    (hx : ∀ x ∈ xw, isZero x = true) (k : Nat) : ZeroCplx (directForward tw xw k) := by
  refine List.foldlRecOn (motive := ZeroCplx) _ _ ZeroCplx.zero fun a ha x hxm => ?_
  have hx0 := hx x.1 (List.fst_mem_of_mem_zipIdx hxm)
  have hw : FiniteCplx (tw.getD (k * x.2 % tw.length) (posZero, posZero)) := getD_of_forall htw .zero _
  exact ⟨isZero_add ha.1 (isZero_mul_left hx0 hw.1), isZero_add ha.2 (isZero_mul_left hx0 hw.2)⟩

theorem directInverse_zero {tw z : List Cplx} (htw : ∀ w ∈ tw, FiniteCplx w) (hz : ∀ x ∈ z, ZeroCplx x) (n : Nat) :
    isZero (directInverse tw z n) = true := by
  refine List.foldlRecOn (motive := fun a => isZero a = true) _ _ isZero_posZero fun a ha x hxm => ?_
  have hx0 := hz x.1 (List.fst_mem_of_mem_zipIdx hxm)
  have hw : FiniteCplx (tw.getD (x.2 * n % tw.length) (posZero, posZero)) := getD_of_forall htw .zero _
  exact isZero_add ha (isZero_sub (isZero_mul_left hx0.1 hw.1) (isZero_mul_left hx0.2 hw.2))

theorem clearEdges_zero {c : Config} {spec : Nat → Cplx} {k : Nat} (h : ZeroCplx (spec k)) :
    ZeroCplx (clearEdges c spec k) := by
  rw [clearEdges_eq]
  refine ⟨h.1, ?_⟩
  dsimp only
  split
  · exact isZero_posZero
  · exact h.2

section
variable {c : Config} (hc : c.wf)
include hc

theorem finite_twiddles (q : Nat) : FiniteCplx (twiddleForward c.n q) ∧ FiniteCplx (twiddleInverse c.n q) := by
  obtain ⟨-, hn, -⟩ := hc
  exact ⟨finite_twiddleForward (by omega) q, finite_twiddleInverse (by omega) q⟩

theorem referenceForward_zero {xw : List Word} (hx : ∀ x ∈ xw, isZero x = true) :
    ∀ a ∈ referenceForward c xw, ZeroCplx a := by
  have hscale : ∀ a, ZeroCplx a → ZeroCplx (mul half a.1, mul half a.2) := fun a ha =>
    have hf : finite half := by rw [finite]; decide
    ⟨isZero_mul_right hf ha.1, isZero_mul_right hf ha.2⟩
  intro a ha
  simp only [referenceForward] at ha
  split at ha
  case isTrue hp =>
    obtain ⟨b, hb, rfl⟩ := List.mem_map.mp ha
    exact hscale b (radix2_zero hp (fun q => (finite_twiddles hc q).1)
      (fun j _ => ⟨getD_of_forall hx isZero_posZero j, isZero_posZero⟩) b hb)
  case isFalse =>
    obtain ⟨k, -, rfl⟩ := List.mem_map.mp ha
    refine hscale _ (directForward_zero (fun w hw => ?_) hx k)
    obtain ⟨q, -, rfl⟩ := List.mem_map.mp hw
    exact (finite_twiddles hc q).1

/-- R119 (a) for the forward transform. -/
theorem forward_zero {xw : List Word} (hx : ∀ x ∈ xw, isZero x = true) (k : Nat) : ZeroCplx (forward c xw k) := by
  cases hf : c.fftImpl with
  | ref =>
    rw [forward_of_ref hf]
    exact clearEdges_zero (getD_of_forall (referenceForward_zero hc hx) .zero k)
  | impl =>
    rw [forward_of_impl hf]
    refine clearEdges_zero ?_
    rw [implForward, if_pos (List.all_eq_true.mpr hx)]
    exact ⟨isZero_zeroOf _, isZero_zeroOf _⟩

variable {spec : Nat → Cplx} (h : ∀ k < c.k, ZeroCplx (spec k))
include h

theorem hermitian_zero {j : Nat} (hj : j < c.n) : ZeroCplx (hermitian c spec j) := by
  simp only [Config.k] at h
  unfold hermitian
  split
  case isTrue hedge => exact ⟨(h j (by omega)).1, isZero_posZero⟩
  case isFalse hedge =>
    split
    case isTrue hlow => exact h j (by omega)
    case isFalse hhigh =>
      obtain ⟨hre, him⟩ := h (c.n - j) (by omega)
      exact ⟨hre, (isZero_neg _).trans him⟩

theorem referenceInverse_zero : ∀ y ∈ referenceInverse c (hermitian c spec), isZero y = true := by
  intro y hy
  rw [referenceInverse] at hy
  split at hy
  case isTrue hp =>
    obtain ⟨b, hb, rfl⟩ := List.mem_map.mp hy
    exact (radix2_zero hp (fun q => (finite_twiddles hc q).2) (fun j hj => hermitian_zero hc h hj) b hb).1
  case isFalse =>
    obtain ⟨n, -, rfl⟩ := List.mem_map.mp hy
    refine directInverse_zero (fun w hw => ?_) (fun x hx => ?_) n
    · obtain ⟨q, -, rfl⟩ := List.mem_map.mp hw
      exact (finite_twiddles hc q).2
    · obtain ⟨j, hj, rfl⟩ := List.mem_map.mp hx
      exact hermitian_zero hc h (List.mem_range.mp hj)

/-- R119 (a) for the inverse transform. -/
theorem inverse_zero (n : Nat) : isZero (inverse c spec n) = true := by
  cases hf : c.fftImpl with
  | ref =>
    rw [inverse_of_ref hf]
    exact getD_of_forall (P := fun y => isZero y = true) (referenceInverse_zero hc h) isZero_posZero n
  | impl =>
    have hall : ((List.range c.n).map (hermitian c spec)).all (fun x => isZero x.1 && isZero x.2) = true := by
      refine List.all_eq_true.mpr fun x hx => ?_
      obtain ⟨j, hj, rfl⟩ := List.mem_map.mp hx
      exact Bool.and_eq_true_iff.mpr (hermitian_zero hc h (List.mem_range.mp hj))
    rw [inverse_of_impl hf, implInverse, if_pos hall]
    exact isZero_zeroOf _

end

/-! ## Silent buffers (R137) -/

/-- The buffers that hold zeros only in a silent state. -/
def silentBufs : List Buf := [.inBuf, .anaBuf, .synAcc, .specRe, .specIm, .mag, .outBuf]

section
variable {s : State} (hc : s.cfg.wf) (h : silent s)
include hc h

/-- Filling the buffers of a silent state with zeros leaves it silent; what other buffers are filled with does not
matter. -/
theorem silent_fillAll {fs : List (Buf × (Nat → Word))} (hnd : (fs.map Prod.fst).Nodup)
    (hfs : ∀ f ∈ fs, f.1 ∈ silentBufs → ∀ i < f.1.len s.cfg, isZero (f.2 i) = true) : silent (s.fillAll fs) := by
  intro b hb i hi
  rw [State.fillAll_cfg] at hi
  by_cases hmem : b ∈ fs.map Prod.fst
  · obtain ⟨⟨b, f⟩, hf, rfl⟩ := List.mem_map.mp hmem
    rw [State.elem_fillAll_of_mem hc hnd hf hi]
    exact hfs _ hf hb i hi
  · rw [State.elem_fillAll_other hc hmem hi]
    exact h b hb i hi

theorem silent_clearAll {bs : List Buf} (hnd : bs.Nodup) : silent (s.clearAll bs) := by
  refine silent_fillAll hc h (by simpa [Function.comp_def] using hnd) fun f hf _ i _ => ?_
  obtain ⟨b, -, rfl⟩ := List.mem_map.mp hf
  exact isZero_posZero

omit hc in
/-- The elements of a silent buffer, by its name. -/
theorem isZero_elem {b : Buf} (hb : b ∈ silentBufs) {i : Nat} (hi : i < b.len s.cfg) : isZero (s.elem b i) = true :=
  h b hb i hi

theorem isZero_shiftedFrame {n : Nat} (hn : n < s.cfg.n) : isZero (shiftedFrame s n) = true := by
  obtain ⟨-, -, -, hr, hrn⟩ := hc
  unfold shiftedFrame
  split
  · exact isZero_elem h (by decide) (show n + s.cfg.r < s.cfg.n by omega)
  · exact isZero_elem h (by decide) (show n - (s.cfg.n - s.cfg.r) < s.cfg.r by omega)

theorem isZero_windowedFrame : ∀ x ∈ windowedFrame s, isZero x = true := by
  intro x hx
  obtain ⟨n, hn, rfl⟩ := List.mem_map.mp hx
  exact isZero_mul_left (isZero_shiftedFrame hc h (List.mem_range.mp hn)) (finite_window hc n)

omit hc in
theorem zeroCplx_spectrum {k : Nat} (hk : k < s.cfg.k) : ZeroCplx (s.spectrum k) :=
  ⟨isZero_elem h (by decide) hk, isZero_elem h (by decide) hk⟩

omit hc in
theorem isZero_binMagnitude {k : Nat} (hk : k < s.cfg.k) : isZero (binMagnitude s k) = true := by
  obtain ⟨hre, him⟩ := zeroCplx_spectrum h hk
  have hsum := isZero_add (isZero_mul_left hre (finite_of_isZero hre)) (isZero_mul_left him (finite_of_isZero him))
  unfold binMagnitude
  dsimp only
  split
  · exact isZero_mul_right (by rw [finite]; decide) hsum
  · exact hsum

theorem isZero_overlapAdd : ∀ x ∈ overlapAdd s, isZero x = true := by
  intro x hx
  obtain ⟨n, hn, rfl⟩ := List.mem_map.mp hx
  have hy := inverse_zero hc (fun k hk => zeroCplx_spectrum h hk) n
  exact isZero_add (isZero_elem h (by decide) (List.mem_range.mp hn))
    (isZero_mul_left (isZero_mul_left hy (finite_window hc n)) (finite_invN hc))

theorem silent_stftAnalyze : ∃ t, exec .stftAnalyze s = .next t ∧ silent t := by
  have hspec := forward_zero hc (isZero_windowedFrame hc h)
  refine ⟨_, exec_stftAnalyze s, silent_fillAll hc h (by simp) ?_⟩
  simp only [List.forall_mem_cons, List.not_mem_nil, false_imp_iff, implies_true, and_true]
  exact ⟨fun _ n hn => isZero_shiftedFrame hc h hn, fun _ k _ => (hspec k).1, fun _ k _ => (hspec k).2⟩

theorem silent_stftMag : ∃ t, exec .stftMag s = .next t ∧ silent t := by
  refine ⟨_, exec_stftMag s, silent_fillAll hc h (by simp) fun f hf _ => ?_⟩
  rw [List.mem_singleton.mp hf]
  exact fun k hk => isZero_binMagnitude h hk

theorem silent_stftMask {sel : MaskSource} (hg : ∀ k < s.cfg.k, finite (s.maskGain sel k)) :
    ∃ t, exec (.stftMask sel) s = .next t ∧ silent t := by
  refine ⟨_, exec_stftMask s sel, silent_fillAll hc h (by simp) ?_⟩
  simp only [List.forall_mem_cons, List.not_mem_nil, false_imp_iff, implies_true, and_true]
  exact ⟨fun _ k hk => isZero_mul_right (hg k hk) (zeroCplx_spectrum h hk).1,
    fun _ k hk => isZero_mul_right (hg k hk) (zeroCplx_spectrum h hk).2⟩

theorem silent_stftSynth : ∃ t, exec .stftSynth s = .next t ∧ silent t := by
  have hsum : ∀ i, isZero ((overlapAdd s).getD i posZero) = true :=
    getD_of_forall (P := fun y => isZero y = true) (isZero_overlapAdd hc h) isZero_posZero
  refine ⟨_, exec_stftSynth s, silent_fillAll hc h (by simp) ?_⟩
  simp only [List.forall_mem_cons, List.not_mem_nil, false_imp_iff, implies_true, and_true]
  refine ⟨fun _ i _ => hsum i, fun _ n _ => ?_⟩
  unfold shiftedSum
  split
  · exact hsum _
  · exact isZero_posZero

theorem silent_ppRun : ∃ t, exec .ppRun s = .next t ∧ silent t := by
  refine ⟨_, exec_ppRun s, silent_fillAll hc h (by simp) fun f hf hmem => ?_⟩
  rw [List.mem_singleton.mp hf] at hmem
  exact absurd hmem (show Buf.gainState ∉ silentBufs by decide)

/-- The logarithm of a silent bin is −3.0, for a zero of either sign. -/
theorem silent_stftLogmag : ∃ t, exec .stftLogmag s = .next t ∧ silent t ∧
    ∀ k < s.cfg.k, t.elem .logmag k = mul s.lmScale 0xC0400000#32 := by
  have hlog : log10 (add posZero eps) = 0xC0400000#32 ∧ log10 (add negZero eps) = 0xC0400000#32 := by
    decide +kernel
  refine ⟨_, exec_stftLogmag s, silent_fillAll hc h (by simp) fun f hf hmem => ?_, fun k hk => ?_⟩
  · rw [List.mem_singleton.mp hf] at hmem
    exact absurd hmem (show Buf.logmag ∉ silentBufs by decide)
  · rw [State.elem_fillAll_of_mem hc (by simp) (List.mem_singleton.mpr rfl) hk]
    rcases eq_posZero_or_negZero (isZero_elem h (b := .mag) (by decide) hk) with e | e
    · rw [e, hlog.1]
    · rw [e, hlog.2]

end

end Sys2Proof.Machine

namespace Sys2Proof.Proofs

open Machine Machine.F32 Spec

/-- Settles O32: `clearEdges` comes last in either transform, and both take zeros to zeros. -/
theorem forwardTransformOfZerosAndItsEdges : Obligations.ForwardTransformOfZerosAndItsEdges := by
  intro s hc
  obtain ⟨t, hx, -, -, hana, hspec⟩ := exec_stftAnalyze_spec hc
  have him : ∀ k < s.cfg.k, t.elem .specIm k = (forward s.cfg (windowedFrame s) k).2 := fun k hk =>
    congrArg Prod.snd (hspec k hk)
  refine ⟨t, hx, ?_, ?_, fun hzero k hk => ?_⟩
  · rw [him 0 (by rw [Config.k]; omega), forward_edge _ _ (.inl rfl)]
  · rw [him _ (by rw [Config.k]; omega), forward_edge _ _ (.inr rfl)]
  · have hx0 : ∀ x ∈ windowedFrame s, isZero x = true := by
      rw [windowedFrame_eq hana]
      intro x hx
      obtain ⟨n, hn, rfl⟩ := List.mem_map.mp hx
      exact hzero n (List.mem_range.mp hn)
    have h := forward_zero hc hx0 k
    rwa [← hspec k hk] at h

/-- Settles O41: one lemma per command; a command fills a silent buffer with sums and products of zeros by finite
factors. -/
theorem silenceStaysSilent : Obligations.SilenceStaysSilent := by
  intro s hc h hgain
  refine ⟨fun i hi => ?_, silent_stftLogmag hc h⟩
  simp only [List.mem_cons, List.not_mem_nil, or_false] at hi
  rcases hi with rfl | rfl | rfl | rfl | rfl | rfl | rfl | rfl
  · exact ⟨_, exec_stftInit s, silent_clearAll hc h (by decide)⟩
  · exact silent_stftAnalyze hc h
  · exact silent_stftMag hc h
  · exact silent_stftMask hc h fun k hk => (hgain k hk).1
  · exact silent_stftMask hc h fun k hk => (hgain k hk).2
  · exact silent_stftSynth hc h
  · exact ⟨_, exec_ppInit s, silent_clearAll hc h (by decide)⟩
  · exact silent_ppRun hc h

end Sys2Proof.Proofs
end

section
/-! The fixed-point kernels (00_scope.md R10, R11; 41_q15_kernels.md): shift, clamp and narrowing to int64 on exact
integers, the operands' ranges, and TanhQ step by step (R162); from them what each Q_ command leaves in ACC. -/

namespace Sys2Proof.Machine

/-! ## Shift, clamp and narrowing (R10, R11) -/

theorem floor_div_two_pow (v : Int) (sh : Nat) : ⌊(v : ℚ) / 2 ^ sh⌋ = asr v sh := by
  simpa [asr] using Rat.floor_intCast_div_natCast v (2 ^ sh)

theorem asr_one (v : Int) : asr v 1 = v / 2 := rfl

/-- Half of a value, floored, is its shift by one place. -/
theorem floor_half (v : Int) : ⌊(v : ℚ) / 2⌋ = asr v 1 := by
  simpa using floor_div_two_pow v 1

theorem abs_asr_le (v : Int) (sh : Nat) : |asr v sh| ≤ |v| := Int.abs_ediv_le_abs v _

/-- A value of int64 is not changed by the narrowing. -/
theorem toInt_int64 {v : Int} (hlo : -2 ^ 63 ≤ v) (hhi : v < 2 ^ 63) : (int64 v).toInt = v :=
  BitVec.toInt_ofInt_eq_self (by decide) hlo hhi

/-- `wrap_64` takes away a multiple of 2^64. -/
theorem toInt_int64_wraps (v : Int) : ∃ k : Int, (int64 v).toInt = v + k * 2 ^ 64 := by
  refine ⟨-Int.bdiv v (2 ^ 64), ?_⟩
  have h := Int.bmod_add_bdiv v (2 ^ 64)
  rw [int64, BitVec.toInt_ofInt]
  simp only [Nat.cast_pow, Nat.cast_ofNat] at h
  linear_combination h

theorem toInt_int64_of_abs_le {v : Int} (h : |v| ≤ 2 ^ 62) : (int64 v).toInt = v := by
  obtain ⟨hlo, hhi⟩ := abs_le.mp h
  exact toInt_int64 (by omega) (by omega)

section sat
variable {v : Int} {w : Nat}

theorem sat_of_lt (h : v < -2 ^ (w - 1)) : sat v w = -2 ^ (w - 1) := by
  have hpos : (0 : Int) < 2 ^ (w - 1) := by positivity
  rw [sat, max_eq_right h.le, min_eq_left (by omega)]

theorem sat_of_ge (h : 2 ^ (w - 1) ≤ v) : sat v w = 2 ^ (w - 1) - 1 := by
  have hpos : (0 : Int) < 2 ^ (w - 1) := by positivity
  rw [sat, max_eq_left (by omega), min_eq_right (by omega)]

theorem sat_of_mem (hlo : -2 ^ (w - 1) ≤ v) (hhi : v < 2 ^ (w - 1)) : sat v w = v := by
  rw [sat, max_eq_left hlo, min_eq_left (by omega)]

theorem sat_mem (v : Int) (w : Nat) : -2 ^ (w - 1) ≤ sat v w ∧ sat v w < 2 ^ (w - 1) := by
  have hpos : (0 : Int) < 2 ^ (w - 1) := by positivity
  unfold sat
  omega

/-- A clamp to at most 64 bits gives an int64. -/
theorem toInt_int64_sat (hw : w ≤ 64) : (int64 (sat v w)).toInt = sat v w := by
  obtain ⟨hlo, hhi⟩ := sat_mem v w
  have hpow : (2 : Int) ^ (w - 1) ≤ 2 ^ 63 := pow_le_pow_right₀ (by decide) (by omega)
  exact toInt_int64 (by omega) (by omega)

end sat

/-! ## Operands (R27, R150, R159) -/

theorem abs_toInt_le (x : Word) : |x.toInt| ≤ 2 ^ 31 := by
  have hlo := BitVec.le_toInt x
  have hhi := BitVec.toInt_lt (x := x)
  rw [abs_le]
  omega

/-- The product of two operands fits. -/
theorem abs_mul_toInt_le (x y : Word) : |x.toInt * y.toInt| ≤ 2 ^ 62 :=
  calc |x.toInt * y.toInt| = |x.toInt| * |y.toInt| := abs_mul _ _
    _ ≤ 2 ^ 31 * 2 ^ 31 := mul_le_mul (abs_toInt_le x) (abs_toInt_le y) (abs_nonneg _) (by decide)
    _ = 2 ^ 62 := by norm_num

/-- The sum of Q_INTERP before its shift (R158): two products of operands, and 0x7FFF times an operand. -/
theorem abs_interpolation_le (a b c : Word) :
    |c.toInt * a.toInt + (0x7FFF - c.toInt) * b.toInt| ≤ 2 ^ 63 + 2 ^ 46 := by
  have hb : |0x7FFF * b.toInt| ≤ 2 ^ 46 := by
    have h := abs_le.mp (abs_toInt_le b)
    rw [abs_le]
    omega
  calc |c.toInt * a.toInt + (0x7FFF - c.toInt) * b.toInt|
      = |c.toInt * a.toInt + (0x7FFF * b.toInt - c.toInt * b.toInt)| := by rw [sub_mul]
    _ ≤ |c.toInt * a.toInt| + (|0x7FFF * b.toInt| + |c.toInt * b.toInt|) :=
        (abs_add_le _ _).trans (add_le_add le_rfl (abs_sub _ _))
    _ ≤ 2 ^ 62 + (2 ^ 46 + 2 ^ 62) :=
        add_le_add (abs_mul_toInt_le c a) (add_le_add hb (abs_mul_toInt_le c b))
    _ = 2 ^ 63 + 2 ^ 46 := by norm_num

/-- The weights of Q_INTERP are not negative and add up to 0x7FFF, so the sum lies between the bounds of Q15 times
0x7FFF. -/
theorem interpolation_mem {a b c : Int} (hc : 0 ≤ c) (hc' : c ≤ 0x7FFF) (ha : -32768 ≤ a) (ha' : a ≤ 32767)
    (hb : -32768 ≤ b) (hb' : b ≤ 32767) :
    -32768 * 0x7FFF ≤ c * a + (0x7FFF - c) * b ∧ c * a + (0x7FFF - c) * b ≤ 32767 * 0x7FFF := by
  have hd : 0 ≤ 0x7FFF - c := by omega
  have h1 := mul_le_mul_of_nonneg_left ha hc
  have h2 := mul_le_mul_of_nonneg_left ha' hc
  have h3 := mul_le_mul_of_nonneg_left hb hd
  have h4 := mul_le_mul_of_nonneg_left hb' hd
  constructor <;> linarith

/-! ## TanhQ (R162 to R164) -/

/-- The index before the clamp is at most 200, as the magnitude is at most 8.0. -/
theorem tanhQIndex_of_le {ax : Nat} (h : ax ≤ 524288) : tanhQIndex ax = (25 * ax + 32768) / 65536 := by
  unfold tanhQIndex
  omega

/-- The nearest grid point is at most half a spacing away. -/
theorem tanhQ_offset_mem {ax : Nat} (h : ax ≤ 524288) :
    -1311 ≤ (ax : Int) - gq (tanhQIndex ax) ∧ (ax : Int) - gq (tanhQIndex ax) ≤ 1311 := by
  rw [tanhQIndex_of_le h, gq]
  omega

theorem tanhQMag_mem (a : Nat) : 0 ≤ tanhQMag a ∧ tanhQMag a ≤ 32767 := by
  simp only [tanhQMag]
  omega

theorem tanhQMag_zero : tanhQMag 0 = 0 := by decide

/-- From 8.0 on the magnitude is clamped to the last grid point, where the table holds 32767. -/
theorem tanhQMag_of_ge {a : Nat} (h : 524288 ≤ a) : tanhQMag a = 32767 :=
  calc tanhQMag a = tanhQMag 524288 := by simp only [tanhQMag, min_eq_right h, min_self]
    _ = 32767 := by decide

theorem tanhQ_of_nonneg {x : Int} (h : 0 ≤ x) : tanhQ x = tanhQMag x.natAbs := if_neg (not_lt.mpr h)

theorem tanhQ_of_neg {x : Int} (h : x < 0) : tanhQ x = -tanhQMag x.natAbs := if_pos h

theorem tanhQ_zero : tanhQ 0 = 0 := tanhQMag_zero

theorem tanhQ_mem (x : Int) : -32767 ≤ tanhQ x ∧ tanhQ x ≤ 32767 := by
  have h := tanhQMag_mem x.natAbs
  unfold tanhQ
  split <;> omega

theorem tanhQ_of_ge {x : Int} (h : 524288 ≤ x) : tanhQ x = 32767 := by
  rw [tanhQ_of_nonneg (by omega), tanhQMag_of_ge (by omega)]

theorem tanhQ_of_le {x : Int} (h : x ≤ -524288) : tanhQ x = -32767 := by
  rw [tanhQ_of_neg (by omega), tanhQMag_of_ge (by omega)]

/-- The magnitude is the same at both signs, and the sign is restored at the end. -/
theorem tanhQ_neg (x : Int) : tanhQ (-x) = -tanhQ x := by
  rcases lt_trichotomy x 0 with h | rfl | h
  · rw [tanhQ_of_neg h, tanhQ_of_nonneg (by omega), Int.natAbs_neg, neg_neg]
  · rw [neg_zero, tanhQ_zero, neg_zero]
  · rw [tanhQ_of_neg (by omega : -x < 0), tanhQ_of_nonneg h.le, Int.natAbs_neg]

theorem gq_cast (i : Nat) : (gq i : Int) = (131072 * i + 25) / 50 := by
  simp [gq]

theorem tanhQIndex_eq_toNat (ax : Nat) :
    tanhQIndex ax = (min ((25 * (ax : Int) + 32768) / 2 ^ 16) 200).toNat := by
  unfold tanhQIndex
  omega

/-- The steps of R162 on integers: the magnitude, clamped, is the natural number the model computes with. -/
theorem tanhQ_steps (x : Int) :
    let ax : Int := min |x| 524288
    let i : Nat := (min ((25 * ax + 32768) / 2 ^ 16) 200).toNat
    let dx : Int := ax - (131072 * i + 25) / 50
    let y : Int := tq i
    let dy := 32768 - y * y / 2 ^ 15
    let t1 := 32768 - y * dx / 2 ^ 16
    let c := dx * dy / 2 ^ 16 * t1 / 2 ^ 15
    let r := min (max (y + c) 0) 32767
    tanhQ x = if x < 0 then -r else r := by
  have hax : min |x| 524288 = ((min x.natAbs 524288 : Nat) : Int) := by simp
  simp only [hax, ← tanhQIndex_eq_toNat, ← gq_cast]
  rfl

/-! ## What each command leaves in ACC -/

section
variable (s : State) (sh w : Nat)

theorem exec_qClr : exec .qClr s = .next (s.setAcc 0) := rfl

theorem exec_qMul : exec (.qMul sh) s = .next (s.setAcc (asr (s.opa.toInt * s.opb.toInt) sh)) := rfl

theorem exec_qMac :
    exec (.qMac sh) s = .next (s.setAcc (s.acc.toInt + asr (s.opa.toInt * s.opb.toInt) sh)) := rfl

theorem exec_qAddsh : exec (.qAddsh sh) s = .next (s.setAcc (s.acc.toInt + s.opa.toInt * 2 ^ sh)) := rfl

theorem exec_qSat : exec (.qSat w) s = .next (s.setAcc (sat s.acc.toInt w)) := rfl

theorem exec_qShrsat : exec (.qShrsat sh w) s = .next (s.setAcc (sat (asr s.acc.toInt sh) w)) := rfl

theorem exec_qAddsat : exec (.qAddsat w) s = .next (s.setAcc (sat (s.opa.toInt + s.opb.toInt) w)) := rfl

theorem exec_qInterp : exec .qInterp s =
    .next (s.setAcc (asr (s.opc.toInt * s.opa.toInt + (0x7FFF - s.opc.toInt) * s.opb.toInt) 15)) := rfl

theorem exec_qTanh : exec .qTanh s = .next (s.setAcc (tanhQ s.opa.toInt)) := rfl

theorem exec_qSigmoid :
    exec .qSigmoid s = .next (s.setAcc (16384 + asr (tanhQ (asr s.opa.toInt 1)) 1)) := rfl

theorem exec_qRelu : exec .qRelu s = .next (s.setAcc (max 0 s.opa.toInt)) := rfl

end

/-- The three saturating commands clamp one value each (R155 to R157). -/
theorem exec_saturates {i : Instr} {s : State} {v : Int} {w : Nat}
    (h : (i = .qSat w ∧ v = s.acc.toInt) ∨
      (∃ sh, sh ≤ 63 ∧ i = .qShrsat sh w ∧ v = ⌊(s.acc.toInt : ℚ) / 2 ^ sh⌋) ∨
      (i = .qAddsat w ∧ v = s.opa.toInt + s.opb.toInt)) :
    exec i s = .next (s.setAcc (sat v w)) := by
  rcases h with ⟨rfl, rfl⟩ | ⟨sh, -, rfl, rfl⟩ | ⟨rfl, rfl⟩
  · exact exec_qSat s w
  · rw [floor_div_two_pow]
    exact exec_qShrsat s sh w
  · exact exec_qAddsat s w

theorem toInt_int64_tanhQ (x : Int) : (int64 (tanhQ x)).toInt = tanhQ x := by
  have h := tanhQ_mem x
  exact toInt_int64 (by omega) (by omega)

/-- Half of an operand, floored, is an operand. -/
theorem toInt_ofInt_asr_one (x : Word) : (BitVec.ofInt 32 (asr x.toInt 1)).toInt = asr x.toInt 1 := by
  have hx := abs_le.mp (abs_toInt_le x)
  rw [asr_one]
  exact BitVec.toInt_ofInt_eq_self (by decide) (by omega) (by omega)

end Sys2Proof.Machine

namespace Sys2Proof.Proofs

open Machine

/-- Settles O43: the product of two int32 fits 63 bits, and a shift makes no value larger. -/
theorem multiplyFloorsTheExactProduct : Obligations.MultiplyFloorsTheExactProduct := by
  intro s sh _
  refine ⟨_, exec_qMul s sh, rfl, ?_⟩
  rw [floor_div_two_pow]
  exact toInt_int64_of_abs_le ((abs_asr_le _ _).trans (abs_mul_toInt_le _ _))

/-- Settles O44: narrowing the exact sum takes away a multiple of 2^64. -/
theorem multiplyAccumulateWraps : Obligations.MultiplyAccumulateWraps := by
  intro s sh _
  refine ⟨_, exec_qMac s sh, rfl, ?_⟩
  rw [floor_div_two_pow]
  exact toInt_int64_wraps _

/-- Settles O45: narrowing the exact sum takes away a multiple of 2^64. -/
theorem shiftedAddWraps : Obligations.ShiftedAddWraps :=
  fun s sh _ => ⟨_, exec_qAddsh s sh, rfl, toInt_int64_wraps _⟩

/-- Settles O46: all three commands clamp, and the clamp has one equation per range. -/
theorem saturationClampsToTheWidth : Obligations.SaturationClampsToTheWidth := by
  intro i s v w _ hw h
  have hacc : (s.setAcc (sat v w)).acc.toInt = sat v w := toInt_int64_sat hw
  refine ⟨_, exec_saturates h, rfl, ?_⟩
  rw [hacc]
  exact ⟨sat_of_lt, sat_of_ge, sat_of_mem⟩

/-- Settles O47: the exact sum is bounded by its weights, in general and for a convex combination of Q15 values. -/
theorem interpolationIsExact : Obligations.InterpolationIsExact := by
  intro s
  have hbound := abs_le.mp (abs_interpolation_le s.opa s.opb s.opc)
  have hconvex := @interpolation_mem s.opa.toInt s.opb.toInt s.opc.toInt
  refine ⟨_, exec_qInterp s, rfl, ?_⟩
  rw [floor_div_two_pow, State.setAcc_acc]
  generalize s.opc.toInt * s.opa.toInt + (0x7FFF - s.opc.toInt) * s.opb.toInt = v at hbound hconvex ⊢
  have hshift : -2 ^ 49 < asr v 15 ∧ asr v 15 < 2 ^ 49 := by unfold asr; omega
  rw [toInt_int64 (by omega) (by omega)]
  refine ⟨rfl, abs_lt.mpr hshift, fun hc hc' ha ha' hb hb' => ?_⟩
  have hq15 := hconvex hc hc' ha ha' hb hb'
  unfold asr
  omega

/-- Settles O48: TanhQ fits ACC, and its own lemmas say the rest. -/
theorem fixedTanhIsOddAndBounded : Obligations.FixedTanhIsOddAndBounded := by
  have hacc (s : State) : (s.setAcc (tanhQ s.opa.toInt)).acc.toInt = tanhQ s.opa.toInt := toInt_int64_tanhQ _
  refine ⟨fun s => ⟨_, exec_qTanh s, rfl, ?_⟩, fun s x hx => ⟨_, _, exec_qTanh s, exec_qTanh _, ?_⟩⟩
  · rw [hacc]
    obtain ⟨hlo, hhi⟩ := tanhQ_mem s.opa.toInt
    refine ⟨tanhQ_steps _, hlo, hhi, fun h => ?_, tanhQ_of_ge, fun h => tanhQ_of_le (by omega)⟩
    rw [h, tanhQ_zero]
  · rw [hacc, hacc, hx, tanhQ_neg]

/-- Settles O50: half of an int32 is an int32, so Q_TANH reads the operand Q_SIGMOID halves to. -/
theorem fixedSigmoidIsTheTanhIdentity : Obligations.FixedSigmoidIsTheTanhIdentity := by
  intro s
  refine ⟨_, _, exec_qSigmoid s, rfl, exec_qTanh _, ?_⟩
  rw [floor_half, floor_half, State.setAcc_acc, State.setAcc_acc, toInt_int64_tanhQ, toInt_ofInt_asr_one]
  obtain ⟨hlo, hhi⟩ := tanhQ_mem (asr s.opa.toInt 1)
  have hhalf := asr_one (tanhQ (asr s.opa.toInt 1))
  rw [toInt_int64 (by omega) (by omega)]
  exact ⟨rfl, by omega, by omega⟩

/-- Settles O42: 0 and the larger of 0 and an int32 fit ACC. -/
theorem clearAndRelu : Obligations.ClearAndRelu := by
  intro s
  have hopa := abs_le.mp (abs_toInt_le s.opa)
  exact ⟨⟨_, exec_qClr s, rfl, toInt_int64 (by decide) (by decide)⟩,
    ⟨_, exec_qRelu s, rfl, toInt_int64 (by omega) (by omega)⟩⟩

/-- Settles O49: a clamped magnitude is at most 8.0. -/
theorem tanhIndexClampIsIdle : Obligations.TanhIndexClampIsIdle := by
  intro a
  have h : min a 524288 ≤ 524288 := min_le_right _ _
  exact ⟨tanhQIndex_of_le h, by simpa using tanhQ_offset_mem h⟩

end Sys2Proof.Proofs
end

section
/-! Binary32 where the activations need it: rounding keeps the order, and zeros and ones are neutral; from them the
corners and the oddness of TanhF, the logistic function and the rectifier (42_float_activations.md R183 to R187). -/

namespace Sys2Proof.Machine.F32

open Spec

/-! ## Rounding keeps the order -/

theorem RoundsTo.mono {m m' : Nat} {x y : ℝ} (h : RoundsTo m x) (h' : RoundsTo m' y) (hxy : x ≤ y) : m ≤ m' := by
  by_contra! hlt
  have hnot : ¬Reaches (m' + 1) y := h'.not_reaches (hlt.trans_le h.le)
  have hreach : Reaches m y := h.reaches.mono hxy
  obtain ⟨k, rfl⟩ : ∃ k, m = k + 1 := ⟨m - 1, by omega⟩
  rcases Nat.eq_or_lt_of_le (Nat.le_of_lt_succ hlt) with rfl | hk
  · exact hnot hreach
  · have hb : (boundary m' : ℝ) < boundary k := by
      have hm := h.le
      exact_mod_cast boundary_lt_boundary hk (by omega)
    linarith [hreach.boundary_le, le_boundary_of_not_reaches hnot]

theorem roundMag_mono {n n' d : Nat} (hd : 0 < d) (h : n ≤ n') : roundMag n d ≤ roundMag n' d :=
  (roundMag_roundsTo n hd).mono (roundMag_roundsTo n' hd) (by gcongr)

/-- Only the ratio is rounded. -/
theorem roundMag_mul_self (n : Nat) {d : Nat} (hd : 0 < d) : roundMag (n * d) d = roundMag n 1 := by
  have hx : ((n * d : Nat) : ℝ) / d = n / (1 : Nat) := by
    have hd' : (d : ℝ) ≠ 0 := by exact_mod_cast hd.ne'
    rw [Nat.cast_mul, mul_div_cancel_right₀ _ hd', Nat.cast_one, div_one]
  have h := roundMag_roundsTo (n * d) hd
  have h' := roundMag_roundsTo n one_pos
  exact le_antisymm (h.mono h' hx.le) (h'.mono h hx.ge)

section
variable {a b c : Word}

theorem magBits_mul_mono (ha : finite a) (hb : finite b) (hc : finite c) (h : magBits b ≤ magBits c) :
    magBits (mul a b) ≤ magBits (mul a c) := by
  rw [mul_of_finite ha hb, mul_of_finite ha hc, magBits_pack_roundMag, magBits_pack_roundMag]
  exact roundMag_mono (Nat.two_pow_pos 149) (Nat.mul_le_mul_left _ (units_le_units h))

theorem add_of_sign_false (ha : finite a) (hb : finite b) (hsa : sign a = false) (hsb : sign b = false) :
    add a b = pack false (roundMag (units a + units b) 1) := by
  rw [add_of_finite ha hb, value_of_sign_false hsa, value_of_sign_false hsb, hsa, ← Nat.cast_add]
  generalize units a + units b = u
  split_ifs with h0
  · cases ‹_›
  · rw [Int.natCast_eq_zero.mp h0, roundMag_zero]
    rfl
  · rw [roundInt, decide_eq_false (by omega), Int.natAbs_natCast]

theorem magBits_add_mono (ha : finite a) (hb : finite b) (hc : finite c) (hsa : sign a = false)
    (hsb : sign b = false) (hsc : sign c = false) (h : magBits b ≤ magBits c) :
    magBits (add a b) ≤ magBits (add a c) := by
  rw [add_of_sign_false ha hb hsa hsb, add_of_sign_false ha hc hsa hsc, magBits_pack_roundMag,
    magBits_pack_roundMag]
  exact roundMag_mono one_pos (Nat.add_le_add_left (units_le_units h) _)

/-! ## Zeros and ones are neutral -/

theorem value_ne_zero (h : isZero a = false) : value a ≠ 0 := by
  have := units_pos h
  unfold value
  split <;> omega

theorem roundInt_value (hf : finite a) (h : isZero a = false) : roundInt (value a) = a := by
  have hu := units_pos h
  have hs : decide (value a < 0) = sign a ∧ (value a).natAbs = units a := by
    unfold value
    cases sign a <;> simp [hu]
  rw [roundInt, hs.1, hs.2, roundMag_units (Nat.le_of_lt hf), pack_sign_magBits]

theorem add_isZero_neutral (hz : isZero b = true) (hf : finite a) (h : isZero a = false) :
    add a b = a ∧ add b a = a := by
  have hb := finite_of_isZero hz
  simp only [add_of_finite hf hb, add_of_finite hb hf, value_of_isZero hz, add_zero, zero_add,
    if_neg (value_ne_zero h), roundInt_value hf h, and_self]

theorem sub_isZero_neutral (hz : isZero b = true) (hf : finite a) (h : isZero a = false) : sub a b = a :=
  (add_isZero_neutral ((isZero_neg b).trans hz) hf h).1

theorem half_facts : finite half ∧ sign half = false := by
  unfold finite
  decide

theorem one_facts : finite one ∧ isZero one = false ∧ sign one = false ∧ units one = 2 ^ 149 := by
  unfold finite
  decide +kernel

theorem mul_one_of_finite (hf : finite a) : mul a one = a := by
  obtain ⟨h1, -, hs, hu⟩ := one_facts
  rw [mul_of_finite hf h1, hs, hu, roundMag_mul_self _ (Nat.two_pow_pos 149), roundMag_units (Nat.le_of_lt hf),
    Bool.bne_false, pack_sign_magBits]

end

/-! ## Signs and comparisons with zero -/

section
variable (a : Word)

theorem neg_neg_self : neg (neg a) = a := by
  rw [neg, neg, BitVec.xor_assoc, BitVec.xor_self, BitVec.xor_zero]

theorem toNat_abs : (abs a).toNat = magBits a := (magBits_eq_and a).symm

theorem sign_abs : sign (abs a) = false :=
  decide_eq_false (by rw [toNat_abs]; exact (magBits_lt a).not_ge)

@[simp] theorem magBits_abs : magBits (abs a) = magBits a := by
  rw [magBits, toNat_abs, Nat.mod_eq_of_lt (magBits_lt a)]

@[simp] theorem isZero_abs : isZero (abs a) = isZero a := by simp [isZero]

theorem abs_neg_eq : abs (neg a) = abs a :=
  eq_of_sign_of_magBits (by rw [sign_abs, sign_abs]) (by rw [magBits_abs, magBits_abs, magBits_neg])

variable {a}

theorem abs_of_sign_false (h : sign a = false) : abs a = a :=
  eq_of_sign_of_magBits ((sign_abs a).trans h.symm) (magBits_abs a)

theorem neg_abs_of_sign_true (h : sign a = true) : neg (abs a) = a :=
  eq_of_sign_of_magBits (by rw [sign_neg, sign_abs, h]; rfl) (by rw [magBits_neg, magBits_abs])

theorem sign_of_value_neg (h : value a < 0) : sign a = true := by
  by_contra hs
  rw [value_of_sign_false (Bool.eq_false_iff.mpr hs)] at h
  omega

theorem sign_of_value_pos (h : 0 < value a) : sign a = false := by
  by_contra hs
  rw [value, if_pos (Bool.eq_true_of_not_eq_false hs)] at h
  omega

theorem lt_posZero_right (h : isNaN a = false) : lt a posZero = decide (value a < 0) := by
  have h0 : isNaN posZero = false ∧ value posZero = 0 := by decide
  simp [lt, h, h0]

theorem lt_posZero_left (h : isNaN a = false) : lt posZero a = decide (0 < value a) := by
  have h0 : isNaN posZero = false ∧ value posZero = 0 := by decide
  simp [lt, h, h0]

/-- Between patterns without a sign the comparison is that of the patterns. -/
theorem lt_iff_magBits_lt {b : Word} (ha : NonNeg a) (hb : NonNeg b) : lt a b = true ↔ magBits a < magBits b := by
  have hunits : units a < units b ↔ magBits a < magBits b :=
    ⟨fun h => not_le.mp fun hle => h.not_ge (units_le_units hle), units_lt_units⟩
  simp [lt, ha.2, hb.2, value_of_sign_false ha.1, value_of_sign_false hb.1, hunits]

end

end Sys2Proof.Machine.F32

namespace Sys2Proof.Machine

open F32 Spec

/-! ## TanhF of a magnitude (R183, R184) -/

section
variable {a : Word}

theorem nonNeg_xMax : NonNeg xMax := by
  unfold NonNeg
  decide

theorem fmin_xMax_of_ge (ha : NonNeg a) (h : magBits xMax ≤ magBits a) : fmin a xMax = xMax := by
  rcases h.eq_or_lt with heq | hlt
  · rw [eq_of_sign_of_magBits (ha.1.trans nonNeg_xMax.1.symm) heq.symm]
    exact ite_self _
  · exact if_pos ((lt_iff_magBits_lt nonNeg_xMax ha).mpr hlt)

theorem fmin_xMax_of_le (ha : NonNeg a) (h : magBits a ≤ magBits xMax) : fmin a xMax = a :=
  if_neg (mt (lt_iff_magBits_lt nonNeg_xMax ha).mp h.not_gt)

/-- From 8.0 on the magnitude is clamped to the last grid point. -/
theorem tanhFMag_of_ge (ha : NonNeg a) (h : magBits xMax ≤ magBits a) : tanhFMag a = 0x3F7FFFFC#32 :=
  calc tanhFMag a = tanhFMag xMax := by
        simp only [tanhFMag, fmin_xMax_of_ge ha h, fmin_xMax_of_ge nonNeg_xMax le_rfl]
    _ = 0x3F7FFFFC#32 := by decide +kernel

/-- The last magnitude whose index is 0 (log entry 7): its pattern, and the steps of the index on it. -/
theorem lastIdentity_facts : finite c25 ∧ sign c25 = false ∧
    finite 0x3CA3D709#32 ∧ magBits 0x3CA3D709#32 = 0x3CA3D709 ∧
    finite (mul c25 0x3CA3D709#32) ∧ sign (mul c25 0x3CA3D709#32) = false ∧
    tanhFIndex 0x3CA3D709#32 = 0 := by
  unfold finite
  decide +kernel

/-- Rounding keeps the order, so the index of a smaller magnitude is no larger. -/
theorem tanhFIndex_of_lt (hs : sign a = false) (h : magBits a < 0x3CA3D70A) : tanhFIndex a = 0 := by
  obtain ⟨h25, hs25, hf, hm, hfm, hsm, hi⟩ := lastIdentity_facts
  obtain ⟨hhalf, hshalf⟩ := half_facts
  have ha : finite a := h.trans (by decide)
  have hmul : magBits (mul c25 a) ≤ magBits (mul c25 0x3CA3D709#32) := magBits_mul_mono h25 ha hf (by omega)
  have hsa : sign (mul c25 a) = false := by rw [(sign_magBits_mul h25 ha).1, hs25, hs]; rfl
  have hadd := magBits_add_mono hhalf (hmul.trans_lt hfm) hfm hshalf hsa hsm hmul
  have hle : tanhFIndex a ≤ tanhFIndex 0x3CA3D709#32 :=
    min_le_min_right _ (Nat.div_le_div_right (units_le_units hadd))
  omega

theorem isZero_tableStart : isZero (tf 0) = true ∧ isZero (mul c004 (F32.ofNat 0)) = true := by decide +kernel

/-- With the index 0 the table value and the grid point are zero, and both factors are 1.0. -/
theorem tanhFMag_of_lt (hs : sign a = false) (hz : isZero a = false) (h : magBits a < 0x3CA3D70A) :
    tanhFMag a = a := by
  have hf : finite a := h.trans (by decide)
  have hclamp : fmin a xMax = a := fmin_xMax_of_le ⟨hs, isNaN_of_finite hf⟩ (h.le.trans (by decide))
  obtain ⟨htable, hgrid⟩ := isZero_tableStart
  obtain ⟨hone, hone0, -, -⟩ := one_facts
  have hdx : sub a (mul c004 (F32.ofNat 0)) = a := sub_isZero_neutral hgrid hf hz
  have hdy : sub one (mul (tf 0) (tf 0)) = one :=
    sub_isZero_neutral (isZero_mul_left htable (finite_of_isZero htable)) hone hone0
  have ht1 : sub one (mul (tf 0) a) = one := sub_isZero_neutral (isZero_mul_left htable hf) hone hone0
  simp only [tanhFMag, hclamp, tanhFIndex_of_lt hs h, hdx, hdy, ht1, mul_one_of_finite hf]
  exact (add_isZero_neutral htable hf hz).2

end

/-! ## TanhF and the rectifier with their signs (R183, R187) -/

section
variable {x : Word}

theorem tanhF_of_isNaN (h : isNaN x = true) : tanhF x = qNaN := if_pos h

theorem tanhF_of_not_isNaN (h : isNaN x = false) :
    tanhF x = if value x < 0 then neg (tanhFMag (abs x)) else tanhFMag (abs x) := by
  simp only [tanhF, h, lt_posZero_right h, decide_eq_true_eq, Bool.false_eq_true, if_false]

theorem tanhF_of_isZero (h : isZero x = true) : tanhF x = posZero := by
  rcases eq_posZero_or_negZero h with rfl | rfl
  · decide +kernel
  · decide +kernel

theorem tanhF_of_ge (hn : isNaN x = false) (hs : sign x = false) (h : magBits xMax ≤ magBits x) :
    tanhF x = 0x3F7FFFFC#32 := by
  rw [tanhF_of_not_isNaN hn, if_neg (by rw [value_of_sign_false hs]; omega), abs_of_sign_false hs]
  exact tanhFMag_of_ge ⟨hs, hn⟩ h

theorem tanhF_of_lt (hz : isZero x = false) (h : magBits x < 0x3CA3D70A) : tanhF x = x := by
  have hmag : tanhFMag (abs x) = abs x :=
    tanhFMag_of_lt (sign_abs x) ((isZero_abs x).trans hz) (by rwa [magBits_abs])
  rw [tanhF_of_not_isNaN (isNaN_of_finite (h.trans (by decide))), hmag]
  rcases lt_or_gt_of_ne (value_ne_zero hz) with hneg | hpos
  · rw [if_pos hneg, neg_abs_of_sign_true (sign_of_value_neg hneg)]
  · rw [if_neg hpos.not_gt, abs_of_sign_false (sign_of_value_pos hpos)]

/-- The magnitude is the same at both signs, and the sign is restored at the end. -/
theorem tanhF_neg (hn : isNaN x = false) (hz : isZero x = false) : tanhF (neg x) = neg (tanhF x) := by
  rw [tanhF_of_not_isNaN hn, tanhF_of_not_isNaN ((isNaN_neg x).trans hn), value_neg, abs_neg_eq]
  rcases lt_or_gt_of_ne (value_ne_zero hz) with hneg | hpos
  · rw [if_neg (by omega), if_pos hneg, neg_neg_self]
  · rw [if_pos (by omega), if_neg hpos.not_gt]

theorem reluF_of_isNaN (h : isNaN x = true) : reluF x = qNaN := if_pos h

theorem reluF_of_not_isNaN (h : isNaN x = false) : reluF x = if 0 < value x then x else posZero := by
  simp only [reluF, h, lt_posZero_left h, decide_eq_true_eq, Bool.false_eq_true, if_false]

end

/-! ## What each command leaves in F_RES -/

section
variable (s : State)

theorem exec_fTanh : exec .fTanh s = .next (s.setFRes (tanhF s.fOpa)) := rfl

theorem exec_fSigmoid : exec .fSigmoid s =
    .next (s.setFRes (add half (mul half (tanhF (mul half s.fOpa))))) := rfl

theorem exec_fRelu : exec .fRelu s = .next (s.setFRes (reluF s.fOpa)) := rfl

end

end Sys2Proof.Machine

namespace Sys2Proof.Proofs

open Machine Machine.F32

/-- Settles O51: TanhF's own lemmas, one per case; the steps are those of the model's definition. -/
theorem floatTanhCornersAndOddness : Obligations.FloatTanhCornersAndOddness := fun s =>
  ⟨_, _, exec_fTanh s, rfl, exec_fTanh _, tanhF_of_isNaN, tanhF_of_not_isNaN, tanhF_of_isZero, tanhF_of_ge,
    tanhF_of_lt, tanhF_neg⟩

/-- Settles O52: the command is defined by the identity, and at its corners the operand halves to a NaN, a
zero or itself. -/
theorem floatSigmoidIsTheTanhIdentity : Obligations.FloatSigmoidIsTheTanhIdentity := by
  intro s
  refine ⟨_, _, exec_fSigmoid s, rfl, exec_fTanh _, rfl, fun h => ?_, fun h => ?_, fun h => ?_, fun h => ?_⟩
  · rw [State.setFRes_fRes, mul_of_isNaN (.inr h)]
    decide
  · rw [State.setFRes_fRes, tanhF_of_isZero (isZero_mul_right half_facts.1 h)]
    decide
  · rw [State.setFRes_fRes, h]
    decide +kernel
  · rw [State.setFRes_fRes, h]
    decide +kernel

/-- Settles O53: a comparison with +0.0 is that of the value with 0. -/
theorem floatRelu : Obligations.FloatRelu := by
  intro s
  refine ⟨_, exec_fRelu s, rfl, reluF_of_isNaN, fun hn h => ?_, fun hn h => ?_⟩
  · rw [State.setFRes_fRes, reluF_of_not_isNaN hn, if_pos h]
  · rw [State.setFRes_fRes, reluF_of_not_isNaN hn, if_neg h.not_gt]
    rfl

end Sys2Proof.Proofs
end

section
/-! The gain post-processor (43_gain_postproc.md R202 to R208): its steps on one bin, the loop over the bins in
place, and the bounds of a post-processed gain. -/

namespace Sys2Proof.Machine

open F32 Spec

/-! ## The steps of one bin (R204, R206) -/

theorem State.inBand_iff (s : State) (k : Nat) : s.inBand k = true ↔
    s.cfg.sbRangeMode = .allBins ∨ (s.ppSbStart.toNat ≤ k ∧ k ≤ s.ppSbEnd.toNat) := by
  unfold State.inBand
  cases s.cfg.sbRangeMode with
  | explicitRange => simp
  | allBins => simp

/-- Step 1 of PP_RUN: the S-curve of a raw gain. -/
def sCurve (g : Word) : Word := mul g (sin32 (mul halfPi g))

/-- The condition of step 2 on bin `k`: the boost is enabled, the bin is in the speech band, and its shaped gain
is above 0.25. -/
def State.boosts (s : State) (k : Nat) : Prop :=
  s.sbEn = true ∧ (s.cfg.sbRangeMode = .allBins ∨ (s.ppSbStart.toNat ≤ k ∧ k ≤ s.ppSbEnd.toNat)) ∧
    lt quarter (sCurve (s.elem .gainIn k)) = true

theorem State.boosts_iff (s : State) (k : Nat) :
    (s.sbEn && s.inBand k && lt quarter (sCurve (s.elem .gainIn k))) = true ↔ s.boosts k := by
  rw [Bool.and_eq_true, Bool.and_eq_true, and_assoc, s.inBand_iff, State.boosts]

theorem shapedGain_of_boosts {s : State} {k : Nat} (h : s.boosts k) :
    shapedGain s k = mul (sCurve (s.elem .gainIn k)) s.ppSbFactor :=
  if_pos ((s.boosts_iff k).mpr h)

theorem shapedGain_of_not_boosts {s : State} {k : Nat} (h : ¬s.boosts k) :
    shapedGain s k = sCurve (s.elem .gainIn k) :=
  if_neg (mt (s.boosts_iff k).mp h)

/-- The gain of a bin depends on that bin's elements of GAIN_IN and GAIN_STATE and on the registers only. -/
theorem postGain_of_elem_eq {s u : State} {k : Nat} (hregs : u = { s with mem := u.mem })
    (hin : u.elem .gainIn k = s.elem .gainIn k) (hstate : u.elem .gainState k = s.elem .gainState k) :
    postGain u k = postGain s k := by
  simp only [postGain, flooredGain, shapedGain, hin, hstate]
  rw [hregs]
  rfl

/-! ## A buffer written in place, element after element (R206) -/

/-- Byte `j` of an element is the byte at its address. -/
theorem State.extractLsb'_elem (s : State) (b : Buf) (i : Nat) {j : Nat} (hj : j < 4) :
    (s.elem b i).extractLsb' (8 * j) 8 = s.readByte (b.addr i + j) := by
  apply BitVec.eq_of_getLsbD_eq
  intro p hp
  simp only [State.elem, Memory.readWord, wordOfBytes, BitVec.getLsbD_extractLsb', BitVec.getLsbD_append,
    State.readByte]
  interval_cases j
  · simp [hp]
  · simp [hp]
  · simp [hp, show ¬16 + p < 8 by omega, show 16 + p - 8 = 8 + p by omega]
  · simp [hp, show ¬24 + p < 8 by omega, show 24 + p - 8 = 8 + (8 + p) by omega]

/-- The first `n` elements of the buffer `b` hold `f`, and nothing else has changed since `s`. -/
structure FilledTo (s : State) (b : Buf) (f : Nat → Word) (n : Nat) (u : State) : Prop where
  regs : u = { s with mem := u.mem }
  filled : ∀ i < n, u.elem b i = f i
  rest : ∀ i, n ≤ i → u.elem b i = s.elem b i
  others : ∀ b' ≠ b, ∀ i < b'.len s.cfg, u.elem b' i = s.elem b' i
  outside : sameOutside [b] s u

section
variable {s u : State} {b : Buf} {f : Nat → Word} {n : Nat}

theorem FilledTo.zero : FilledTo s b f 0 s := ⟨rfl, by simp, fun _ _ => rfl, fun _ _ _ _ => rfl, fun _ _ => rfl⟩

theorem FilledTo.setElem (hc : s.cfg.wf) (h : FilledTo s b f n u) (hn : n < b.len s.cfg) :
    FilledTo s b f (n + 1) (u.setElem b n (f n)) := by
  have hcfg : u.cfg = s.cfg := by rw [h.regs]
  refine ⟨?_, fun i hi => ?_, fun i hi => ?_, fun b' hb i hi => ?_, fun x hx => ?_⟩
  · rw [State.setElem, h.regs]
  · rcases Nat.lt_succ_iff_lt_or_eq.mp hi with hlt | rfl
    · rw [State.elem_setElem_ne _ _ hlt.ne, h.filled i hlt]
    · exact State.elem_setElem_same ..
  · rw [State.elem_setElem_ne _ _ (by omega), h.rest i (by omega)]
  · rw [State.elem_setElem_other (hcfg.symm ▸ hc) hb (hcfg.symm ▸ hn) (hcfg.symm ▸ hi), h.others b' hb i hi]
  · have hb := hx b (List.mem_singleton.mpr rfl)
    rw [State.readByte_setElem_outside _ _ _ _ (by simp only [Buf.addr]; omega), h.outside x hx]

/-- A buffer filled in place to its end reads, byte for byte, as the one filled at once. -/
theorem FilledTo.readByte_eq (h : FilledTo s b f (b.len s.cfg) u) (x : Nat) :
    u.readByte x = (s.fillBuf b f).readByte x := by
  by_cases hx : b.base ≤ x ∧ x < b.base + 4 * b.len s.cfg
  · obtain ⟨i, j, hi, hj, rfl⟩ : ∃ i j, i < b.len s.cfg ∧ j < 4 ∧ x = b.addr i + j :=
      ⟨(x - b.base) / 4, (x - b.base) % 4, by omega, by omega, by simp only [Buf.addr]; omega⟩
    rw [← State.extractLsb'_elem _ _ _ hj, ← State.extractLsb'_elem _ _ _ hj, h.filled i hi,
      State.elem_fillBuf_same s b f hi]
  · have hout : x < b.base ∨ b.base + 4 * b.len s.cfg ≤ x := by omega
    rw [h.outside x (by simpa using hout), State.readByte_fillBuf_outside s b f hout]

end

/-- Each bin of the loop still finds the previous frame's gain, for the bins before it wrote only their own. -/
theorem ppLoop_filledTo {s : State} (hc : s.cfg.wf) {n : Nat} (hn : n ≤ s.cfg.k) :
    FilledTo s .gainState (postGain s) n
      ((List.range n).foldl (fun u k => u.setElem .gainState k (postGain u k)) s) := by
  induction n with
  | zero => exact .zero
  | succ n ih =>
    have h := ih (by omega)
    rw [List.range_succ, List.foldl_append, List.foldl_cons, List.foldl_nil,
      postGain_of_elem_eq h.regs (h.others .gainIn (by decide) n hn) (h.rest n le_rfl)]
    exact h.setElem hc hn

/-! ## The gains stay in range (R208) -/

namespace F32

section
variable {a b : Word}

theorem isNaN_fmax (ha : isNaN a = false) (hb : isNaN b = false) : isNaN (fmax a b) = false := by
  unfold fmax
  split
  · exact hb
  · exact ha

theorem isNaN_fmin (ha : isNaN a = false) (hb : isNaN b = false) : isNaN (fmin a b) = false := by
  unfold fmin
  split
  · exact hb
  · exact ha

theorem value_fmax (ha : isNaN a = false) (hb : isNaN b = false) : value (fmax a b) = max (value a) (value b) := by
  rw [fmax, apply_ite value]
  simp only [lt, ha, hb, Bool.not_false, Bool.true_and, decide_eq_true_eq]
  omega

theorem value_fmin (ha : isNaN a = false) (hb : isNaN b = false) : value (fmin a b) = min (value a) (value b) := by
  rw [fmin, apply_ite value]
  simp only [lt, ha, hb, Bool.not_false, Bool.true_and, decide_eq_true_eq]
  omega

theorem isNaN_mul_of_finite (ha : finite a) (hb : finite b) : isNaN (mul a b) = false := by
  rw [mul_of_finite ha hb, isNaN_pack_roundMag]

/-- A finite factor that is no zero makes no NaN, of an infinity either. -/
theorem isNaN_mul_of_not_isZero (ha : isNaN a = false) (hb : finite b) (hz : isZero b = false) :
    isNaN (mul a b) = false := by
  cases hi : isInf a with
  | false => exact isNaN_mul_of_finite (finite_of_not_isInf ha hi) hb
  | true =>
    obtain ⟨-, hm, -⟩ := sign_magBits_mul_isInf hi (isNaN_of_finite hb) hz
    rw [isNaN, hm]
    decide

/-- A factor of at most 1 in magnitude keeps the product finite. -/
theorem finite_mul (ha : finite a) (hb : finite b) (h : units a ≤ 2 ^ 149 ∨ units b ≤ 2 ^ 149) :
    finite (mul a b) := by
  have hprod : units a * units b ≤ (2 ^ 25 - 2) * 2 ^ 252 * 2 ^ 149 := by
    rcases h with h | h
    · exact (Nat.mul_le_mul h (units_le_of_finite hb)).trans_eq (Nat.mul_comm ..)
    · exact Nat.mul_le_mul (units_le_of_finite ha) h
  exact lt_infBits_of_isNearest (sign_magBits_mul ha hb).2 (hprod.trans_lt (by norm_num))

/-- The values in [0, 1], −0.0 among them, are finite. -/
theorem finite_of_value_mem (hn : isNaN a = false) (h0 : 0 ≤ value a) (h1 : value a ≤ value one) :
    finite a ∧ units a ≤ 2 ^ 149 := by
  obtain ⟨-, -, hs1, hu1⟩ := one_facts
  rw [value_of_sign_false hs1, hu1] at h1
  have hu : units a ≤ 2 ^ 149 := by
    unfold value at h0 h1
    split at h0
    case isTrue => omega
    case isFalse hs => simpa [hs] using h1
  refine ⟨finite_of_not_isInf hn ?_, hu⟩
  rw [← Bool.not_eq_true]
  intro hi
  have hinf : unitsOf infBits = 2 ^ 277 := by decide +kernel
  rw [units_eq_unitsOf, show magBits a = infBits from of_decide_eq_true hi, hinf] at hu
  omega

theorem finite_halfPi : finite halfPi := by
  unfold finite
  decide

end

theorem finite_sin32 {a : Word} (h : finite a) : finite (sin32 a) :=
  finite_of_isRN32 (sin32_isRN32 h) ((Real.abs_sin_le_one _).trans (by norm_num))

end F32

theorem finite_sCurve {g : Word} (hf : finite g) (h1 : units g ≤ 2 ^ 149) : finite (sCurve g) :=
  finite_mul hf (finite_sin32 (finite_mul finite_halfPi hf (.inr h1))) (.inl h1)

section
variable {s : State} {k : Nat}

theorem isNaN_shapedGain (hg : finite (s.elem .gainIn k)) (h1 : units (s.elem .gainIn k) ≤ 2 ^ 149)
    (hfactor : finite s.ppSbFactor) : isNaN (shapedGain s k) = false := by
  have hsh := finite_sCurve hg h1
  by_cases hb : s.boosts k
  · rw [shapedGain_of_boosts hb, isNaN_mul_of_finite hsh hfactor]
  · rw [shapedGain_of_not_boosts hb, isNaN_of_finite hsh]

theorem isNaN_flooredGain (hsh : isNaN (shapedGain s k) = false) (hg : finite (s.elem .gainIn k))
    (hstate : finite (s.elem .gainState k)) (hreverb : finite s.ppAlphaReverb) (hlow : finite s.ppAlphaLowLevel) :
    isNaN (flooredGain s k) = false :=
  isNaN_fmax (isNaN_fmax hsh (isNaN_mul_of_finite hreverb hstate)) (isNaN_mul_of_finite hlow hg)

/-- Step 5: the floor, then the ceiling. -/
theorem isNaN_value_postGain (hboosted : isNaN (mul (flooredGain s k) s.ppGainBoost) = false)
    (hmin : isNaN s.ppMinGain = false) :
    isNaN (postGain s k) = false ∧ value (postGain s k) =
      min (max (value (mul (flooredGain s k) s.ppGainBoost)) (value s.ppMinGain)) (value one) := by
  have hfloor := isNaN_fmax hboosted hmin
  have hone := isNaN_of_finite one_facts.1
  exact ⟨isNaN_fmin hfloor hone, by rw [postGain, value_fmin hfloor hone, value_fmax hboosted hmin]⟩

end

end Sys2Proof.Machine

namespace Sys2Proof.Proofs

open Machine Machine.F32 Spec

/-- Settles O54: GAIN_STATE is filled with `postGain`, whose boost has the condition `State.boosts`. -/
theorem postProcessorRunsItsFiveSteps : Obligations.PostProcessorRunsItsFiveSteps := by
  intro s hc
  refine ⟨_, exec_ppRun s, State.fillAll_eq, fun k hk => ?_, (State.fillAll_frame (by rfl)).2⟩
  exact ⟨shapedGain s k, shapedGain_of_boosts, shapedGain_of_not_boosts,
    State.elem_fillAll_of_mem hc (by simp) (List.mem_singleton.mpr rfl) hk⟩

/-- Settles O55: the loop fills GAIN_STATE in place to its end with the gains that PP_RUN fills it with. -/
theorem postProcessorLoopReadsThePreviousFrame : Obligations.PostProcessorLoopReadsThePreviousFrame := by
  intro s hc
  have h := ppLoop_filledTo hc le_rfl
  exact ⟨_, exec_ppRun s, h.readByte_eq, h.regs⟩

/-- Settles O56: no step of a bin makes a NaN, so the last floor and ceiling bound its gain. -/
theorem postProcessedGainsAreBounded : Obligations.PostProcessedGainsAreBounded := by
  intro s hc hgain hmin hmin0 hmin1 hreverb hlow hfactor hboost hz
  refine ⟨_, exec_ppRun s, fun k hk => ?_⟩
  rw [State.elem_fillAll_of_mem hc (by simp) (List.mem_singleton.mpr rfl) hk]
  obtain ⟨hn, h0, h1, hstate⟩ := hgain k hk
  obtain ⟨hg, hg1⟩ := finite_of_value_mem hn h0 h1
  have hfloored := isNaN_flooredGain (isNaN_shapedGain hg hg1 hfactor) hg hstate hreverb hlow
  obtain ⟨hpost, hvalue⟩ := isNaN_value_postGain (isNaN_mul_of_not_isZero hfloored hboost hz) hmin
  rw [hvalue]
  exact ⟨hpost, le_min (le_max_right _ _) hmin1, min_le_right _ _⟩

end Sys2Proof.Proofs
end

section
/-! NOP (44_control.md R220): the command, and the words whose OP is its opcode. -/

namespace Sys2Proof

open Spec

theorem encode_nop : encode .nop = 0#32 := rfl

theorem decode_zero : decode 0#32 = .ok .nop := by
  rw [← encode_nop]
  exact decode_encode rfl

/-- No other word has NOP's opcode and no reserved bit set: an accepted one would be the encoding of NOP. -/
theorem decode_of_opByte_eq_zero {c : Word} (hc : c ≠ 0#32) (hop : opByte c = 0#32) :
    decode c = .error .reservedBits := by
  have hd := decode_of_opcode (i := .nop) (Instr.opByte_eq_row_iff.mp hop)
  split at hd
  next => exact hd
  next => exact absurd ((encode_of_decode hd).symm.trans encode_nop) hc

end Sys2Proof

namespace Sys2Proof.Machine

theorem exec_nop (s : State) : exec .nop s = .next s := rfl

end Sys2Proof.Machine

namespace Sys2Proof.Proofs

open Machine

/-- Settles O28: the word 0 runs NOP, and any other word with OP 0 is rejected by the decoder. -/
theorem nopChangesNothing : Obligations.NopChangesNothing := by
  refine ⟨exec_nop, fun s c rest hn => ⟨?_, fun hc hop => ?_⟩⟩
  · rintro rfl
    rw [step_command hn decode_zero, exec_nop]
  · exact step_reservedBits hn (decode_of_opByte_eq_zero hc hop)

end Sys2Proof.Proofs
end

section
/-! The error record, ERR, ERRCODE and ERRINFO (10_state.md R25, R26): which steps can change it while ERR = 1
(60_exceptions.md R237, R238), on top of `exec_cases` and `step_cases`. -/

namespace Sys2Proof.Machine

/-- An address mapped to a register is the register's own. -/
theorem Reg.eq_addr_of_locate {c : Config} {a : BitVec 16} {r : Reg} (h : locate c a = .reg r) : a = r.addr := by
  unfold locate at h
  simp only at h
  split at h
  next hw =>
    split at h
    next r' hr =>
      cases h
      have ha := Reg.addr_of_regAt hr
      exact BitVec.eq_of_toNat_eq (by omega)
    next => cases h
  next =>
    split at h
    · split at h <;> cases h
    · split at h
      · split at h <;> cases h
      · cases h

namespace State

/-- `t` holds the error record of `s`. -/
def sameErrorRecord (s t : State) : Prop := t.err = s.err ∧ t.errCode = s.errCode ∧ t.errInfo = s.errInfo

theorem sameErrorRecord_rfl (s : State) : s.sameErrorRecord s := ⟨rfl, rfl, rfl⟩

/-- While ERR = 1 a further error is dropped (R237). -/
theorem sameErrorRecord_raiseCmdError {s : State} (h : s.err = true) (code : BitVec 3) (info : Word) :
    s.sameErrorRecord (s.raiseCmdError code info) := by
  rw [raiseCmdError_of_err _ _ _ h]
  exact s.sameErrorRecord_rfl

theorem sameErrorRecord_busRead {s : State} (h : s.err = true) (addr : BitVec 16) (size : AccessSize) :
    s.sameErrorRecord (s.busRead addr size) := by
  unfold busRead
  split
  · exact s.sameErrorRecord_rfl
  · exact sameErrorRecord_raiseCmdError h ..

theorem sameErrorRecord_fillAll (s : State) (fs : List (Buf × (Nat → Word))) :
    s.sameErrorRecord (s.fillAll fs) := by
  rw [fillAll_eq]
  exact s.sameErrorRecord_rfl

/-- Of the locations only STATUS changes the record, and only when bit 0 is written (R25). -/
theorem sameErrorRecord_writeLoc (s : State) {l : Loc} {v : Word}
    (h : l = .reg .status → v.getLsbD 0 = false) : s.sameErrorRecord (s.writeLoc l v) := by
  cases l with
  | elem b i => exact s.sameErrorRecord_rfl
  | win i => exact s.sameErrorRecord_rfl
  | reserved => exact s.sameErrorRecord_rfl
  | reg r =>
    by_cases hr : r = .status
    · subst hr
      rw [writeLoc, writeReg, writeStatus_of_clear _ _ (h rfl)]
      exact s.sameErrorRecord_rfl
    · exact writeReg_errorRecord hr v

end State

theorem exec_sameErrorRecord {i : Instr} {s t : State} (he : exec i s = .next t) : s.sameErrorRecord t := by
  obtain ⟨fs, a, r, -, hx⟩ := exec_cases i s
  cases hx.symm.trans he
  exact s.sameErrorRecord_fillAll fs

/-- While ERR = 1 the record stands, but for a write to STATUS with bit 0 set and a reset. -/
theorem step_sameErrorRecord {s t : State} (herr : s.err = true) (hs : step s = .next t) :
    s.sameErrorRecord t ∨
      (∃ v rest, s.pending = .write Reg.status.addr .word v :: rest ∧ v.getLsbD 0 = true) ∨
      ∃ rest, s.pending = .reset :: rest := by
  rcases step_cases hs with ⟨-, rfl⟩ | ⟨e, rest, hp, hcase⟩
  · exact .inl t.sameErrorRecord_rfl
  have herr' : ({ s with pending := rest } : State).err = true := herr
  rcases hcase with ⟨addr, size, -, rfl⟩ | ⟨addr, size, v, -, -, rfl⟩ | ⟨v, i, -, -, he⟩ | ⟨v, -, -, rfl⟩ |
    ⟨v, -, -, rfl⟩ | ⟨addr, v, rfl, -, -, rfl⟩ | ⟨rfl, -⟩
  · exact .inl (State.sameErrorRecord_busRead herr' addr size)
  · exact .inl (State.sameErrorRecord_raiseCmdError herr' ..)
  · exact .inl (exec_sameErrorRecord (s := { s with pending := rest }) he)
  · exact .inl (State.sameErrorRecord_raiseCmdError herr' ..)
  · exact .inl (State.sameErrorRecord_raiseCmdError herr' ..)
  · by_cases hclear : locate s.cfg addr = .reg .status ∧ v.getLsbD 0 = true
    · obtain ⟨hl, hv⟩ := hclear
      exact .inr (.inl ⟨v, rest, Reg.eq_addr_of_locate hl ▸ hp, hv⟩)
    · exact .inl (State.sameErrorRecord_writeLoc _ fun hl => Bool.eq_false_iff.mpr fun hv => hclear ⟨hl, hv⟩)
  · exact .inr (.inr ⟨rest, hp⟩)

end Sys2Proof.Machine

namespace Sys2Proof.Proofs

open Machine

/-- Settles O9: of the kinds of step that `step_cases` lists, one that raises an error finds ERR = 1 and drops it, and
a write changes the record only at the address of STATUS. -/
theorem firstErrorIsKept : Obligations.FirstErrorIsKept := by
  intro s t herr hs
  rcases step_sameErrorRecord herr hs with ⟨hkept, hcode, hinfo⟩ | hcleared
  · exact .inl ⟨hkept.trans herr, hcode, hinfo⟩
  · exact .inr hcleared

end Sys2Proof.Proofs
end

section
/-! Reset (70_reset_and_hazards.md R250 to R253): a run of host transactions composed of its parts, a buffer that
the host writes element after element, and the initialisation sequence of R252 from any state. -/

namespace Sys2Proof.Machine

open Spec

/-! ## Memory that reads as zero -/

theorem Memory.cells_of_forall_zero {bs : List Byte} (h : ∀ b ∈ bs, b = 0#8) (addr : Nat) :
    Memory.cells addr bs = [] := by
  induction bs generalizing addr with
  | nil => rfl
  | cons b bs ih =>
    rw [Memory.cells, if_pos (h b (by simp)), ih fun b' hb' => h b' (by simp [hb'])]

theorem Memory.bytesOfWord_posZero : ∀ b ∈ Memory.bytesOfWord F32.posZero, b = 0#8 := by decide

namespace State

theorem fillBuf_posZero_of_mem_nil {s : State} (h : s.mem = []) (b : Buf) :
    s.fillBuf b (fun _ => F32.posZero) = s := by
  have hmem : Memory.writeWords [] b.base ((List.range (b.len s.cfg)).map fun _ => F32.posZero) = [] := by
    rw [Memory.writeWords, Memory.cells_of_forall_zero]
    · rfl
    · intro x hx
      obtain ⟨w, hw, hx⟩ := List.mem_flatMap.mp hx
      obtain ⟨-, -, rfl⟩ := List.mem_map.mp hw
      exact Memory.bytesOfWord_posZero x hx
  rw [fillBuf, h, hmem, ← h]

/-- Buffers that hold nothing but +0.0 are not changed by clearing them. -/
theorem clearAll_of_mem_nil {s : State} (h : s.mem = []) (bs : List Buf) : s.clearAll bs = s := by
  induction bs with
  | nil => rfl
  | cons b bs ih =>
    calc s.clearAll (b :: bs)
        = (s.fillBuf b fun _ => F32.posZero).clearAll bs := rfl
      _ = s.clearAll bs := by rw [fillBuf_posZero_of_mem_nil h]
      _ = s := ih

theorem clearAll_append (s : State) (bs bs' : List Buf) :
    s.clearAll (bs ++ bs') = (s.clearAll bs).clearAll bs' := by
  simp only [clearAll, fillAll, List.map_append, List.foldl_append]

theorem Inv.clearAll {s : State} (h : s.Inv) (bs : List Buf) : (s.clearAll bs).Inv := Inv.fillAll h _

/-- The bytes inside a buffer are those of its elements. -/
theorem readByte_eq_of_elem_eq {s u : State} {b : Buf} (h : ∀ i < b.len s.cfg, u.elem b i = s.elem b i) {x : Nat}
    (hlo : b.base ≤ x) (hhi : x < b.base + 4 * b.len s.cfg) : u.readByte x = s.readByte x := by
  obtain ⟨i, j, hi, hj, rfl⟩ : ∃ i j, i < b.len s.cfg ∧ j < 4 ∧ x = b.addr i + j :=
    ⟨(x - b.base) / 4, (x - b.base) % 4, by omega, by omega, by simp only [Buf.addr]; omega⟩
  rw [← extractLsb'_elem _ _ _ hj, ← extractLsb'_elem _ _ _ hj, h i hi]

/-- Canonical memory whose buffers hold nothing but +0.0 lists no byte. -/
theorem Inv.mem_eq_nil {s : State} (h : s.Inv) (h0 : ∀ b, ∀ i < b.len s.cfg, s.elem b i = F32.posZero) :
    s.mem = [] := by
  obtain ⟨-, hwf, hin, -⟩ := h
  refine Memory.eq_of_readByte_eq hwf ⟨.nil, by simp⟩ fun x => ?_
  by_cases hx : ∃ b : Buf, b.base ≤ x ∧ x < b.base + 4 * b.len s.cfg
  · obtain ⟨b, hlo, hhi⟩ := hx
    have hnil : ∀ i < b.len s.cfg, s.elem b i = ({ s with mem := [] } : State).elem b i := fun i hi => by
      rw [h0 b i hi, elem_of_mem_nil rfl]
    exact readByte_eq_of_elem_eq (s := { s with mem := [] }) hnil hlo hhi
  · exact readByte_outside_buffers hin fun b hb => hx ⟨b, hb⟩

/-- Every buffer cleared is all of the memory cleared. -/
theorem Inv.clearAll_eq {s : State} (h : s.Inv) {bs : List Buf} (hnd : bs.Nodup) (hall : ∀ b, b ∈ bs) :
    s.clearAll bs = { s with mem := [] } := by
  have hmem : (s.clearAll bs).mem = [] :=
    (h.clearAll bs).mem_eq_nil fun b i hi => elem_clearAll h.1 hnd (hall b) (by rwa [clearAll_cfg] at hi)
  rw [(s.clearAll_frame bs).1, hmem]

/-- A write to a register neither reads nor changes the transactions still to be served. -/
theorem writeReg_with_pending (s : State) (es : List Event) (r : Reg) (v : Word) :
    ({ s with pending := es } : State).writeReg r v = { s.writeReg r v with pending := es } := by
  cases r
  case status =>
    cases hv : v.getLsbD 0 with
    | false => rw [writeReg, writeReg, writeStatus_of_clear _ _ hv, writeStatus_of_clear _ _ hv]
    | true => rw [writeReg, writeReg, writeStatus_of_set _ _ hv, writeStatus_of_set _ _ hv]
  all_goals rfl

end State

/-- In canonical memory a buffer written element after element to its end is the buffer filled at once. -/
theorem FilledTo.eq_fillBuf {s u : State} {b : Buf} {f : Nat → Word} (h : FilledTo s b f (b.len s.cfg) u)
    (hs : Memory.wf s.mem) (hu : Memory.wf u.mem) : u = s.fillBuf b f := by
  have hmem : u.mem = (s.fillBuf b f).mem := Memory.eq_of_readByte_eq hu (State.wf_fillBuf hs b f) h.readByte_eq
  rw [h.regs, hmem, State.fillBuf]

/-! ## Runs of transactions -/

/-- A run goes on from where a shorter one ends. -/
theorem run_add_of_next {M : Host.Core} {m n : Nat} {s t : M.State} (h : M.run m s = .next t) :
    M.run (m + n) s = M.run n t := by
  induction m generalizing s with
  | zero => cases h; rw [Nat.zero_add]
  | succ m ih =>
    rw [Nat.succ_add, Host.Core.run]
    rw [Host.Core.run] at h
    split at h
    next => exact ih h
    next => cases h
    next => cases h

/-- The block serves the transactions `es` one after the other and goes from `s` to `t`, whatever the host
asks for next. -/
def Serves (s : State) (es : List Event) (t : State) : Prop :=
  ∀ rest, core.run es.length { s with pending := es ++ rest } = .next { t with pending := rest }

section
variable {s t u : State} {es es' : List Event}

theorem Serves.nil : Serves s [] s := fun _ => rfl

theorem Serves.append (h : Serves s es t) (h' : Serves t es' u) : Serves s (es ++ es') u := by
  intro rest
  rw [List.length_append, List.append_assoc, run_add_of_next (h _), h']

theorem Serves.of_step {e : Event}
    (h : ∀ rest, step { s with pending := e :: rest } = .next { t with pending := rest }) : Serves s [e] t := by
  intro rest
  have hs : core.step { s with pending := [e] ++ rest } = .next { t with pending := rest } := h rest
  simp only [List.length_singleton, Host.Core.run, hs]

/-- A host that asks for nothing else. -/
theorem Serves.run (h : Serves s es t) (hp : s.pending = es) :
    core.run es.length s = .next { t with pending := [] } := by
  subst hp
  simpa only [List.append_nil] using h []

theorem serves_command {i : Instr} (hi : i.wf = true)
    (hx : ∀ rest, exec i { s with pending := rest } = .next { t with pending := rest }) : Serves s [cmd i] t :=
  .of_step fun rest => (step_command rfl (decode_encode hi)).trans (hx rest)

theorem serves_writeReg {r : Reg} (hr : r ≠ .cmd) (v : Word) : Serves s [wr r.addr v] (s.writeReg r v) :=
  .of_step fun rest => (step_writeReg hr rfl).trans (congrArg _ (s.writeReg_with_pending rest r v))

theorem serves_writeElem (hc : s.cfg.wf) {b : Buf} {i : Nat} (hi : i < b.len s.cfg) (v : Word) :
    Serves s [wr (elemAddr b i) v] (s.setElem b i v) :=
  .of_step fun rest => step_writeElem (s := { s with pending := wr (elemAddr b i) v :: rest }) hc hi rfl

/-- Registers written one after the other. -/
def State.writeRegs (s : State) (ws : List (Reg × Word)) : State := ws.foldl (fun s w => s.writeReg w.1 w.2) s

theorem serves_writeRegs {ws : List (Reg × Word)} (h : ∀ w ∈ ws, w.1 ≠ .cmd) :
    Serves s (ws.map fun w => wr w.1.addr w.2) (s.writeRegs ws) := by
  induction ws generalizing s with
  | nil => exact .nil
  | cons w ws ih => exact (serves_writeReg (h w (by simp)) w.2).append (ih fun w' hw' => h w' (by simp [hw']))

/-- The first `n` elements of a buffer written by the host. -/
theorem serves_writeElems (hc : s.cfg.wf) (hm : Memory.wf s.mem) {b : Buf} (f : Nat → Word) {n : Nat}
    (hn : n ≤ b.len s.cfg) : ∃ u, Serves s ((List.range n).map fun i => wr (elemAddr b i) (f i)) u ∧
      FilledTo s b f n u ∧ Memory.wf u.mem := by
  induction n with
  | zero => exact ⟨s, .nil, .zero, hm⟩
  | succ n ih =>
    obtain ⟨u, hserves, hfilled, hwf⟩ := ih (by omega)
    have hcfg : u.cfg = s.cfg := by rw [hfilled.regs]
    refine ⟨u.setElem b n (f n), ?_, hfilled.setElem hc hn, State.wf_setElem hwf ..⟩
    rw [List.range_succ, List.map_append]
    exact hserves.append (serves_writeElem (hcfg.symm ▸ hc) (hcfg.symm ▸ hn) _)

/-- A buffer filled with zeros by the host is cleared. -/
theorem serves_clearBuf (h : s.Inv) (b : Buf) :
    Serves s ((List.range (b.len s.cfg)).map fun i => wr (elemAddr b i) 0#32) (s.clearAll [b]) := by
  obtain ⟨hc, hm, -, -⟩ := h
  obtain ⟨u, hserves, hfilled, hwf⟩ := serves_writeElems hc hm (b := b) (fun _ => 0#32) le_rfl
  rwa [hfilled.eq_fillBuf hm hwf] at hserves

end

/-! ## The initialisation sequence (R252) -/

/-- The buffers the sequence clears, in its order: those of the two commands, then those the host writes. -/
def resetBuffers : List Buf :=
  Instr.stftInit.writes ++ Instr.ppInit.writes ++ [.inBuf] ++ [.outBuf] ++ [.gainIn]

/-- The registers the sequence writes, each with its reset value; the last write clears the error record. -/
def resetWrites : List (Reg × Word) :=
  [(.opa, 0#32), (.opb, 0#32), (.opc, 0#32), (.accLo, 0#32), (.accHi, 0#32), (.fOpa, 0#32), (.fRes, 0#32),
    (.ppAlphaReverb, 0#32), (.ppAlphaLowLevel, 0#32), (.ppMinGain, 0#32), (.ppGainBoost, 0x3F800000#32),
    (.ppSbFactor, 0x3F800000#32), (.ppSbStart, 0#32), (.ppSbEnd, 0#32), (.ppCtrl, 0#32),
    (.lmScale, 0x3F800000#32), (.status, 1#32)]

theorem resetBuffers_nodup : resetBuffers.Nodup := by decide

theorem mem_resetBuffers (b : Buf) : b ∈ resetBuffers := by cases b <;> decide

/-- Both halves of ACC are written, one beside the other (R28). -/
theorem acc_of_zero_halves (x : BitVec 64) :
    0#32 ++ (x.extractLsb' 32 32 ++ 0#32).extractLsb' 0 32 = 0#64 := by
  rw [BitVec.extractLsb'_append_eq_right]
  rfl

/-- The writes reach every register but F_RES, which ignores its own (R29, R69; log entry 9). -/
theorem State.writeRegs_resetWrites {s : State} (h : s.mem = []) : s.writeRegs resetWrites =
    { State.resetWith s.cfg with fRes := s.fRes, pending := s.pending, hostData := s.hostData } := by
  simp only [writeRegs, resetWrites, List.foldl, writeReg, writePpCtrl, writeStatus_of_set _ 1#32 (by decide),
    acc_of_zero_halves, h]
  rfl

/-- The commands and the host's zero writes of the sequence clear every buffer. -/
theorem serves_clearResetBuffers {s : State} (h : s.Inv) :
    Serves s ([cmd .stftInit, cmd .ppInit] ++
      (List.range s.cfg.r).map (fun i => wr (elemAddr .inBuf i) 0#32) ++
      (List.range s.cfg.r).map (fun i => wr (elemAddr .outBuf i) 0#32) ++
      (List.range s.cfg.k).map (fun i => wr (elemAddr .gainIn i) 0#32)) (s.clearAll resetBuffers) := by
  have clearBuf {bs : List Buf} (b : Buf) : Serves (s.clearAll bs)
      ((List.range (b.len s.cfg)).map fun i => wr (elemAddr b i) 0#32) (s.clearAll (bs ++ [b])) := by
    have hb := serves_clearBuf (h.clearAll bs) b
    rwa [State.clearAll_cfg, ← State.clearAll_append] at hb
  have hstft : Serves s [cmd .stftInit] (s.clearAll Instr.stftInit.writes) :=
    serves_command rfl fun _ => exec_stftInit _
  have hpp : Serves (s.clearAll Instr.stftInit.writes) [cmd .ppInit]
      (s.clearAll (Instr.stftInit.writes ++ Instr.ppInit.writes)) :=
    serves_command rfl fun _ => exec_ppInit _
  exact (((hstft.append hpp).append (clearBuf .inBuf)).append (clearBuf .outBuf)).append (clearBuf .gainIn)

theorem serves_resetSequence {s : State} (h : s.Inv) : Serves s (resetSequence s.cfg)
    { State.resetWith s.cfg with fRes := s.fRes, pending := s.pending, hostData := s.hostData } := by
  have hbufs := serves_clearResetBuffers h
  rw [h.clearAll_eq resetBuffers_nodup mem_resetBuffers] at hbufs
  have hregs : Serves { s with mem := [] } (resetWrites.map fun w => wr w.1.addr w.2)
      (({ s with mem := [] } : State).writeRegs resetWrites) := serves_writeRegs (by decide)
  rw [State.writeRegs_resetWrites rfl] at hregs
  exact hbufs.append hregs

theorem reluF_zero : reluF 0#32 = 0#32 := by
  rw [reluF_of_not_isNaN (by decide), if_neg (by decide)]
  rfl

theorem exec_fRelu_of_zero {s : State} (h : s.fOpa = 0#32) : exec .fRelu s = .next (s.setFRes 0#32) := by
  rw [exec_fRelu, h, reluF_zero]

/-- F_RES, which no host write reaches, is cleared by F_RELU of an operand of 0 (log entry 9). -/
theorem serves_clearResult (s : State) : Serves s clearResult ((s.writeReg .fOpa 0#32).setFRes 0#32) := by
  have hrelu : Serves (s.writeReg .fOpa 0#32) [cmd .fRelu] ((s.writeReg .fOpa 0#32).setFRes 0#32) :=
    serves_command rfl fun _ => exec_fRelu_of_zero rfl
  exact (serves_writeReg (r := .fOpa) (by decide) 0#32).append hrelu

end Sys2Proof.Machine

namespace Sys2Proof.Proofs

open Machine Spec

/-- Settles O25: the two commands and the host's zero writes clear every buffer, and the writes to the registers
that follow reach all of the state but F_RES, which is 0 already when F_RELU of 0 came first. -/
theorem initialisationReachesTheResetState : Obligations.InitialisationReachesTheResetState := by
  refine ⟨fun c => ⟨?_, ?_⟩, fun s h hp => (serves_resetSequence h).run hp, fun s h hp => ?_⟩
  · rw [exec_stftInit, State.clearAll_of_mem_nil rfl]
  · rw [exec_ppInit, State.clearAll_of_mem_nil rfl]
  · have hinv : ((s.writeReg .fOpa 0#32).setFRes 0#32).Inv :=
      (State.Inv.writeReg h .fOpa 0#32).congr rfl rfl rfl rfl rfl
    exact ((serves_clearResult s).append (serves_resetSequence hinv)).run hp

/-- Settles O19: the registers hold the values of the table, memory lists no byte, and WIN and the identification
registers are read from the configuration. -/
theorem stateAfterReset : Obligations.StateAfterReset := by
  intro c hc
  have hwin : ∀ i < c.n, (State.resetWith c).readLoc (locate c (BitVec.ofNat 16 (0x5000 + 4 * i))) = window c i := by
    intro i hi
    have hn : c.n ≤ 1024 := Buf.len_le hc .anaBuf
    rw [locate_win hc hi (by rw [BitVec.toNat_ofNat]; exact Nat.mod_eq_of_lt (by omega))]
    rfl
  exact ⟨rfl, rfl, rfl, rfl, rfl, rfl, rfl, rfl, rfl, rfl, rfl, rfl, rfl, rfl, rfl, rfl, rfl,
    State.elem_of_mem_nil rfl, hwin, rfl, rfl, rfl, rfl⟩

/-- Settles O20: the step serves the event, and the model's reset takes every field but the host's own from the
state after reset. -/
theorem resetEventRestoresTheResetState : Obligations.ResetEventRestoresTheResetState :=
  fun _ _ hn => ⟨_, step_pending hn, rfl⟩

end Sys2Proof.Proofs
end
